-- ==== Sys2Proof/Word.lean ====
section
/-! DEFINITION. The bit-vector types of the block. -/

namespace Sys2Proof

/-- A byte of a buffer (R29). -/
abbrev Byte := BitVec 8

/-- A result register, a BCH dataword, a raw frequency: `WORD = 32` (R8, R20). -/
abbrev Word := BitVec 32

/-- A command word: one 64-bit value (R70). -/
abbrev CommandWord := BitVec 64

end Sys2Proof
end

