-- ==== Sys2Proof/Config.lean ====
section
/-! DEFINITION. What an implementation fixes: the open parameters `CFG` of R9 as plain data, and the free values. -/

namespace Sys2Proof

/-- The rate denominators of the convolutional encoder, `CONV_RATES = {2, 3}` (R8, R24). -/
inductive ConvRate where
  | two
  | three
  deriving DecidableEq, Repr

/-- The coding rates, in the order of their codes 0, 1, 2, 3 (R82). -/
inductive CodingRate where
  | r5_6
  | r2_3
  | r1_2
  | r1_3
  deriving DecidableEq, Repr

/-- The hopping grids, in the order of their codes 0, 1 (R83). -/
inductive Grid where
  | wide
  | narrow
  deriving DecidableEq, Repr

/-- One entry `(w, initState, polys, seedMask, idLimit)` of `CFG.hopTable`, with its key `nGrid` (R9, R193). -/
structure HopEntry where
  nGrid     : Nat
  w         : Nat
  initState : Nat
  polys     : List Nat
  seedMask  : Nat
  idLimit   : Nat
  deriving DecidableEq, Repr

/-- The open parameters `CFG` (R9), as plain data. `whitenNext` is the function of R9 as its table of 256 values;
`chanCount` and `hopTable` are partial maps as lists of entries with distinct keys; `convStateBits[3]` is no field,
because it is 6 (R9, R100). What a well-formed `CFG` is: `Machine.cfgWf` (Machine/CfgCheck.lean). -/
structure Cfg where
  whitenNext         : List Byte
  convStateBits2     : Nat
  convTable2         : List (Nat × Nat)
  convTable3         : List (Nat × Nat)
  punct5_6           : List Bool
  punct2_3           : List Bool
  punct1_2           : List Bool
  ilvRootEven        : Bool
  hdrPerm            : List Nat
  syncWord           : List Bool
  hdrGuardBits       : Nat
  chanCount          : List (Nat × Nat)
  gridChannelsWide   : Nat
  gridChannelsNarrow : Nat
  hopTable           : List HopEntry
  chanStepRaw        : Word
  ifOffsetRaw        : Word
  deriving DecidableEq, Repr

/-- The unspecified byte a host read returns where the spec gives no value (R37, R38, U9): draw number `n` returns
`freeByte n`. It has no body, so nothing can be proved of its value. DESIGN CHOICE, safe: log 9. -/
opaque Config.freeByte : Nat → Byte

/-- The bit that is sent where the interleaver's order names a position past the end of the punctured stream, to which
the spec gives no value: a function of the stream and the position, since the frame is a function of its inputs (R148).
It has no body. DESIGN CHOICE, safe: log 23. -/
opaque Config.unstatedBit : List Bool → Nat → Bool

end Sys2Proof
end

