-- ==== Sys2Proof/Syntax.lean ====
section
/-! DEFINITION. The ten commands of spec/opcode_table.json (R72), one constructor a row. -/

namespace Sys2Proof

/-- A command with its operands, each taken as it stands (R71). Codes and counts are natural numbers, and
`Instr.wf` says which of them a command word can carry (log 17); words that are used as bits are bit vectors. -/
inductive Instr where
  /-- `CONV.BEGIN rate` (R105). -/
  | convBegin (rate : Nat)
  /-- `CONV.ENCODE nbits` (R107). -/
  | convEncode (nbits : Nat)
  /-- `BCH.BEGIN n, k, poly` (R122). -/
  | bchBegin (n k : Nat) (poly : Word)
  /-- `BCH.ENCODE dataword` (R130). -/
  | bchEncode (dataword : Word)
  /-- `FHSS.BEGIN bw=, cr=, hdr=, grid=, id=` (R141). -/
  | fhssBegin (bw cr hdrCount : Nat) (grid : Grid) (hopSeqId : Nat)
  /-- `FHSS.CONFIG bw=, cr=, hdr=, grid=, id=` (R143). -/
  | fhssConfig (bw cr hdrCount : Nat) (grid : Grid) (hopSeqId : Nat)
  /-- `FHSS.ENCODE len` (R145). -/
  | fhssEncode (len : Nat)
  /-- `HOP.START centre` (R194). -/
  | hopStart (centre : Word)
  /-- `HOP.STEP` (R196). -/
  | hopStep
  /-- `HOP.RESET` (R208). -/
  | hopReset
  deriving DecidableEq, Repr

end Sys2Proof
end

