-- ==== Sys2Proof/WellFormed.lean ====
section
/-! DEFINITION. Which commands a command word can carry: every operand fits its field (R70, R71). -/

namespace Sys2Proof

/-- An operand of an 8-bit field `a`, `b` or `c` (R70). -/
def fitsByteField (v : Nat) : Bool := decide (v < 2 ^ 8)

/-- An operand of the 16-bit part `imm[15:0]` (R71). -/
def fitsIdField (v : Nat) : Bool := decide (v < 2 ^ 16)

/-- An operand of the 32-bit field `imm` (R70). -/
def fitsImmField (v : Nat) : Bool := decide (v < 2 ^ 32)

/-- Every operand fits its field. Whether its value is legal is the command's own check (R71), not this one. -/
def Instr.wf : Instr → Bool
  | .convBegin rate => fitsByteField rate
  | .convEncode nbits => fitsImmField nbits
  | .bchBegin n k _ => fitsByteField n && fitsByteField k
  | .bchEncode _ => true
  | .fhssBegin bw cr hdrCount _ hopSeqId =>
      fitsByteField bw && fitsByteField cr && fitsByteField hdrCount && fitsIdField hopSeqId
  | .fhssConfig bw cr hdrCount _ hopSeqId =>
      fitsByteField bw && fitsByteField cr && fitsByteField hdrCount && fitsIdField hopSeqId
  | .fhssEncode len => fitsImmField len
  | .hopStart _ => true
  | .hopStep => true
  | .hopReset => true

end Sys2Proof
end

