-- ==== Sys2Proof/Decode.lean ====
section
/-! DEFINITION. The decoder of command words (R70 to R75), total, rejecting by name; after it the encoder, written
from the same format table (R70, R76). -/

namespace Sys2Proof

/-- The codes of the hopping grids (R83). -/
def Grid.code : Grid → Nat
  | .wide => 0
  | .narrow => 1

/-- Why a word is no command (R74). Both kinds are `CommandInvalid` to the block. -/
inductive DecodeError where
  /-- The opcode is none of the ten (R72). -/
  | unknownOpcode
  /-- A field, or a part of `imm`, that the command does not use is not 0 (R72, R74). -/
  | unusedFieldNotZero
  deriving DecidableEq, Repr

/-- Bits 63:56, `op` (R70). -/
def opField (w : CommandWord) : BitVec 8 := w.extractLsb' 56 8

/-- Bits 55:48, `a` (R70). -/
def aField (w : CommandWord) : BitVec 8 := w.extractLsb' 48 8

/-- Bits 47:40, `b` (R70). -/
def bField (w : CommandWord) : BitVec 8 := w.extractLsb' 40 8

/-- Bits 39:32, `c` (R70). -/
def cField (w : CommandWord) : BitVec 8 := w.extractLsb' 32 8

/-- Bits 31:0, `imm` (R70). -/
def immField (w : CommandWord) : BitVec 32 := w.extractLsb' 0 32

/-- `imm[15:0]`, the `hopSeqId` of `FHSS.BEGIN` and `FHSS.CONFIG` (R71). -/
def idPart (imm : BitVec 32) : BitVec 16 := imm.extractLsb' 0 16

/-- `imm[16]`, the grid (R71, R83). -/
def gridPart (imm : BitVec 32) : Grid := if imm.getLsbD 16 then .narrow else .wide

/-- `imm[31:17]`, which must be 0 (R71). -/
def reservedPart (imm : BitVec 32) : BitVec 15 := imm.extractLsb' 17 15

/-- The command, provided its unused fields are 0 (R74). -/
def whenUnusedZero (unusedZero : Bool) (i : Instr) : Except DecodeError Instr :=
  if unusedZero then .ok i else .error .unusedFieldNotZero

/-- The decoder (R72, R74): the opcode selects the command, and the fields the command does not use must be 0. -/
def decode (w : CommandWord) : Except DecodeError Instr :=
  let a := aField w
  let b := bField w
  let c := cField w
  let imm := immField w
  match (opField w).toNat with
  | 0x10 => whenUnusedZero (b == 0 && c == 0 && imm == 0) (.convBegin a.toNat)
  | 0x11 => whenUnusedZero (a == 0 && b == 0 && c == 0) (.convEncode imm.toNat)
  | 0x20 => whenUnusedZero (c == 0) (.bchBegin a.toNat b.toNat imm)
  | 0x21 => whenUnusedZero (a == 0 && b == 0 && c == 0) (.bchEncode imm)
  | 0x30 => whenUnusedZero (reservedPart imm == 0)
      (.fhssBegin a.toNat b.toNat c.toNat (gridPart imm) (idPart imm).toNat)
  | 0x31 => whenUnusedZero (reservedPart imm == 0)
      (.fhssConfig a.toNat b.toNat c.toNat (gridPart imm) (idPart imm).toNat)
  | 0x32 => whenUnusedZero (a == 0 && b == 0 && c == 0) (.fhssEncode imm.toNat)
  | 0x40 => whenUnusedZero (a == 0 && b == 0 && c == 0) (.hopStart imm)
  | 0x41 => whenUnusedZero (a == 0 && b == 0 && c == 0 && imm == 0) .hopStep
  | 0x42 => whenUnusedZero (a == 0 && b == 0 && c == 0 && imm == 0) .hopReset
  | _ => .error .unknownOpcode

/-- The decoder on a word numbered as spec/opcode_table.json numbers it: bit 0 is bit 0 of the one 64-bit word. -/
def tableWord (nbits w : Nat) : CommandWord := BitVec.ofNat 64 (w % 2 ^ nbits)

/-- What the decoder reads from a table row's word; none where it refuses. -/
def decodeTableWord (nbits w : Nat) : Option Instr := (decode (tableWord nbits w)).toOption

/-! ## The match and mask table (R73)

The second form in which the spec gives the same encodings. The decoder above is written from the fields of R72; a
statement says that the two agree. -/

/-- A row of the table of R73. -/
structure TableRow where
  mnemonic : String
  pattern  : CommandWord
  mask     : CommandWord
  deriving DecidableEq, Repr

/-- The table of R73, as printed. -/
def commandTable : List TableRow :=
  [⟨"CONV.BEGIN", 0x1000000000000000, 0xFF00FFFFFFFFFFFF⟩,
   ⟨"CONV.ENCODE", 0x1100000000000000, 0xFFFFFFFF00000000⟩,
   ⟨"BCH.BEGIN", 0x2000000000000000, 0xFF0000FF00000000⟩,
   ⟨"BCH.ENCODE", 0x2100000000000000, 0xFFFFFFFF00000000⟩,
   ⟨"FHSS.BEGIN", 0x3000000000000000, 0xFF000000FFFE0000⟩,
   ⟨"FHSS.CONFIG", 0x3100000000000000, 0xFF000000FFFE0000⟩,
   ⟨"FHSS.ENCODE", 0x3200000000000000, 0xFFFFFFFF00000000⟩,
   ⟨"HOP.START", 0x4000000000000000, 0xFFFFFFFF00000000⟩,
   ⟨"HOP.STEP", 0x4100000000000000, 0xFFFFFFFFFFFFFFFF⟩,
   ⟨"HOP.RESET", 0x4200000000000000, 0xFFFFFFFFFFFFFFFF⟩]

/-- The mnemonic of a command (R72). -/
def Instr.mnemonic : Instr → String
  | .convBegin _ => "CONV.BEGIN"
  | .convEncode _ => "CONV.ENCODE"
  | .bchBegin _ _ _ => "BCH.BEGIN"
  | .bchEncode _ => "BCH.ENCODE"
  | .fhssBegin _ _ _ _ _ => "FHSS.BEGIN"
  | .fhssConfig _ _ _ _ _ => "FHSS.CONFIG"
  | .fhssEncode _ => "FHSS.ENCODE"
  | .hopStart _ => "HOP.START"
  | .hopStep => "HOP.STEP"
  | .hopReset => "HOP.RESET"

/-! ## The encoder -/

/-- The format `C64` (R70): the five fields, `op` uppermost. -/
def c64 (op a b c : BitVec 8) (imm : BitVec 32) : CommandWord := op ++ a ++ b ++ c ++ imm

/-- The `imm` of `FHSS.BEGIN` and `FHSS.CONFIG` (R71, R76): 15 zeros, the grid, the sequence id. -/
def configImm (grid : Grid) (hopSeqId : Nat) : BitVec 32 :=
  0#15 ++ BitVec.ofNat 1 grid.code ++ BitVec.ofNat 16 hopSeqId

/-- The word of a command (R76). -/
def encode : Instr → CommandWord
  | .convBegin rate => c64 0x10 (BitVec.ofNat 8 rate) 0 0 0
  | .convEncode nbits => c64 0x11 0 0 0 (BitVec.ofNat 32 nbits)
  | .bchBegin n k poly => c64 0x20 (BitVec.ofNat 8 n) (BitVec.ofNat 8 k) 0 poly
  | .bchEncode dataword => c64 0x21 0 0 0 dataword
  | .fhssBegin bw cr hdrCount grid hopSeqId =>
      c64 0x30 (BitVec.ofNat 8 bw) (BitVec.ofNat 8 cr) (BitVec.ofNat 8 hdrCount) (configImm grid hopSeqId)
  | .fhssConfig bw cr hdrCount grid hopSeqId =>
      c64 0x31 (BitVec.ofNat 8 bw) (BitVec.ofNat 8 cr) (BitVec.ofNat 8 hdrCount) (configImm grid hopSeqId)
  | .fhssEncode len => c64 0x32 0 0 0 (BitVec.ofNat 32 len)
  | .hopStart centre => c64 0x40 0 0 0 centre
  | .hopStep => c64 0x41 0 0 0 0
  | .hopReset => c64 0x42 0 0 0 0

end Sys2Proof
end

