-- ==== Sys2Proof/Machine/Params.lean ====
section
/-! DEFINITION. The fixed parameters of R8, under the names of its table. -/

namespace Sys2Proof.Machine

/-- `FRAG_BITS`: payload bits per fragment (R8). -/
def fragBits : Nat := 48

/-- `GUARD_BITS`: guard bits before each fragment (R8). -/
def guardBits : Nat := 2

/-- `WHITEN_SEED`: the whitening LFSR at the first payload byte (R8). -/
def whitenSeed : Byte := 0xFF

/-- `CRC16_POLY` (R8). -/
def crc16Poly : BitVec 16 := 0x755B

/-- `CRC16_INIT` (R8). -/
def crc16Init : BitVec 16 := 0xFFFF

/-- `CRC16_XOROUT` (R8). -/
def crc16XorOut : BitVec 16 := 0x0000

/-- `CRC8_POLY` (R8). -/
def crc8Poly : Byte := 0x2F

/-- `CRC8_INIT` (R8). -/
def crc8Init : Byte := 0xFF

/-- `CRC8_XOROUT` (R8). -/
def crc8XorOut : Byte := 0x00

/-- `TAIL_BITS`: zero bits fed to the rate-1/3 encoder after the CRC (R8). -/
def tailBits : Nat := 6

/-- `HDR_PERM_LEN`: coded header bits (R8). -/
def hdrPermLen : Nat := 80

/-- `HDR_RAW_BITS`: header bits before coding (R8). -/
def hdrRawBits : Nat := 40

/-- `HDRCOUNT_MIN` (R8). -/
def hdrCountMin : Nat := 1

/-- `HDRCOUNT_MAX` (R8). -/
def hdrCountMax : Nat := 4

/-- `BCH_MAX_N`: the largest code length (R8). -/
def bchMaxN : Nat := 31

/-- `IN_BYTES`: the size of `IN` (R8, R29). -/
def inBytes : Nat := 256

/-- `OUT_BYTES`: the size of `OUT` (R8, R29). -/
def outBytes : Nat := 768

/-- `MAX_PAYLOAD`: the longest payload `FHSS.ENCODE` accepts (R8). -/
def maxPayload : Nat := 255

/-- `FRAME_MAX_BYTES`: the size of `FRAME` (R8, R29). -/
def frameMaxBytes : Nat := 255

/-- The bound 511 on a hopping-sequence identifier: nine bits in the header (R142, R81). -/
def hopSeqIdMax : Nat := 511

end Sys2Proof.Machine
end

