-- ==== Sys2Proof/Machine/Bits.lean ====
section
/-! DEFINITION. Numbers, bit strings, polynomials over GF(2) and the generic CRC (R11, R12, R14, R15). -/

namespace Sys2Proof.Machine

/-! ## Numbers (R11) -/

/-- `ceil(a/b)` for `b > 0` (R11). -/
def ceilDiv (a b : Nat) : Nat := (a + b - 1) / b

/-- The search of `ceilSqrt`: the first of `c, c+1, ..` whose square reaches `n`; `fuel` candidates are tried. -/
def ceilSqrtFrom (n : Nat) : Nat → Nat → Nat
  | 0, c => c
  | fuel + 1, c => if n ≤ c * c then c else ceilSqrtFrom n fuel (c + 1)

/-- `ceilsqrt(n)`: the least `c` with `c*c >= n` (R11). At most `n` candidates fail, since `n <= n*n`. -/
def ceilSqrt (n : Nat) : Nat := ceilSqrtFrom n n 0

/-- `parity(v)`: the exclusive or of all bits of `v` (R11). -/
def parity (v : Nat) : Bool := (List.range (v.log2 + 1)).foldl (fun p i => p ^^ v.testBit i) false

/-! ## Bit strings (R12) -/

/-- The eight bits of a byte, most significant first (R12). -/
def byteBits (b : Byte) : List Bool := (List.range 8).map (fun i => b.getMsbD i)

/-- `BitAt(B, i) = (B[i div 8] >> (7 - (i mod 8))) & 1` (R12). -/
def bitAt (bytes : List Byte) (i : Nat) : Bool := (bytes.getD (i / 8) 0).getMsbD (i % 8)

/-- `Bits(B, n)`: the list `BitAt(B,0) .. BitAt(B,n-1)` (R12), for `n` within the buffer. -/
def bitsOf (bytes : List Byte) (n : Nat) : List Bool := (bytes.flatMap byteBits).take n

/-- The byte whose bits, most significant first, are the first eight of the list, 0 where it has fewer (R12). -/
def byteOfBits (bits : List Bool) : Byte :=
  BitVec.ofNat 8 ((List.range 8).foldl (fun v i => 2 * v + (bits.getD i false).toNat) 0)

/-- `n` bytes of packed bits. -/
def packBytes : Nat → List Bool → List Byte
  | 0, _ => []
  | n + 1, bits => byteOfBits (bits.take 8) :: packBytes n (bits.drop 8)

/-- `Pack(bits)`: `ceil(len/8)` bytes with `BitAt(Pack(bits), i) = bits[i]`, unused low bits 0 (R12). -/
def pack (bits : List Bool) : List Byte := packBytes (ceilDiv bits.length 8) bits

/-! ## Polynomials over GF(2) (R14) -/

/-- `deg(p)`: the index of the highest set bit of a nonzero `p` (R14). -/
def deg (p : Nat) : Nat := p.log2

/-- The loop of `pmod`: while `deg(a) >= deg(g)`, exclusive-or the shifted `g` into `a`; a zero `a` ends it (R14). -/
def pmodLoop (g : Nat) : Nat → Nat → Nat
  | 0, a => a
  | fuel + 1, a => if a = 0 ∨ deg a < deg g then a else pmodLoop g fuel (a ^^^ (g <<< (deg a - deg g)))

/-- `pmod(a, g)`: the remainder of `a` divided by `g` over GF(2) (R14). Each round clears the top bit of `a`, so
`deg(a) + 1` rounds are enough (log 15). -/
def pmod (a g : Nat) : Nat := pmodLoop g (deg a + 1) a

/-! ## The generic CRC (R15) -/

/-- One shift of the CRC register (R15). -/
def crcShift {w : Nat} (poly reg : BitVec w) : BitVec w := if reg.msb then (reg <<< 1) ^^^ poly else reg <<< 1

/-- `n` shifts of the CRC register. -/
def crcShifts {w : Nat} (poly : BitVec w) : Nat → BitVec w → BitVec w
  | 0, reg => reg
  | n + 1, reg => crcShifts poly n (crcShift poly reg)

/-- One byte into the CRC register: `reg ^ (b << (W-8))`, then eight shifts (R15). -/
def crcByte {w : Nat} (poly reg : BitVec w) (b : Byte) : BitVec w :=
  crcShifts poly 8 (reg ^^^ (b.setWidth w <<< (w - 8)))

/-- `Crc(W, poly, init, xorout, bytes)`, not reflected, most significant bit first (R15). -/
def crc {w : Nat} (poly init xorout : BitVec w) (bytes : List Byte) : BitVec w :=
  bytes.foldl (crcByte poly) init ^^^ xorout

end Sys2Proof.Machine
end

