-- ==== Sys2Proof/Machine/Galois.lean ====
section
/-! DEFINITION. The arithmetic of GF(2^m) and the search for the generator of a BCH code (R120, R121, R123). -/

namespace Sys2Proof.Machine

/-- The next power of `alpha`: shift, and reduce by the field polynomial when the degree reaches `m` (R121). -/
def alphaStep (m poly v : Nat) : Nat := if (v <<< 1).testBit m then (v <<< 1) ^^^ poly else v <<< 1

/-- `count` successive powers of `alpha`, from `v`. -/
def alphaPowers (m poly : Nat) : Nat → Nat → List Nat
  | 0, _ => []
  | count + 1, v => v :: alphaPowers m poly count (alphaStep m poly v)

/-- `alphaTo[0 .. n-1]`: the powers of `alpha` from `alpha^0 = 1` (R121). -/
def alphaTable (m poly n : Nat) : List Nat := alphaPowers m poly n 1

/-- `indexOf[1 .. n]`: for each value the power of `alpha` it is (R121). -/
def indexTable (alphaTo : List Nat) (n : Nat) : List Nat := (List.range n).map (fun i => alphaTo.idxOf (i + 1))

/-- The value of `v` left after `count` rounds of the loop of R121. -/
def alphaLeft (m poly : Nat) : Nat → Nat → Nat
  | 0, v => v
  | count + 1, v => alphaLeft m poly count (alphaStep m poly v)

/-- The polynomial is primitive: the `n` powers of `alpha` are pairwise distinct, and the value left after the loop is
1 (R121). The second half, which R121 gives as a consequence, refuses `poly = 0x4`, the one polynomial whose powers are
distinct without it. DEDUCED: log 20. -/
def primitive (m poly n : Nat) : Bool := decide (alphaTable m poly n).Nodup && alphaLeft m poly n 1 == 1

/-- Multiplication in the field through the tables; a product with 0 is 0 (R121). -/
def gfMul (alphaTo indexOf : List Nat) (n a b : Nat) : Nat :=
  if a = 0 ∨ b = 0 then 0
  else alphaTo.getD ((indexOf.getD (a - 1) 0 + indexOf.getD (b - 1) 0) % n) 0

/-- `Coset(s) = { s * 2^j mod n }`: `j` from 0 to `m - 1` gives all of it, since `2^m mod n = 1` (R123; log 14). -/
def coset (n m s : Nat) : List Nat := (List.range m).map (fun j => s * 2 ^ j % n)

/-- `Z_t`: the union of `Coset(1) .. Coset(2t)`, in rising order (R123). -/
def rootSet (n m t : Nat) : List Nat :=
  (List.range n).filter (fun z => (List.range (2 * t)).any (fun i => (coset n m (i + 1)).contains z))

/-- The product of a polynomial over the field (coefficients from the constant upwards) with `x + root`: the
coefficient of `x^i` is `p[i-1] + root * p[i]`. The first argument is `p[-1]`, the coefficient below the list. -/
def mulLinear (mul : Nat → Nat → Nat) (root : Nat) : Nat → List Nat → List Nat
  | below, [] => [below]
  | below, p :: ps => (below ^^^ mul root p) :: mulLinear mul root p ps

/-- `g_t(x)`, the product over `z` in `Z_t` of `(x + alpha^z)`, as coefficients in the field (R123). -/
def generatorCoeffs (alphaTo indexOf : List Nat) (n : Nat) (zs : List Nat) : List Nat :=
  zs.foldl (fun p z => mulLinear (gfMul alphaTo indexOf n) (alphaTo.getD z 0) 0 p) [1]

/-- A polynomial with coefficients 0 and 1 as a bit mask, bit `i` the coefficient of `x^i` (R123). -/
def coeffMask : List Nat → Nat
  | [] => 0
  | p :: ps => (if p = 1 then 1 else 0) + 2 * coeffMask ps

/-- `FindGenerator(n, k)`: the least `t` with `|Z_t| >= n - k`, provided `|Z_t| = n - k` and `2t < n`, with the bit
mask of `g_t` (R123). For `k = 1` and `n` of 7, 15 or 31 the rule's words give a code that its table of "the codes that
exist under this rule" leaves out; the model follows the words. DEDUCED, unsafe for those codes: log 22. -/
def findGenerator (m poly n k : Nat) : Option (Nat × Nat) :=
  let alphaTo := alphaTable m poly n
  let indexOf := indexTable alphaTo n
  match (List.range' 1 ((n - 1) / 2)).find? (fun t => decide (n - k ≤ (rootSet n m t).length)) with
  | none => none
  | some t =>
    if (rootSet n m t).length = n - k then some (t, coeffMask (generatorCoeffs alphaTo indexOf n (rootSet n m t)))
    else none

/-- The division as R131 writes it, bit by bit: `i` from `top + count - 1` down to `top`, with `top = n - k`. -/
def divideFrom (g top : Nat) : Nat → Nat → Nat
  | 0, r => r
  | count + 1, r => divideFrom g top count (if r.testBit (top + count) then r ^^^ (g <<< count) else r)

/-! ## Systematic encoding (R130) -/

/-- The `n-k` check bits of a dataword of `k` bits (R130). -/
def bchCheck (n k gen d : Nat) : Nat := pmod (d <<< (n - k)) gen

/-- The `n`-bit systematic codeword (R130). -/
def bchCodeword (n k gen d : Nat) : Nat := (d <<< (n - k)) ||| bchCheck n k gen d

/-- `E(dataword)`: the codeword of the low `k` bits, with the overall parity bit appended below (R130, R88). -/
def bchEncode (n k gen dataword : Nat) : Nat :=
  let d := dataword &&& (2 ^ k - 1)
  let c := bchCodeword n k gen d
  (c <<< 1) ||| (parity c).toNat

end Sys2Proof.Machine
end

