-- ==== Sys2Proof/Machine/Lfsr.lean ====
section
/-! DEFINITION. The Galois LFSR of the hop generator (R198) and its full-period test (R193). -/

namespace Sys2Proof.Machine

/-- `LfsrNext(state, poly)`: shift right, and exclusive-or the mask in when the bit shifted out is 1 (R198). -/
def lfsrNext (state poly : Nat) : Nat := if state % 2 = 1 then (state >>> 1) ^^^ poly else state >>> 1

/-- `n` clocks of the LFSR. -/
def lfsrIter (poly : Nat) : Nat → Nat → Nat
  | 0, state => state
  | n + 1, state => lfsrIter poly n (lfsrNext state poly)

/-- Looking at the register `n + 1` times, first at `state` and then after each further clock, it is 1 at the last look
and at no look before. -/
def lfsrFirstOneAfter (poly : Nat) : Nat → Nat → Bool
  | 0, state => state == 1
  | n + 1, state => state != 1 && lfsrFirstOneAfter poly n (lfsrNext state poly)

/-- The mask makes the `w`-bit LFSR cycle through all `2^w - 1` nonzero states (R193): it is a `w`-bit mask with bit
`w-1` set, so a clock permutes the nonzero states, and the cycle of state 1 has length exactly `2^w - 1`. -/
def lfsrFullPeriod (w poly : Nat) : Bool :=
  decide (1 ≤ w) && decide (poly < 2 ^ w) && poly.testBit (w - 1)
    && lfsrFirstOneAfter poly (2 ^ w - 2) (lfsrNext 1 poly)

end Sys2Proof.Machine
end

