-- ==== Sys2Proof/Machine/CfgCheck.lean ====
section
/-! DEFINITION. Reading `CFG` (R9), and when a `CFG` is well formed (R9, R193). -/

namespace Sys2Proof.Machine

/-- The rate denominator a rate stands for (R24). -/
def convDenominator : ConvRate → Nat
  | .two => 2
  | .three => 3

/-- `CFG.whitenNext(l)` (R9). -/
def whitenNext (c : Cfg) (l : Byte) : Byte := c.whitenNext.getD l.toNat 0

/-- `CFG.convStateBits[r]`: a field for rate 2, and 6 for rate 3 (R9, R100). -/
def convStateBits (c : Cfg) : ConvRate → Nat
  | .two => c.convStateBits2
  | .three => 6

/-- `CFG.convTable[r]`: rows of two symbols (R9). -/
def convTable (c : Cfg) : ConvRate → List (Nat × Nat)
  | .two => c.convTable2
  | .three => c.convTable3

/-- `CFG.punct[cr]`; rate 1/3 has no pattern (R9, R158). -/
def punct (c : Cfg) : CodingRate → Option (List Bool)
  | .r5_6 => some c.punct5_6
  | .r2_3 => some c.punct2_3
  | .r1_2 => some c.punct1_2
  | .r1_3 => none

/-- `CFG.chanCount[bw]`, none where the map has no entry (R9, R84). -/
def chanCount (c : Cfg) (bw : Nat) : Option Nat := c.chanCount.lookup bw

/-- `CFG.gridChannels[grid]` (R9). -/
def gridChannels (c : Cfg) : Grid → Nat
  | .wide => c.gridChannelsWide
  | .narrow => c.gridChannelsNarrow

/-- `CFG.hopTable[nGrid]`, none where the map has no entry (R9, R192). -/
def hopEntry (c : Cfg) (nGrid : Nat) : Option HopEntry := c.hopTable.find? (fun e => e.nGrid == nGrid)

/-- `SYNC_BITS`: the length of `CFG.syncWord` (R9). -/
def syncBits (c : Cfg) : Nat := c.syncWord.length

/-- `HDR_BLOCK_BITS = CFG.hdrGuardBits + 80 + SYNC_BITS` (R10). -/
def hdrBlockBits (c : Cfg) : Nat := c.hdrGuardBits + hdrPermLen + syncBits c

/-! ## Well-formedness -/

/-- A puncturing pattern of rate `a/b`: non-empty, `3*a*j` long, with exactly `b*j` ones, for some `j >= 1` (R9). -/
def punctWf (a b : Nat) (pat : List Bool) : Bool :=
  !pat.isEmpty && pat.length % (3 * a) == 0 && pat.count true == b * (pat.length / (3 * a))

/-- A convolutional table of rate `r`: `2^w` rows of two `r`-bit symbols (R9). -/
def convTableWf (r w : Nat) (rows : List (Nat × Nat)) : Bool :=
  rows.length == 2 ^ w && rows.all (fun row => decide (row.1 < 2 ^ r) && decide (row.2 < 2 ^ r))

/-- An entry of `CFG.hopTable` (R193). -/
def hopEntryWf (e : HopEntry) : Bool :=
  decide (1 ≤ e.nGrid) && decide (e.nGrid ≤ 2 ^ e.w - 1)
    && decide (0 < e.initState) && decide (e.initState < 2 ^ e.w)
    && decide (e.seedMask ≤ 2 ^ e.w - 1) && decide (e.idLimit ≤ 512)
    && decide (ceilDiv e.idLimit (2 ^ e.w) ≤ e.polys.length)
    && e.polys.all (lfsrFullPeriod e.w)

/-- The well-formedness constraints of R9 and R193. The distinct keys of the two maps are what makes the lists maps. -/
def cfgWf (c : Cfg) : Bool :=
  c.whitenNext.length == 2 ^ 8
    && decide (1 ≤ c.convStateBits2) && decide (c.convStateBits2 ≤ 39)
    && convTableWf 2 c.convStateBits2 c.convTable2 && convTableWf 3 6 c.convTable3
    && punctWf 5 6 c.punct5_6 && punctWf 2 3 c.punct2_3 && punctWf 1 2 c.punct1_2
    && c.hdrPerm.length == hdrPermLen && c.hdrPerm.all (fun p => decide (p < hdrPermLen)) && decide c.hdrPerm.Nodup
    && !c.syncWord.isEmpty
    && decide ((c.chanCount.map Prod.fst).Nodup)
    && decide (0 < c.gridChannelsNarrow) && decide (c.gridChannelsNarrow < c.gridChannelsWide)
    && decide ((c.hopTable.map HopEntry.nGrid).Nodup) && c.hopTable.all hopEntryWf

/-- The pattern keeps one of the 66 coded bits of the empty payload, the shortest stream there is (R156, R157). -/
def keepsShortest (pat : List Bool) : Bool := (pat.take 66).contains true

/-- Every frame has a payload block: no pattern punctures a whole stream away. R31 (f), R194 (`hopCount >= 2` always)
and R161 (`n >= 1`) take this for granted; R9 does not list it. DEDUCED, safe: log 13. -/
def cfgKeepsPayload (c : Cfg) : Bool :=
  keepsShortest c.punct5_6 && keepsShortest c.punct2_3 && keepsShortest c.punct1_2

end Sys2Proof.Machine
end

