-- ==== Sys2Proof/Machine/Reference.lean ====
section
/-! DEFINITION. `CFG_REF`, the reference configuration of 93_implementation_defined.md section 3. It is not the wire
contract and no evidence of it (R4, R9). PRESUMED (general knowledge or the spec author's own, as section 3 marks each
value), unsafe for a claim that rests on a value: log 3. -/

namespace Sys2Proof.Machine

/-- `whitenNext(l) = ((l << 1) | (l[7] ^ l[5] ^ l[4] ^ l[3])) & 0xFF` (section 3.1). -/
def refWhitenNext (l : Byte) : Byte :=
  l <<< 1 ||| BitVec.setWidth 8 (BitVec.ofBool (l.getLsbD 7 ^^ l.getLsbD 5 ^^ l.getLsbD 4 ^^ l.getLsbD 3))

/-- The table of `whitenNext`. -/
def refWhitenTable : List Byte := (List.range 256).map (fun l => refWhitenNext (BitVec.ofNat 8 l))

/-- `convTable[2]`, rows `[T[s][0], T[s][1]]` as printed (section 3.3). -/
def refConvTable2 : List (Nat × Nat) :=
  [(0, 3), (1, 2), (2, 1), (3, 0), (2, 1), (3, 0), (0, 3), (1, 2)] ++
    [(3, 0), (2, 1), (1, 2), (0, 3), (1, 2), (0, 3), (3, 0), (2, 1)]

/-- `convTable[3]`, rows `[T[s][0], T[s][1]]` as printed (section 3.4). -/
def refConvTable3 : List (Nat × Nat) :=
  [(0, 7), (3, 4), (6, 1), (5, 2), (6, 1), (5, 2), (0, 7), (3, 4)] ++
    [(1, 6), (2, 5), (7, 0), (4, 3), (7, 0), (4, 3), (1, 6), (2, 5)] ++
    [(4, 3), (7, 0), (2, 5), (1, 6), (2, 5), (1, 6), (4, 3), (7, 0)] ++
    [(5, 2), (6, 1), (3, 4), (0, 7), (3, 4), (0, 7), (5, 2), (6, 1)] ++
    [(7, 0), (4, 3), (1, 6), (2, 5), (1, 6), (2, 5), (7, 0), (4, 3)] ++
    [(6, 1), (5, 2), (0, 7), (3, 4), (0, 7), (3, 4), (6, 1), (5, 2)] ++
    [(3, 4), (0, 7), (5, 2), (6, 1), (5, 2), (6, 1), (3, 4), (0, 7)] ++
    [(2, 5), (1, 6), (4, 3), (7, 0), (4, 3), (7, 0), (2, 5), (1, 6)]

/-- `punct[5/6]` (section 3.5). -/
def refPunct5_6 : List Bool :=
  [true, true, false, true, false, false, false, true, false, true, false, false, false, true, false]

/-- `punct[2/3]` (section 3.5). -/
def refPunct2_3 : List Bool := [true, true, false, true, false, false]

/-- `punct[1/2]` (section 3.5). -/
def refPunct1_2 : List Bool := [true, true, false]

/-- `hdrPerm` (section 3.7). -/
def refHdrPerm : List Nat :=
  [0, 18, 36, 54, 72, 4, 22, 40, 58, 76, 8, 26, 44, 62, 12, 30, 48, 66, 16, 34] ++
    [52, 70, 1, 19, 37, 55, 73, 5, 23, 41, 59, 77, 9, 27, 45, 63, 13, 31, 49, 67] ++
    [17, 35, 53, 71, 2, 20, 38, 56, 74, 6, 24, 42, 60, 78, 10, 28, 46, 64, 14, 32] ++
    [50, 68, 3, 21, 39, 57, 75, 7, 25, 43, 61, 79, 11, 29, 47, 65, 15, 33, 51, 69]

/-- `syncWord`: the bytes `2C 0F 79 95` (section 3.8). -/
def refSyncWord : List Bool := bitsOf [0x2C, 0x0F, 0x79, 0x95] 32

/-- `chanCount`, by bandwidth code 0 to 9 (section 3.9). -/
def refChanCount : List (Nat × Nat) :=
  [(0, 80), (1, 176), (2, 280), (3, 376), (4, 688), (5, 792), (6, 1480), (7, 1584), (8, 3120), (9, 3224)]

/-- The entry of the table of R192 for a grid size of its first row. -/
def refHop6 (nGrid : Nat) : HopEntry := ⟨nGrid, 6, 6, [33, 45, 48, 51, 54, 57], 0x3F, 384⟩

/-- The entry of the table of R192 for a grid size of its second row. -/
def refHop7 (nGrid : Nat) : HopEntry := ⟨nGrid, 7, 6, [65, 68, 71, 72], 0x7F, 512⟩

/-- The entry of the table of R192 for a grid size of its third row. -/
def refHop8 (nGrid : Nat) : HopEntry := ⟨nGrid, 8, 6, [142, 149], 0xFF, 512⟩

/-- The entry of the table of R192 for a grid size of its fourth row. -/
def refHop9 (nGrid : Nat) : HopEntry := ⟨nGrid, 9, 6, [264], 0x1FF, 512⟩

/-- `hopTable` (section 3.10, R192). -/
def refHopTable : List HopEntry :=
  [refHop6 10, refHop6 22, refHop6 28, refHop6 30, refHop6 35, refHop6 47, refHop7 86, refHop7 99, refHop8 185,
    refHop8 198, refHop9 390, refHop9 403]

/-- `CFG_REF` (section 3). -/
def cfgRef : Cfg where
  whitenNext         := refWhitenTable
  convStateBits2     := 4
  convTable2         := refConvTable2
  convTable3         := refConvTable3
  punct5_6           := refPunct5_6
  punct2_3           := refPunct2_3
  punct1_2           := refPunct1_2
  ilvRootEven        := false
  hdrPerm            := refHdrPerm
  syncWord           := refSyncWord
  hdrGuardBits       := 2
  chanCount          := refChanCount
  gridChannelsWide   := 52
  gridChannelsNarrow := 8
  hopTable           := refHopTable
  chanStepRaw        := 512
  ifOffsetRaw        := 256

/-- `CFG_REF` meets every constraint of R9 and R193. -/
theorem cfgRef_wf : cfgWf cfgRef = true := by decide +kernel

/-- `CFG_REF` gives every frame a payload block. -/
theorem cfgRef_keepsPayload : cfgKeepsPayload cfgRef = true := by decide

end Sys2Proof.Machine
end

