-- ==== Sys2Proof/Machine/State.lean ====
section
/-! DEFINITION. All the state the spec gives the block (10_state.md), and the reset state (R250). -/

namespace Sys2Proof.Machine

/-! ## Result kinds and stops -/

/-- The result kinds of a command (R220, R221). `ResultKind.code` (Machine/Flags.lean) gives their codes. -/
inductive ResultKind where
  | ok
  | commandInvalid
  | commandFailed
  | wrongModem
  | packetTooLong
  | invalidDataShaping
  | notInitialised
  | invalidRate
  | invalidLength
  | invalidBch
  | invalidCodingRate
  | invalidBandwidth
  | invalidHdrCount
  | invalidGrid
  deriving DecidableEq, Repr

/-- Why the machine stops with a fault. None is a result kind of the block (R233). -/
inductive Fault where
  /-- `CONV.ENCODE` or `FHSS.ENCODE` reads a byte of `IN` that the host has not written since reset (R37, R233 (a)).
  Safe: the block would go on with whatever the memory holds. -/
  | readOfUnwrittenInput
  /-- `State.start` is given a `CFG` that breaks a constraint of R9 or R193 (R233 (b)), or one under which R31 (f) fails
  (log 13). Safe: such a block is not run. -/
  | malformedCfg
  /-- `HOP.STEP`: the retry loop of R197 has used up its `2^w - 1` clocks (R199). Safe: it excludes only states that
  break the invariants of R31, and no state that a run reaches (log 11). -/
  | hopRetryExhausted
  deriving DecidableEq, Repr

/-- Why the machine has no step. -/
inductive Refusal where
  /-- `exec`: an instruction that has no meaning yet. Safe. No arm raises it. -/
  | notModelled (mnemonic : String)
  /-- `step`: the host has no further event pending; the run has ended (R22) or waits for the host (R253). Safe. -/
  | awaitingHost
  /-- `step`: the host's next event is an access the rules give no move for: outside a buffer, or a write to anything
  but `IN` (R52, R233 (c)). Safe. -/
  | noHostMove
  deriving DecidableEq, Repr

/-! ## Buffers -/

/-- The contents of one buffer, as the bytes that have been written, in strictly rising order of offset. An offset
that is not listed holds no value (R37). -/
abbrev Memory := List Host.Cell

/-- The three byte-addressed buffers (R29). -/
inductive Space where
  | inBuf
  | outBuf
  | frameBuf
  deriving DecidableEq, Repr

/-! ## The host's events -/

/-- A place the host can name in an access (R52). -/
inductive Loc where
  /-- Byte `offset` of a buffer. -/
  | byte (space : Space) (offset : Nat)
  /-- Result register `RES[index]`. -/
  | res (index : Nat)
  /-- `STATUS`. -/
  | status
  deriving DecidableEq, Repr

/-- What reaches the block from outside, between commands (R52, R57, R70, R250). -/
inductive Event where
  /-- The host hands over a command word (R70). -/
  | command (w : CommandWord)
  /-- The host reads a place (R52). -/
  | read (loc : Loc)
  /-- The host writes a byte to a place (R52). -/
  | write (loc : Loc) (b : Byte)
  /-- The reset event (R250). -/
  | reset
  deriving DecidableEq, Repr

/-! ## The units -/

/-- The result registers `RES[0]` to `RES[3]` (R20). -/
structure ResFile where
  r0 : Word
  r1 : Word
  r2 : Word
  r3 : Word
  deriving DecidableEq, Repr

/-- `CONV` unit state (R24). `rate = none` before the first begin. -/
structure ConvUnit where
  rate  : Option ConvRate
  state : Nat
  deriving DecidableEq, Repr

/-- `BCH` unit state (R25). `alphaTo` lists the entries 0, 1, .. and `indexOf` the entries 1, 2, ..; `gen` is a
polynomial (R14). -/
structure BchUnit where
  valid   : Bool
  n       : Nat
  k       : Nat
  m       : Nat
  poly    : Word
  alphaTo : List Nat
  indexOf : List Nat
  gen     : Nat
  deriving DecidableEq, Repr

/-- The configuration fields `cfg.*` of the `FHSS` unit (R26). -/
structure FhssCfg where
  bw       : Nat
  cr       : CodingRate
  hdrCount : Nat
  grid     : Grid
  hopSeqId : Nat
  deriving DecidableEq, Repr

/-- Frame state, the buffer `FRAME` apart (R27). -/
structure FrameUnit where
  valid     : Bool
  bitLength : Nat
  hopCount  : Nat
  deriving DecidableEq, Repr

/-- `HOP` unit state (R28). -/
structure HopUnit where
  nGrid         : Nat
  w             : Nat
  initState     : Nat
  state         : Nat
  poly          : Nat
  seed          : Nat
  bitsRemaining : Nat
  hopsRemaining : Nat
  hopIndex      : Nat
  hdrCount      : Nat
  centre        : Word
  deriving DecidableEq, Repr

/-- A `CFG` the block runs under: the parameters with the proofs that they meet R9 and R193 (log 4) and that every frame
has a payload block, as R31 (f) says (log 13), so that no state holds a `CFG` the model must refuse. -/
structure GoodCfg extends Cfg where
  isWf         : cfgWf toCfg = true
  keepsPayload : cfgKeepsPayload toCfg = true
  deriving DecidableEq, Repr

/-! ## The whole state -/

/-- The block. `STATUS` is no field: `State.status` (Machine/Flags.lean) computes it from `kind` and the state it
copies (R23). -/
structure State where
  /-- The open parameters (R9), fixed for the machine. The model's own field: log 2. -/
  CFG      : GoodCfg
  /-- `RES[0..3]` (R20). -/
  res      : ResFile
  /-- `pc` (R22). -/
  pc       : Nat
  /-- `STATUS.code`, as the result kind of the last command (R23, R221). -/
  kind     : ResultKind
  /-- `conv.*` (R24). -/
  conv     : ConvUnit
  /-- `bch.*` (R25). -/
  bch      : BchUnit
  /-- `fhss.begun` (R26). -/
  begun    : Bool
  /-- `cfg.*` (R26). -/
  cfg      : FhssCfg
  /-- `frame.*` (R27). -/
  frame    : FrameUnit
  /-- `hop.*` (R28). -/
  hop      : HopUnit
  /-- `IN` (R29). -/
  inBuf    : Memory
  /-- `OUT` (R29). -/
  outBuf   : Memory
  /-- `FRAME` (R29). -/
  frameBuf : Memory
  /-- The events still to come, next one first. The model's own field: log 1. -/
  pending  : List Event
  /-- What the host's reads returned, newest first. The model's own field: log 10. -/
  seen     : List (Loc × Word)
  /-- How many unspecified bytes have been drawn. The model's own field: log 9. -/
  draws    : Nat
  deriving DecidableEq, Repr

/-- The state after reset under a given `CFG` (R250). -/
def State.resetWith (c : GoodCfg) : State where
  CFG      := c
  res      := ⟨0, 0, 0, 0⟩
  pc       := 0
  kind     := .ok
  conv     := ⟨none, 0⟩
  bch      := ⟨false, 0, 0, 0, 0, [], [], 0⟩
  begun    := false
  cfg      := ⟨0, .r5_6, 0, .wide, 0⟩
  frame    := ⟨false, 0, 0⟩
  hop      := ⟨0, 0, 0, 0, 0, 0, 0, 0, 0, 0, 0⟩
  inBuf    := []
  outBuf   := []
  frameBuf := []
  pending  := []
  seen     := []
  draws    := 0

/-- `CFG_REF` as a well-formed `CFG`. -/
def goodCfgRef : GoodCfg := { cfgRef with isWf := cfgRef_wf, keepsPayload := cfgRef_keepsPayload }

/-- The machine right after reset (R250), with `CFG_REF` for its `CFG` (DESIGN CHOICE: log 2). -/
def State.reset : State := State.resetWith goodCfgRef

/-- Starting the block under a `CFG`: the reset state, or the model's fault for a malformed `CFG` (R233 (b)). -/
def State.start (c : Cfg) : Host.Outcome State Fault Refusal :=
  if h : cfgWf c = true ∧ cfgKeepsPayload c = true then
    .next (State.resetWith { c with isWf := h.1, keepsPayload := h.2 })
  else .fault .malformedCfg

end Sys2Proof.Machine
end

