-- ==== Sys2Proof/Machine/Ops.lean ====
section
/-! DEFINITION. The operations over buffers and registers that the commands share, and ending a command: `Ok`, or an
error kind (R50, R51, R220, R225). -/

namespace Sys2Proof.Machine

/-! ## Buffers -/

/-- `Memory.wf`: the canonical form, offsets strictly rising. No listed byte can equal what an unlisted offset reads
as, since that is no value at all. -/
def Memory.wf (m : Memory) : Bool := decide ((m.map Prod.fst).Pairwise (· < ·))

/-- Every listed offset lies in a buffer of `size` bytes (R29). -/
def Memory.within (size : Nat) (m : Memory) : Bool := m.all (fun c => decide (c.1 < size))

/-- The byte at an offset, none where none has been written (R37). -/
def Memory.read (m : Memory) (a : Nat) : Option Byte := m.lookup a

/-- `MemRead(S:a, n)`: the bytes `S[a] .. S[a+n-1]` (R50), none if one of them holds no value (R37). -/
def Memory.readBytes (m : Memory) : Nat → Nat → Option (List Byte)
  | _, 0 => some []
  | a, n + 1 =>
    match Memory.read m a, Memory.readBytes m (a + 1) n with
    | some b, some bs => some (b :: bs)
    | _, _ => none

/-- The cells of a run of bytes from offset `a`. -/
def cellsFrom : Nat → List Byte → Memory
  | _, [] => []
  | a, b :: bs => (a, b) :: cellsFrom (a + 1) bs

/-- `MemWrite(S:a, n, v)`: the bytes of `v` to `S[a] ..`, and no other byte changed (R51). The bytes below the run, the
run, and the bytes above it, so the form stays canonical. -/
def Memory.writeBytes (m : Memory) (a : Nat) (v : List Byte) : Memory :=
  m.filter (fun c => c.1 < a) ++ cellsFrom a v ++ m.filter (fun c => a + v.length ≤ c.1)

/-- The size of a buffer (R29). -/
def Space.size : Space → Nat
  | .inBuf => inBytes
  | .outBuf => outBytes
  | .frameBuf => frameMaxBytes

/-- The contents of a buffer. -/
def State.buffer (s : State) : Space → Memory
  | .inBuf => s.inBuf
  | .outBuf => s.outBuf
  | .frameBuf => s.frameBuf

/-- One byte of a buffer as the block holds it, none where none has been written. -/
def State.byteAt (s : State) (sp : Space) (a : Nat) : Option Byte := Memory.read (s.buffer sp) a

/-! ## Result registers -/

/-- Reading `RES[i]`: there are four (R20). -/
def ResFile.read (r : ResFile) : Nat → Option Word
  | 0 => some r.r0
  | 1 => some r.r1
  | 2 => some r.r2
  | 3 => some r.r3
  | _ => none

/-- A value as a result register holds it (R20). -/
def toWord (v : Nat) : Word := BitVec.ofNat 32 v

/-! ## The end of a command -/

/-- Every command ends so (R220, R22): the result kind into `STATUS.code`, and `pc <- pc + 1`. -/
def complete (k : ResultKind) (s : State) : Host.Outcome State Fault Refusal :=
  .next { s with kind := k, pc := s.pc + 1 }

/-- The end of a command that raised nothing: `STATUS.code <- Ok; pc <- pc + 1` (R13). -/
def finish (s : State) : Host.Outcome State Fault Refusal := complete .ok s

/-- `raise K(info)`: the error entry sequence of R220, applied to the state as the command found it, so that nothing
else changes (R13, R225). There is no handler, no saved state and no return (R220). -/
def raise (k : ResultKind) (s : State) : Host.Outcome State Fault Refusal := complete k s

end Sys2Proof.Machine
end

