-- ==== Sys2Proof/Machine/Operands.lean ====
section
/-! DEFINITION. The codes operands carry, and the reading of operands as rates (R24, R71, R82). -/

namespace Sys2Proof.Machine

/-- `rateDenominator` as a rate: 2 or 3, and nothing else (R105). -/
def rateOfDenominator : Nat → Option ConvRate
  | 2 => some .two
  | 3 => some .three
  | _ => none

/-- The code of a coding rate (R82). -/
def codingRateCode : CodingRate → Nat
  | .r5_6 => 0
  | .r2_3 => 1
  | .r1_2 => 2
  | .r1_3 => 3

/-- A coding-rate operand: the codes 0 to 3, and nothing above (R82, R142). -/
def codingRateOfCode : Nat → Option CodingRate
  | 0 => some .r5_6
  | 1 => some .r2_3
  | 2 => some .r1_2
  | 3 => some .r1_3
  | _ => none

end Sys2Proof.Machine
end

