-- ==== Sys2Proof/Machine/Bch.lean ====
section
/-! DEFINITION. The commands of the `BCH` unit (41_bch.md). -/

namespace Sys2Proof.Machine

/-- The checks of `BCH.BEGIN` before the search: (1) to (5) of R122. -/
def bchParamsOk (n k poly : Nat) : Bool :=
  decide (4 ≤ poly) && n == 2 ^ deg poly - 1 && decide (n ≤ bchMaxN) && decide (1 ≤ k) && decide (k < n)
    && primitive (deg poly) poly n

/-- `(t, g)` of the code that `n`, `k`, `poly` describe, none where they describe none: the six checks of R122. -/
def bchGenerator (n k poly : Nat) : Option (Nat × Nat) :=
  if bchParamsOk n k poly then findGenerator (deg poly) poly n k else none

/-- The unit state a successful `BCH.BEGIN` leaves (R122). -/
def bchUnitOf (n k : Nat) (poly : Word) (gen : Nat) : BchUnit where
  valid   := true
  n       := n
  k       := k
  m       := deg poly.toNat
  poly    := poly
  alphaTo := alphaTable (deg poly.toNat) poly.toNat n
  indexOf := indexTable (alphaTable (deg poly.toNat) poly.toNat n) n
  gen     := gen

/-- `BCH.BEGIN n, k, poly` (R122). -/
def execBchBegin (n k : Nat) (poly : Word) (s : State) : Host.Outcome State Fault Refusal :=
  match bchGenerator n k poly.toNat with
  | none => raise .invalidBch s
  | some (t, g) =>
    finish { s with bch := bchUnitOf n k poly g, res := { s.res with r0 := toWord g, r1 := toWord t } }

/-- `BCH.ENCODE dataword` (R130). -/
def execBchEncode (dataword : Word) (s : State) : Host.Outcome State Fault Refusal :=
  if s.bch.valid then
    finish { s with res := { s.res with r0 := toWord (bchEncode s.bch.n s.bch.k s.bch.gen dataword.toNat) } }
  else raise .notInitialised s

end Sys2Proof.Machine
end

