-- ==== Sys2Proof/Machine/ConvCode.lean ====
section
/-! DEFINITION. The convolutional code as a pure function (R100 to R103), used by `CONV.ENCODE` and `FHSS.ENCODE`. -/

namespace Sys2Proof.Machine

/-- The table entry `T_r[s][b]` (R100, R101). -/
def convSymbol (c : Cfg) (r : ConvRate) (s : Nat) (b : Bool) : Nat :=
  let row := (convTable c r).getD s (0, 0)
  if b then row.2 else row.1

/-- The state update `s' = ((s << 1) | b) & (2^w_r - 1)` (R102). -/
def convNext (c : Cfg) (r : ConvRate) (s : Nat) (b : Bool) : Nat :=
  ((s <<< 1) ||| b.toNat) &&& (2 ^ convStateBits c r - 1)

/-- The bits `v[n-1], .., v[0]` of a symbol, most significant first (R103). -/
def symbolBits (n v : Nat) : List Bool := (List.range n).map (fun j => v.testBit (n - 1 - j))

/-- The output bits of `ConvEncodeBits` (R103). -/
def convOut (c : Cfg) (r : ConvRate) : Nat → List Bool → List Bool
  | _, [] => []
  | s, b :: bits => symbolBits (convDenominator r) (convSymbol c r s b) ++ convOut c r (convNext c r s b) bits

/-- The end state of `ConvEncodeBits` (R103). -/
def convEnd (c : Cfg) (r : ConvRate) (s : Nat) (bits : List Bool) : Nat := bits.foldl (convNext c r) s

/-- `ConvEncodeBits(r, s0, bits) = (out, s_end)` (R103). -/
def convEncodeBits (c : Cfg) (r : ConvRate) (s : Nat) (bits : List Bool) : List Bool × Nat :=
  (convOut c r s bits, convEnd c r s bits)

end Sys2Proof.Machine
end

