-- ==== Sys2Proof/Machine/Conv.lean ====
section
/-! DEFINITION. The commands of the `CONV` unit (40_conv.md). -/

namespace Sys2Proof.Machine

/-- `CONV.BEGIN rate` (R105). -/
def execConvBegin (rate : Nat) (s : State) : Host.Outcome State Fault Refusal :=
  match rateOfDenominator rate with
  | none => raise .invalidRate s
  | some r => finish { s with conv := ⟨some r, 0⟩ }

/-- `CONV.ENCODE nbits` (R107). -/
def execConvEncode (nbits : Nat) (s : State) : Host.Outcome State Fault Refusal :=
  match s.conv.rate with
  | none => raise .notInitialised s
  | some r =>
    if nbits > 8 * inBytes then raise .invalidLength s
    else
      match Memory.readBytes s.inBuf 0 (ceilDiv nbits 8) with
      | none => .fault .readOfUnwrittenInput
      | some bytes =>
        let coded := convEncodeBits s.CFG.toCfg r s.conv.state (bitsOf bytes nbits)
        finish { s with
          outBuf := Memory.writeBytes s.outBuf 0 (pack coded.1)
          conv := ⟨some r, coded.2⟩
          res := { s.res with
            r0 := toWord (convDenominator r * nbits)
            r1 := toWord (ceilDiv (convDenominator r * nbits) 8) } }

end Sys2Proof.Machine
end

