-- ==== Sys2Proof/Machine/HopGen.lean ====
section
/-! DEFINITION. The hopping-sequence generator as pure functions (R191, R192, R197, R203 to R205). -/

namespace Sys2Proof.Machine

/-- `nGrid = CFG.chanCount[bw] div CFG.gridChannels[grid]` (R191). -/
def gridSize (c : Cfg) (channels : Nat) (grid : Grid) : Nat := channels / gridChannels c grid

/-- The candidate of R197: the state mixed with the seed, and the seed itself when the two are equal. -/
def hopCandidate (seed state : Nat) : Nat := if seed = state then seed else seed ^^^ state

/-- The retry loop of `HopNext` (R197), with a bound on its clocks; none when the bound is used up. -/
def hopSearch (poly seed nGrid : Nat) : Nat → Nat → Option (Nat × Nat)
  | 0, _ => none
  | fuel + 1, state =>
    if hopCandidate seed (lfsrNext state poly) ≤ nGrid then
      some (lfsrNext state poly, hopCandidate seed (lfsrNext state poly))
    else hopSearch poly seed nGrid fuel (lfsrNext state poly)

/-- `HopNext(state, poly, seed, nGrid)` (R197) for an LFSR of `w` bits: at most `2^w - 1` clocks (R199; log 11). -/
def hopNext (w state poly seed nGrid : Nat) : Option (Nat × Nat) := hopSearch poly seed nGrid (2 ^ w - 1) state

/-- `HopBits(hopIndex, hdrCount, bitsRemaining)` (R203): a header block, or a payload block of up to 50 bits. -/
def hopBits (c : Cfg) (hopIndex hdrCount bitsRemaining : Nat) : Nat :=
  if hopIndex < hdrCount then hdrBlockBits c else min (guardBits + fragBits) bitsRemaining

/-- The hop carries the IF offset: a header hop with `hdrCount - hopIndex` even (R204, R205). -/
def hasIfOffset (hopIndex hdrCount : Nat) : Bool :=
  decide (hopIndex < hdrCount) && (hdrCount - hopIndex) % 2 == 0

/-- `FreqOffset(hopv, nGrid, grid, hopIndex, hdrCount)` (R204). -/
def freqOffset (c : Cfg) (hopv nGrid : Nat) (grid : Grid) (hopIndex hdrCount : Nat) : Int :=
  let ch := gridChannels c grid
  let t : Int := ((hopv : Int) - 1) - (((nGrid - 1) / 2 : Nat) : Int)
  let goff : Int := (((1 + nGrid % 2) * (ch / 2) : Nat) : Int)
  (t * (ch : Int) - goff) * (c.chanStepRaw.toNat : Int)
    + (if hasIfOffset hopIndex hdrCount then (c.ifOffsetRaw.toNat : Int) else 0)

/-- `RES[1] = (hop.centre + off) mod 2^32` (R204, R90). -/
def rawFrequency (centre : Word) (off : Int) : Word := BitVec.ofInt 32 ((centre.toNat : Int) + off)

end Sys2Proof.Machine
end

