-- ==== Sys2Proof/Machine/Stages.lean ====
section
/-! DEFINITION. The stages of the frame encoder as pure functions (R150 to R177). -/

namespace Sys2Proof.Machine

/-! ## Whitening (R150) -/

/-- The nibble swap of R150. -/
def swapNibbles (u : Byte) : Byte := ((u &&& 0x0F) <<< 4) ||| ((u &&& 0xF0) >>> 4)

/-- The loop of `Whiten` from LFSR value `l` (R150). -/
def whitenFrom (c : Cfg) : Byte → List Byte → List Byte
  | _, [] => []
  | l, x :: xs => swapNibbles (x ^^^ l) :: whitenFrom c (whitenNext c l) xs

/-- `Whiten(bytes)` (R150). -/
def whiten (c : Cfg) (bytes : List Byte) : List Byte := whitenFrom c whitenSeed bytes

/-- The loop of `Dewhiten` from LFSR value `l` (R152). -/
def dewhitenFrom (c : Cfg) : Byte → List Byte → List Byte
  | _, [] => []
  | l, y :: ys => (swapNibbles y ^^^ l) :: dewhitenFrom c (whitenNext c l) ys

/-- `Dewhiten(bytes)`, of which the block has no command (R152). -/
def dewhiten (c : Cfg) (bytes : List Byte) : List Byte := dewhitenFrom c whitenSeed bytes

/-! ## The FEC input (R155, R156) -/

/-- The CRC-16 of the whitened payload (R155). -/
def payloadCrc16 (w : List Byte) : BitVec 16 := crc crc16Poly crc16Init crc16XorOut w

/-- `PayloadCrc(W) = [crc >> 8, crc & 0xFF]`, high byte first (R155, R53). -/
def payloadCrc (w : List Byte) : List Byte :=
  [(payloadCrc16 w).extractLsb' 8 8, (payloadCrc16 w).extractLsb' 0 8]

/-- `buf = W ++ PayloadCrc(W) ++ [0x00]` (R155). -/
def fecBuffer (w : List Byte) : List Byte := w ++ payloadCrc w ++ [0x00]

/-- `nIn = 8 * (len + 2) + 6` (R156). -/
def fecInputBits (len : Nat) : Nat := 8 * (len + 2) + tailBits

/-- `FecInput = Bits(buf, nIn)` (R156). -/
def fecInput (c : Cfg) (payload : List Byte) : List Bool :=
  bitsOf (fecBuffer (whiten c payload)) (fecInputBits payload.length)

/-- The rate-1/3 stream `C` (R157). -/
def fecCoded (c : Cfg) (payload : List Byte) : List Bool := convOut c .three 0 (fecInput c payload)

/-! ## Puncturing (R158, R159) -/

/-- `Puncture(cr, C)`: bit `i` is kept where the repeated pattern has a 1 (R158). -/
def puncture (c : Cfg) (cr : CodingRate) (bits : List Bool) : List Bool :=
  match punct c cr with
  | none => bits
  | some pat => (bits.zipIdx.filter (fun bi => pat.getD (bi.2 % pat.length) false)).map Prod.fst

/-- `ExpandedBits(cr, n)` (R159). -/
def expandedBits (c : Cfg) (cr : CodingRate) (n : Nat) : Nat :=
  match punct c cr with
  | none => n
  | some pat => (n / pat.length) * pat.count true + (pat.take (n % pat.length)).count true

/-! ## Interleaving and fragments (R161, R163) -/

/-- The root `c` of R161: `ceilsqrt(n)`, rounded up to even where `CFG.ilvRootEven` says so. -/
def ilvRoot (rootEven : Bool) (n : Nat) : Nat :=
  if rootEven && ceilSqrt n % 2 == 1 then ceilSqrt n + 1 else ceilSqrt n

/-- The loop of `InterleaveOrder`, with its number of rounds, `pos`, `stIdx` and `stInit` (R161). -/
def ilvLoop (n step stepV : Nat) : Nat → Nat → Nat → Nat → List Nat
  | 0, _, _, _ => []
  | rounds + 1, pos, stIdx, stInit =>
    pos ::
      (if pos + step < n then ilvLoop n step stepV rounds (pos + step) stIdx stInit
      else if stIdx + stepV < step then ilvLoop n step stepV rounds (stIdx + stepV) (stIdx + stepV) stInit
      else ilvLoop n step stepV rounds (stInit + 1) (stInit + 1) (stInit + 1))

/-- `InterleaveOrder(n)` (R161). With the root rounded up to even, the orders for `n = 5` and `n = 6`, and no others, name
the position 6, past the stream (R162 claims a permutation from `n = 7` on; log 23). -/
def interleaveOrder (rootEven : Bool) (n : Nat) : List Nat :=
  ilvLoop n (2 * ilvRoot rootEven n) (ilvRoot rootEven n / 2) n 0 0 0

/-- The interleaved stream: output bit `j` is `P[ord[j]]` (R161), and a free bit where `ord[j]` lies past the end of `P`,
which the spec does not speak of. DESIGN CHOICE, safe: log 23. -/
def interleave (rootEven : Bool) (p : List Bool) : List Bool :=
  (interleaveOrder rootEven p.length).map (fun i => p.getD i (Config.unstatedBit p i))

/-- `count` blocks: two guard bits of value 0 and then up to 48 bits (R163, R86). -/
def guardBlocks : Nat → List Bool → List Bool
  | 0, _ => []
  | count + 1, bits => List.replicate guardBits false ++ bits.take fragBits ++ guardBlocks count (bits.drop fragBits)

/-- The number of payload blocks of `n` bits, `ceil(n / 48)` (R163). -/
def payloadBlockCount (n : Nat) : Nat := ceilDiv n fragBits

/-- `PayloadBlocks(P)` (R163). -/
def payloadBlocks (c : Cfg) (p : List Bool) : List Bool :=
  guardBlocks (payloadBlockCount p.length) (interleave c.ilvRootEven p)

/-! ## Headers (R170 to R173) -/

/-- Bytes 0 to 3 of the raw header (R171, R81). -/
def headerFields (len : Nat) (cfg : FhssCfg) (replica : Nat) : List Byte :=
  [BitVec.ofNat 8 len,
   BitVec.ofNat 8 ((0 <<< 5) ||| (codingRateCode cfg.cr <<< 3) ||| (cfg.grid.code <<< 2) ||| (1 <<< 1)
     ||| ((cfg.bw >>> 3) &&& 1)),
   BitVec.ofNat 8 (((cfg.bw &&& 7) <<< 5) ||| (cfg.hopSeqId >>> 4)),
   BitVec.ofNat 8 (((cfg.hopSeqId &&& 0xF) <<< 4) ||| (replica <<< 2))]

/-- `HeaderRaw(len, cfg, replica)`: the four field bytes and their CRC-8 (R171). -/
def headerRaw (len : Nat) (cfg : FhssCfg) (replica : Nat) : List Byte :=
  headerFields len cfg replica ++ [crc crc8Poly crc8Init crc8XorOut (headerFields len cfg replica)]

/-- The coded header: the second of two passes over the same 40 bits without a reset between, and the state it leaves
(R170). -/
def headerCoded (c : Cfg) (raw : List Byte) : List Bool × Nat :=
  let bits := bitsOf raw hdrRawBits
  convEncodeBits c .two (convEnd c .two 0 bits) bits

/-- `HeaderBlock(raw)`: guard zeros, the 80 coded bits gathered through `CFG.hdrPerm`, the sync word; and the state
left (R172, R85). -/
def headerBlock (c : Cfg) (raw : List Byte) : List Bool × Nat :=
  let coded := headerCoded c raw
  let gathered := (List.range hdrPermLen).map (fun j => coded.1.getD (c.hdrPerm.getD j 0) false)
  (List.replicate c.hdrGuardBits false ++ gathered ++ c.syncWord, coded.2)

/-- The header blocks still to come, replica indices `left - 1` down to 0, and the encoder state after the last, `s`
where there is none (R145, R173). -/
def headerBlocks (c : Cfg) (cfg : FhssCfg) (len : Nat) : Nat → Nat → List Bool × Nat
  | 0, s => ([], s)
  | left + 1, _ =>
    let blk := headerBlock c (headerRaw len cfg left)
    let rest := headerBlocks c cfg len left blk.2
    (blk.1 ++ rest.1, rest.2)

/-! ## Counts and assembly (R145, R175 to R177) -/

/-- `eb`, the length of the punctured stream, from the payload length alone (R145, R159). -/
def frameExpandedBits (c : Cfg) (cfg : FhssCfg) (len : Nat) : Nat := expandedBits c cfg.cr (3 * fecInputBits len)

/-- `bitLength` from the payload length alone (R145, R176). -/
def frameBitLength (c : Cfg) (cfg : FhssCfg) (len : Nat) : Nat :=
  cfg.hdrCount * hdrBlockBits c + frameExpandedBits c cfg len
    + guardBits * payloadBlockCount (frameExpandedBits c cfg len)

/-- `hopCount` from the payload length alone (R145, R175). -/
def frameHopCount (c : Cfg) (cfg : FhssCfg) (len : Nat) : Nat :=
  payloadBlockCount (frameExpandedBits c cfg len) + cfg.hdrCount

/-- The punctured payload stream `P` (R145, R158). -/
def payloadStream (c : Cfg) (cfg : FhssCfg) (payload : List Byte) : List Bool :=
  puncture c cfg.cr (fecCoded c payload)

/-- The frame `F = HB ++ PB`, and the encoder state after the last header (R145, R80). -/
def encodeFrame (c : Cfg) (cfg : FhssCfg) (payload : List Byte) : List Bool × Nat :=
  let headers := headerBlocks c cfg payload.length cfg.hdrCount 0
  (headers.1 ++ payloadBlocks c (payloadStream c cfg payload), headers.2)

/-- What `FHSS.ENCODE` writes to `FRAME`: `Pack(F)` and zero bytes up to `FRAME_MAX_BYTES` (R177). -/
def frameImage (bits : List Bool) : List Byte :=
  pack bits ++ List.replicate (frameMaxBytes - (pack bits).length) 0x00

end Sys2Proof.Machine
end

