-- ==== Sys2Proof/Machine/Fhss.lean ====
section
/-! DEFINITION. The commands of the `FHSS` unit (42_fhss_frame.md). -/

namespace Sys2Proof.Machine

/-- What `ValidateConfig` returns (R142, R192), with the coding rate its code names. -/
structure HopParams where
  cr        : CodingRate
  nGrid     : Nat
  w         : Nat
  initState : Nat
  poly      : Nat
  seed      : Nat
  deriving DecidableEq, Repr

/-- The parameters that a hop-table entry and the caller's identifier select (R192). -/
def hopParams (cr : CodingRate) (e : HopEntry) (nGrid hopSeqId : Nat) : HopParams where
  cr        := cr
  nGrid     := nGrid
  w         := e.w
  initState := e.initState
  poly      := e.polys.getD (hopSeqId >>> e.w) 0
  seed      := hopSeqId &&& e.seedMask

/-- `ValidateConfig(bw, cr, hdrCount, grid, hopSeqId)`: the first failing check's kind, or the parameters (R142). -/
def validateConfig (c : Cfg) (bw cr hdrCount : Nat) (grid : Grid) (hopSeqId : Nat) : Except ResultKind HopParams :=
  match codingRateOfCode cr with
  | none => .error .invalidCodingRate
  | some rate =>
    match chanCount c bw with
    | none => .error .invalidBandwidth
    | some channels =>
      if hdrCount < hdrCountMin ∨ hdrCount > hdrCountMax then .error .invalidHdrCount
      else
        match hopEntry c (gridSize c channels grid) with
        | none => .error .invalidGrid
        | some e =>
          if hopSeqId > hopSeqIdMax ∨ hopSeqId ≥ e.idLimit then .error .invalidDataShaping
          else .ok (hopParams rate e (gridSize c channels grid) hopSeqId)

/-- The `HOP` unit at idle in its initial LFSR state: what `ApplyConfig` and `HOP.RESET` leave of the counters and the
register (R144, R208). -/
def hopIdle (h : HopUnit) : HopUnit :=
  { h with state := h.initState, bitsRemaining := 0, hopsRemaining := 0, hopIndex := 0 }

/-- `ApplyConfig` (R144). -/
def applyConfig (bw hdrCount : Nat) (grid : Grid) (hopSeqId : Nat) (v : HopParams) (s : State) : State :=
  { s with
    cfg := ⟨bw, v.cr, hdrCount, grid, hopSeqId⟩
    hop := hopIdle { s.hop with nGrid := v.nGrid, w := v.w, initState := v.initState, poly := v.poly, seed := v.seed }
    frame := { s.frame with valid := false } }

/-- `FHSS.BEGIN bw=, cr=, hdr=, grid=, id=` (R141). -/
def execFhssBegin (bw cr hdrCount : Nat) (grid : Grid) (hopSeqId : Nat) (s : State) :
    Host.Outcome State Fault Refusal :=
  match validateConfig s.CFG.toCfg bw cr hdrCount grid hopSeqId with
  | .error k => raise k s
  | .ok v => finish (applyConfig bw hdrCount grid hopSeqId v { s with begun := true })

/-- `FHSS.CONFIG bw=, cr=, hdr=, grid=, id=` (R143). -/
def execFhssConfig (bw cr hdrCount : Nat) (grid : Grid) (hopSeqId : Nat) (s : State) :
    Host.Outcome State Fault Refusal :=
  if s.begun then
    match validateConfig s.CFG.toCfg bw cr hdrCount grid hopSeqId with
    | .error k => raise k s
    | .ok v => finish (applyConfig bw hdrCount grid hopSeqId v s)
  else raise .wrongModem s

/-- The checks of `FHSS.ENCODE`, in order: the kind of the first that fails (R146). -/
def encodeCheck (len : Nat) (s : State) : Option ResultKind :=
  if s.begun = false then some .wrongModem
  else if s.hop.hopsRemaining ≠ 0 then some .commandFailed
  else if len > maxPayload then some .packetTooLong
  else if frameBitLength s.CFG.toCfg s.cfg len > 8 * frameMaxBytes then some .packetTooLong
  else none

/-- The state `FHSS.ENCODE` leaves for a payload (R145, R177, R178). -/
def encoded (payload : List Byte) (s : State) : State :=
  let frame := encodeFrame s.CFG.toCfg s.cfg payload
  let bl := frameBitLength s.CFG.toCfg s.cfg payload.length
  let hops := frameHopCount s.CFG.toCfg s.cfg payload.length
  { s with
    frameBuf := Memory.writeBytes s.frameBuf 0 (frameImage frame.1)
    frame := ⟨true, bl, hops⟩
    conv := ⟨some .two, frame.2⟩
    res := ⟨toWord bl, toWord hops, toWord (ceilDiv bl 8),
      toWord (frameExpandedBits s.CFG.toCfg s.cfg payload.length)⟩ }

/-- `FHSS.ENCODE len` (R145, R146). -/
def execFhssEncode (len : Nat) (s : State) : Host.Outcome State Fault Refusal :=
  match encodeCheck len s with
  | some k => raise k s
  | none =>
    match Memory.readBytes s.inBuf 0 len with
    | none => .fault .readOfUnwrittenInput
    | some payload => finish (encoded payload s)

end Sys2Proof.Machine
end

