-- ==== Sys2Proof/Machine/Hop.lean ====
section
/-! DEFINITION. The commands of the `HOP` unit (43_hop.md). -/

namespace Sys2Proof.Machine

/-- `HOP.START centre` (R194). -/
def execHopStart (centre : Word) (s : State) : Host.Outcome State Fault Refusal :=
  if s.begun = false then raise .wrongModem s
  else if s.hop.hopsRemaining ≠ 0 then raise .commandFailed s
  else if s.frame.valid = false then raise .commandFailed s
  else
    finish { s with
      hop := { s.hop with
        state := s.hop.initState
        hopIndex := 0
        hopsRemaining := s.frame.hopCount
        bitsRemaining := s.frame.bitLength
        hdrCount := s.cfg.hdrCount
        centre := centre } }

/-- The number of frame bits the next hop carries (R203). -/
def stepBits (s : State) : Nat := hopBits s.CFG.toCfg s.hop.hopIndex s.hop.hdrCount s.hop.bitsRemaining

/-- The frequency offset of the next hop when its value is `hopv` (R204). -/
def stepOffset (hopv : Nat) (s : State) : Int :=
  freqOffset s.CFG.toCfg hopv s.hop.nGrid s.cfg.grid s.hop.hopIndex s.hop.hdrCount

/-- The state `HOP.STEP` leaves for LFSR state `st` and hop value `hopv` (R196, R206). -/
def stepped (st hopv : Nat) (s : State) : State :=
  { s with
    res := ⟨toWord hopv, rawFrequency s.hop.centre (stepOffset hopv s), toWord (stepBits s), toWord s.hop.hopIndex⟩
    hop := { s.hop with
      state := st
      bitsRemaining := s.hop.bitsRemaining - stepBits s
      hopsRemaining := s.hop.hopsRemaining - 1
      hopIndex := s.hop.hopIndex + 1 }
    frame := { s.frame with valid := if s.hop.hopsRemaining - 1 = 0 then false else s.frame.valid } }

/-- `HOP.STEP` (R196). -/
def execHopStep (s : State) : Host.Outcome State Fault Refusal :=
  if s.begun = false then raise .wrongModem s
  else if s.hop.hopsRemaining = 0 then raise .commandFailed s
  else
    match hopNext s.hop.w s.hop.state s.hop.poly s.hop.seed s.hop.nGrid with
    | none => .fault .hopRetryExhausted
    | some (st, hopv) => finish (stepped st hopv s)

/-- `HOP.RESET` (R208). -/
def execHopReset (s : State) : Host.Outcome State Fault Refusal :=
  if s.begun = false then raise .wrongModem s
  else finish { s with hop := hopIdle s.hop, frame := { s.frame with valid := false } }

end Sys2Proof.Machine
end

