-- ==== Sys2Proof/Machine/Dispatch.lean ====
section
/-! DEFINITION. The meaning of every command, one arm a constructor. -/

namespace Sys2Proof.Machine

/-- Running one command (R72). -/
def exec (i : Instr) (s : State) : Host.Outcome State Fault Refusal :=
  match i with
  | .convBegin rate => Sys2Proof.Machine.execConvBegin rate s
  | .convEncode nbits => Sys2Proof.Machine.execConvEncode nbits s
  | .bchBegin n k poly => Sys2Proof.Machine.execBchBegin n k poly s
  | .bchEncode dataword => Sys2Proof.Machine.execBchEncode dataword s
  | .fhssBegin bw cr hdrCount grid hopSeqId => Sys2Proof.Machine.execFhssBegin bw cr hdrCount grid hopSeqId s
  | .fhssConfig bw cr hdrCount grid hopSeqId => Sys2Proof.Machine.execFhssConfig bw cr hdrCount grid hopSeqId s
  | .fhssEncode len => Sys2Proof.Machine.execFhssEncode len s
  | .hopStart centre => Sys2Proof.Machine.execHopStart centre s
  | .hopStep => Sys2Proof.Machine.execHopStep s
  | .hopReset => Sys2Proof.Machine.execHopReset s

end Sys2Proof.Machine
end

