-- ==== Sys2Proof/Machine/Flags.lean ====
section
/-! DEFINITION. `STATUS`: the code of the result kind, and the flags as functions of the state they copy (R23, R221). -/

namespace Sys2Proof.Machine

/-- The codes of the result kinds (R221). -/
def ResultKind.code : ResultKind → BitVec 8
  | .ok => 0x00
  | .commandInvalid => 0x01
  | .commandFailed => 0x02
  | .wrongModem => 0x03
  | .packetTooLong => 0x04
  | .invalidDataShaping => 0x05
  | .notInitialised => 0x06
  | .invalidRate => 0x10
  | .invalidLength => 0x11
  | .invalidBch => 0x12
  | .invalidCodingRate => 0x13
  | .invalidBandwidth => 0x14
  | .invalidHdrCount => 0x15
  | .invalidGrid => 0x16

/-- `BEGUN`, bit 8: a copy of `fhss.begun` (R23). -/
def State.begunFlag (s : State) : Bool := s.begun

/-- `FRAME_VALID`, bit 9: a copy of `frame.valid` (R23). -/
def State.frameValidFlag (s : State) : Bool := s.frame.valid

/-- `HOP_ACTIVE`, bit 10: 1 exactly when `hop.hopsRemaining != 0` (R23). -/
def State.hopActiveFlag (s : State) : Bool := s.hop.hopsRemaining != 0

/-- `CONV_INIT`, bit 11: 1 exactly when `conv.rate != none` (R23). -/
def State.convInitFlag (s : State) : Bool := s.conv.rate.isSome

/-- `BCH_INIT`, bit 12: a copy of `bch.valid` (R23). -/
def State.bchInitFlag (s : State) : Bool := s.bch.valid

/-- `STATUS` (R23): bits 31:13 zero, the five flags at 12:8, the code at 7:0. -/
def State.status (s : State) : Word :=
  0#19 ++ BitVec.ofBool s.bchInitFlag ++ BitVec.ofBool s.convInitFlag ++ BitVec.ofBool s.hopActiveFlag
    ++ BitVec.ofBool s.frameValidFlag ++ BitVec.ofBool s.begunFlag ++ s.kind.code

end Sys2Proof.Machine
end

