-- ==== Sys2Proof/Machine/Port.lean ====
section
/-! DEFINITION. The host's accesses between commands (R52), and the reset event (R250). -/

namespace Sys2Proof.Machine

/-- The byte a host read of an existing offset finds, none where the spec leaves it unspecified: a byte never written,
and any byte of `FRAME` while `frame.valid = 0` (R37, R38). -/
def visibleByte (s : State) (sp : Space) (a : Nat) : Option Byte :=
  match sp with
  | .inBuf => s.byteAt .inBuf a
  | .outBuf => s.byteAt .outBuf a
  | .frameBuf => if s.frame.valid then s.byteAt .frameBuf a else none

/-- The value of a read reaches the host. -/
def noteSeen (loc : Loc) (v : Word) (s : State) : State := { s with seen := (loc, v) :: s.seen }

/-- A host read of a byte of a buffer: its value, or a free byte drawn afresh where it is unspecified (U9). -/
def readByte (sp : Space) (a : Nat) (s : State) : State :=
  match visibleByte s sp a with
  | some b => noteSeen (.byte sp a) (b.setWidth 32) s
  | none => noteSeen (.byte sp a) ((Config.freeByte s.draws).setWidth 32) { s with draws := s.draws + 1 }

/-- A host read (R52). What does not exist has no move. -/
def hostRead (loc : Loc) (s : State) : Host.Outcome State Fault Refusal :=
  match loc with
  | .byte sp a => if a < sp.size then .next (readByte sp a s) else .refused .noHostMove
  | .res i =>
    match s.res.read i with
    | some v => .next (noteSeen (.res i) v s)
    | none => .refused .noHostMove
  | .status => .next (noteSeen .status s.status s)

/-- A host write (R52): only a byte of `IN` can be written. -/
def hostWrite (loc : Loc) (b : Byte) (s : State) : Host.Outcome State Fault Refusal :=
  match loc with
  | .byte .inBuf a =>
    if a < Space.inBuf.size then .next { s with inBuf := Memory.writeBytes s.inBuf a [b] } else .refused .noHostMove
  | .byte .outBuf _ => .refused .noHostMove
  | .byte .frameBuf _ => .refused .noHostMove
  | .res _ => .refused .noHostMove
  | .status => .refused .noHostMove

/-- The reset event (R250): every piece of the block's state to its reset value. `CFG`, and what is the host's (its
pending events, what it has seen) or the model's (the draw counter), stay (log 12). -/
def hardReset (s : State) : State :=
  { State.resetWith s.CFG with pending := s.pending, seen := s.seen, draws := s.draws }

end Sys2Proof.Machine
end

