-- ==== Sys2Proof/Machine/Step.lean ====
section
/-! DEFINITION. One step: the host's next event, taken whole (R57). -/

namespace Sys2Proof.Machine

/-- A command word handed over (R70): the command it is, or `CommandInvalid` (R74, R226). -/
def runWord (w : CommandWord) (s : State) : Host.Outcome State Fault Refusal :=
  match decode w with
  | .ok i => exec i s
  | .error _ => raise .commandInvalid s

/-- One event, on the state that no longer holds it as pending. -/
def takeEvent (e : Event) (s : State) : Host.Outcome State Fault Refusal :=
  match e with
  | .command w => runWord w s
  | .read loc => hostRead loc s
  | .write loc b => hostWrite loc b s
  | .reset => .next (hardReset s)

/-- One step: the next pending event; with none, the block waits for the host (R253). -/
def step (s : State) : Host.Outcome State Fault Refusal :=
  match s.pending with
  | [] => .refused .awaitingHost
  | e :: rest => takeEvent e { s with pending := rest }

/-- The state in which the very next event is the host handing over this word (log 1). -/
def State.withFetchWord (s : State) (nbits w : Nat) : State :=
  { s with pending := .command (tableWord nbits w) :: s.pending }

end Sys2Proof.Machine
end

