-- ==== Sys2Proof/Safety.lean ====
section
/-! DEFINITION. What the statements speak in: a stop, and the invariants of R31 and R207. -/

namespace Sys2Proof.Machine

/-- What a command leaves that ends with the error kind `k`: the kind, the advance of `pc`, and nothing else (R225). -/
def refusedWith (k : ResultKind) (s : State) : Host.Outcome State Fault Refusal :=
  .next { s with kind := k, pc := s.pc + 1 }

/-- Bit `i` of a buffer, most significant bit first (R12, R54), none where its byte holds no value. -/
def bufferBit (s : State) (sp : Space) (i : Nat) : Option Bool :=
  (s.byteAt sp (i / 8)).map (fun b => b.getMsbD (i % 8))

/-- The event hands over a command word. -/
def Event.isCommand : Event → Bool
  | .command _ => true
  | .read _ => false
  | .write _ _ => false
  | .reset => false

/-- How many commands are still to come. -/
def commandsPending (s : State) : Nat := s.pending.countP Event.isCommand

/-- The hop values of the next `n` hops from LFSR state `st`, without the counters (R202). -/
def hopSequence (w poly seed nGrid : Nat) : Nat → Nat → List Nat
  | 0, _ => []
  | n + 1, st =>
    match hopNext w st poly seed nGrid with
    | none => []
    | some (st', hopv) => hopv :: hopSequence w poly seed nGrid n st'

/-- `g(alpha^z)` for a polynomial `g` over GF(2), in GF(2)[x]/(poly): `x^(z*i)` summed over the exponents `i` of `g`, and
reduced (R14, R121, R123). -/
def valueAtPower (poly g z : Nat) : Nat :=
  pmod (((List.range (deg g + 1)).filter g.testBit).foldl (fun v i => v ^^^ 2 ^ (z * i)) 0) poly

/-- A buffer holds the same bytes in both states, read one by one. -/
def sameBytes (sp : Space) (s t : State) : Prop := ∀ a, t.byteAt sp a = s.byteAt sp a

/-- The host has written bytes `0 .. n-1` of `IN` since reset: host duty (2) of R258. -/
def inputWritten (n : Nat) (s : State) : Prop := ∀ a, a < n → (s.byteAt .inBuf a).isSome = true

/-- The bytes `0 .. n-1` of `IN`, as written. -/
def inputIs (bytes : List Byte) (s : State) : Prop := ∀ a, (h : a < bytes.length) → s.byteAt .inBuf a = some bytes[a]

/-- The three buffers are in canonical form and hold no byte outside their size (R29, R51). -/
def BuffersOk (s : State) : Prop :=
  ∀ sp, Memory.wf (s.buffer sp) = true ∧ Memory.within sp.size (s.buffer sp) = true

/-- R31 (a). -/
def ConvOk (s : State) : Prop :=
  ∀ r, s.conv.rate = some r → s.conv.state < 2 ^ convStateBits s.CFG.toCfg r

/-- R31 (b). -/
structure BchCodeOk (b : BchUnit) : Prop where
  length_eq : b.n = 2 ^ b.m - 1
  one_le_k  : 1 ≤ b.k
  k_lt_n    : b.k < b.n
  n_le      : b.n ≤ 31
  gen_deg   : deg b.gen = b.n - b.k
  gen_zero  : b.gen.testBit 0 = true

/-- R31 (b): once `bch.valid = 1`, the unit holds a code. -/
def BchOk (s : State) : Prop := s.bch.valid = true → BchCodeOk s.bch

/-- The `HOP` parameters are those of an entry of `CFG.hopTable`, and the LFSR register is a nonzero `w`-bit value
(R31 (c), R192, R200 (b)). -/
structure HopParamsOk (c : Cfg) (h : HopUnit) (e : HopEntry) : Prop where
  entry    : hopEntry c h.nGrid = some e
  width    : h.w = e.w
  initial  : h.initState = e.initState
  polyIn   : h.poly ∈ e.polys
  seedFits : h.seed < 2 ^ h.w
  gridFits : h.nGrid ≤ 2 ^ h.w - 1
  nonzero  : 0 < h.state
  fits     : h.state < 2 ^ h.w

/-- The bits of the payload blocks of `eb` expanded bits (R163). -/
def payloadBits (eb : Nat) : Nat := eb + guardBits * payloadBlockCount eb

/-- The frame bits not yet carried when hop `hopIndex` is next: the header blocks left, and the payload blocks left
(R203, R207 (b)). -/
def bitsLeft (c : Cfg) (hdrCount eb hopIndex : Nat) : Nat :=
  (hdrCount - hopIndex) * hdrBlockBits c + (payloadBits eb - (guardBits + fragBits) * (hopIndex - hdrCount))

/-- Every pattern starts with a kept bit: the condition under which R159 grants `expandedBits >= 1`. -/
def patternsStartKept (c : Cfg) : Prop :=
  c.punct5_6.head? = some true ∧ c.punct2_3.head? = some true ∧ c.punct1_2.head? = some true

/-- A valid frame of `eb` expanded bits, and the counters while it is in flight (R31 (f), (g), R175, R176, R207). -/
structure FrameOk (s : State) (eb : Nat) : Prop where
  hops    : s.frame.hopCount = payloadBlockCount eb + s.cfg.hdrCount
  length  : s.frame.bitLength = s.cfg.hdrCount * hdrBlockBits s.CFG.toCfg + payloadBits eb
  fits    : s.frame.bitLength ≤ 8 * frameMaxBytes
  payload : s.cfg.hdrCount + 1 ≤ s.frame.hopCount
  copied  : s.hop.hopsRemaining ≠ 0 → s.hop.hdrCount = s.cfg.hdrCount
  counted : s.hop.hopsRemaining ≠ 0 → s.hop.hopIndex + s.hop.hopsRemaining = s.frame.hopCount
  left    : s.hop.hopsRemaining ≠ 0 →
    s.hop.bitsRemaining = bitsLeft s.CFG.toCfg s.cfg.hdrCount eb s.hop.hopIndex

/-- R31 (c) to (g) and R207: the configuration, the frame and the transmission agree with one another. -/
structure TransmissionOk (s : State) : Prop where
  hdrCountOk : s.begun = true → 1 ≤ s.cfg.hdrCount ∧ s.cfg.hdrCount ≤ 4
  hopSeqIdOk : s.begun = true → s.cfg.hopSeqId ≤ 511
  hopOk      : s.begun = true → ∃ e, HopParamsOk s.CFG.toCfg s.hop e
  notBegun   : s.begun = false → s.frame.valid = false ∧ s.hop.hopsRemaining = 0
  flightHas  : s.hop.hopsRemaining ≠ 0 → s.frame.valid = true
  frameOk    : s.frame.valid = true → ∃ eb, FrameOk s eb
  idleZero   : s.hop.hopsRemaining = 0 → s.hop.bitsRemaining = 0

/-- The invariants of R31, together. -/
structure Inv (s : State) : Prop where
  buffers      : BuffersOk s
  conv         : ConvOk s
  bch          : BchOk s
  transmission : TransmissionOk s

/-- A run of `n` steps meets no fault: it ends in a state, or waits for the host, or meets an event with no move. -/
def SafeRun (n : Nat) (s : State) : Prop := ∀ f, Sys2Proof.core.run n s ≠ .fault f

end Sys2Proof.Machine
end

