-- ==== Sys2Proof/Certificates/Slice0/Obligations.lean ====
section
/-! DEFINITION. The statements for the provers, each a rule of the spec. -/

open Sys2Proof Sys2Proof.Machine

/-! ## Encoding -/

/-- Decoding the word of a command that fits its fields gives the command back (R70, R71, R72, R76). -/
def Obligations.DecodeOfEncode : Prop := ∀ i : Instr, i.wf = true → decode (encode i) = .ok i

/-- A word that decodes is the word of the command it decodes to, and that command fits its fields: no accepted word
has a bit the command does not carry (R70, R71, R72, R76). -/
def Obligations.EncodeOfDecode : Prop :=
  ∀ (w : CommandWord) (i : Instr), decode w = .ok i → i.wf = true ∧ encode i = w

/-- R73: a word is a command exactly when it matches the command's row under its mask, and it matches at most one. -/
def Obligations.DecoderFollowsMaskTable : Prop :=
  ∀ w : CommandWord,
    (∀ row ∈ commandTable,
      (∃ i, decode w = .ok i ∧ i.mnemonic = row.mnemonic) ↔ w &&& row.mask = row.pattern) ∧
    (∀ row ∈ commandTable, ∀ row' ∈ commandTable,
      w &&& row.mask = row.pattern → w &&& row'.mask = row'.pattern → row = row')

/-- The words the spec prints (R76, and the programs of 95_test_vectors.md) decode to the commands it prints. -/
def Obligations.PrintedWordsDecode : Prop :=
  decode 0x1003000000000000 = .ok (.convBegin 3) ∧
  decode 0x1100000000000028 = .ok (.convEncode 40) ∧
  decode 0x201F150000000025 = .ok (.bchBegin 31 21 0x25) ∧
  decode 0x2100000000012345 = .ok (.bchEncode 0x12345) ∧
  decode 0x3000030100010000 = .ok (.fhssBegin 0 3 1 .narrow 0) ∧
  decode 0x310601030000013A = .ok (.fhssConfig 6 1 3 .wide 0x13A) ∧
  decode 0x3200000000000098 = .ok (.fhssEncode 152) ∧
  decode 0x4000000036400000 = .ok (.hopStart 0x36400000) ∧
  decode 0x4100000000000000 = .ok .hopStep ∧
  decode 0x4200000000000000 = .ok .hopReset ∧
  decode 0x1003000000000001 = .error .unusedFieldNotZero ∧
  decode 0x5000000000000000 = .error .unknownOpcode

/-! ## The step, and the end of a command -/

/-- When the next event hands over a word that decodes to a command, the step is that command run on the state without
the event; and the word the host's fetch helper places is the one that runs (R57, R70). -/
def Obligations.StepRunsDecodedCommand : Prop :=
  (∀ (s : State) (w : CommandWord) (rest : List Event) (i : Instr),
    s.pending = .command w :: rest → decode w = .ok i → step s = exec i { s with pending := rest }) ∧
  (∀ (s : State) (w : Nat) (i : Instr), decodeTableWord 64 w = some i → step (s.withFetchWord 64 w) = exec i s)

/-- R74, R226: a word that matches no row of R73 sets `STATUS.code` to `CommandInvalid` (0x01), advances `pc`, and
changes nothing else; the block is then ready for the next event. -/
def Obligations.IllegalWordIsRefused : Prop :=
  ResultKind.commandInvalid.code = 0x01 ∧
  ∀ (s : State) (w : CommandWord) (rest : List Event),
    (∀ row ∈ commandTable, w &&& row.mask ≠ row.pattern) → s.pending = .command w :: rest →
      step s = .next { s with pending := rest, kind := .commandInvalid, pc := s.pc + 1 }

/-- R225: a command that ends with an error kind changes `STATUS.code` and `pc` and nothing else: no `RES` register, no
buffer byte, no unit state, and so no flag of `STATUS`. -/
def Obligations.ErrorKindChangesNothingElse : Prop :=
  ∀ (i : Instr) (s t : State), exec i s = .next t → t.kind ≠ .ok →
    t = { s with kind := t.kind, pc := s.pc + 1 } ∧
    t.status.extractLsb' 8 24 = s.status.extractLsb' 8 24

/-- Every command advances `pc` by one and does nothing else to it; so `pc` stays the index of the next command of the
host's list: what has been executed plus what is pending does not change until a reset (R22). -/
def Obligations.PcCountsCommands : Prop :=
  (∀ (i : Instr) (s t : State), exec i s = .next t → t.pc = s.pc + 1) ∧
  (∀ s t : State, step s = .next t → s.pending.head? ≠ some .reset →
    t.pc + commandsPending t = s.pc + commandsPending s)

/-- `STATUS` (R23): `code` at 7:0, the five flags at 12:8 as functions of the state they copy, 0 above; and the codes of
the result kinds (R221). -/
def Obligations.StatusLayout : Prop :=
  (∀ s : State,
    s.status.extractLsb' 0 8 = s.kind.code ∧
    s.status.getLsbD 8 = s.begun ∧
    s.status.getLsbD 9 = s.frame.valid ∧
    (s.status.getLsbD 10 = true ↔ s.hop.hopsRemaining ≠ 0) ∧
    (s.status.getLsbD 11 = true ↔ s.conv.rate ≠ none) ∧
    s.status.getLsbD 12 = s.bch.valid ∧
    ∀ i, 13 ≤ i → s.status.getLsbD i = false) ∧
  ResultKind.ok.code = 0x00 ∧ ResultKind.commandInvalid.code = 0x01 ∧ ResultKind.commandFailed.code = 0x02 ∧
  ResultKind.wrongModem.code = 0x03 ∧ ResultKind.packetTooLong.code = 0x04 ∧
  ResultKind.invalidDataShaping.code = 0x05 ∧ ResultKind.notInitialised.code = 0x06 ∧
  ResultKind.invalidRate.code = 0x10 ∧ ResultKind.invalidLength.code = 0x11 ∧ ResultKind.invalidBch.code = 0x12 ∧
  ResultKind.invalidCodingRate.code = 0x13 ∧ ResultKind.invalidBandwidth.code = 0x14 ∧
  ResultKind.invalidHdrCount.code = 0x15 ∧ ResultKind.invalidGrid.code = 0x16

/-! ## Reset and invariants -/

/-- The reset event puts every register at the value of R250's table and leaves no byte of a buffer with a value,
whatever the state before it. (That `CFG`, the host's pending events, what it has seen and the draw counter stay is the
model's: log 12.) -/
def Obligations.ResetEventResets : Prop :=
  ∀ (s : State) (rest : List Event), s.pending = .reset :: rest → ∃ t, step s = .next t ∧
    t.res = ⟨0, 0, 0, 0⟩ ∧ t.status = 0 ∧ t.kind = .ok ∧ t.pc = 0 ∧
    t.conv.rate = none ∧ t.conv.state = 0 ∧
    t.bch.valid = false ∧ t.bch.n = 0 ∧ t.bch.k = 0 ∧ t.bch.m = 0 ∧ t.bch.poly = 0 ∧ t.bch.gen = 0 ∧
    t.begun = false ∧ t.cfg.bw = 0 ∧ codingRateCode t.cfg.cr = 0 ∧ t.cfg.hdrCount = 0 ∧ t.cfg.grid.code = 0 ∧
    t.cfg.hopSeqId = 0 ∧ t.frame = ⟨false, 0, 0⟩ ∧ t.hop = ⟨0, 0, 0, 0, 0, 0, 0, 0, 0, 0, 0⟩ ∧
    (∀ sp a, t.byteAt sp a = none) ∧
    t.CFG = s.CFG ∧ t.pending = rest ∧ t.seen = s.seen ∧ t.draws = s.draws

/-- The invariants of R31 hold in the reset state, under every `CFG` the block runs under (R251). Starting the block
gives that state when the `CFG` meets R9 and R193 and lets every frame have a payload block, and is refused otherwise
(R233 (b)). That the second is a condition on `CFG` is the model's reading of R31 (f): log 13. -/
def Obligations.ResetHoldsInvariants : Prop :=
  (∀ c : GoodCfg, Inv (State.resetWith c)) ∧ Inv State.reset ∧
  (∀ (c : Cfg) (h : cfgWf c = true) (hk : cfgKeepsPayload c = true),
    State.start c = .next (State.resetWith { c with isWf := h, keepsPayload := hk })) ∧
  (∀ c : Cfg, cfgWf c ≠ true ∨ cfgKeepsPayload c ≠ true → State.start c = .fault .malformedCfg)

/-- Every step keeps the three buffers in canonical form and inside their sizes: no command writes out of range
(R29, R51). -/
def Obligations.BuffersStayCanonical : Prop := ∀ s t : State, BuffersOk s → step s = .next t → BuffersOk t

/-- Every step keeps the encoder's state register inside its width (R31 (a)). -/
def Obligations.ConvStateStaysInWidth : Prop := ∀ s t : State, ConvOk s → step s = .next t → ConvOk t

/-- Every step keeps the `BCH` unit on a code (R31 (b)). The test of the field polynomial is R121's with the reading of
log 20. -/
def Obligations.BchCodeStaysLegal : Prop := ∀ s t : State, BchOk s → step s = .next t → BchOk t

/-- Every step keeps configuration, frame and transmission consistent (R31 (c) to (g), R207): the generator's parameters
come from `CFG.hopTable` and its register is nonzero, and the counters of a transmission in flight account for every hop
and every bit of the frame. The payload hop of (f) rests on the condition on `CFG` that log 13 reads from (f). -/
def Obligations.TransmissionStaysConsistent : Prop :=
  ∀ s t : State, TransmissionOk s → step s = .next t → TransmissionOk t

/-- The one fault a run can meet is a command's read of an `IN` byte the host never wrote (R233); a host that has written
all of `IN` meets none. The retry loop of `HOP.STEP` always ends (R199). -/
def Obligations.OnlyUnwrittenInputFaults : Prop :=
  (∀ (s : State) (f : Fault), TransmissionOk s → step s = .fault f →
    f = .readOfUnwrittenInput ∧ ¬ inputWritten 256 s) ∧
  (∀ s : State, TransmissionOk s → ∀ i, (∃ t, exec i s = .next t) ∨ exec i s = .fault .readOfUnwrittenInput)

/-! ## What commands change, and what they leave -/

/-- The bytes a command stores to (R62), the frame of all ten: only `CONV.ENCODE` writes `OUT`, at offsets below
`ceil(r*nbits/8)`; only `FHSS.ENCODE` writes `FRAME`; none writes `IN`. -/
def Obligations.CommandsTouchTheirBytes : Prop :=
  ∀ (i : Instr) (s t : State), exec i s = .next t →
    sameBytes .inBuf s t ∧
    (i.mnemonic ≠ "CONV.ENCODE" → sameBytes .outBuf s t) ∧
    (i.mnemonic ≠ "FHSS.ENCODE" → sameBytes .frameBuf s t) ∧
    (∀ nbits r a, i = .convEncode nbits → s.conv.rate = some r → ceilDiv (convDenominator r * nbits) 8 ≤ a →
      t.byteAt .outBuf a = s.byteAt .outBuf a)

/-- The result registers a command leaves unchanged (R21), the frame of all ten. -/
def Obligations.CommandsWriteTheirResults : Prop :=
  ∀ (i : Instr) (s t : State), exec i s = .next t →
    (i.mnemonic ∉ ["CONV.ENCODE", "BCH.BEGIN", "BCH.ENCODE", "FHSS.ENCODE", "HOP.STEP"] → t.res.r0 = s.res.r0) ∧
    (i.mnemonic ∉ ["CONV.ENCODE", "BCH.BEGIN", "FHSS.ENCODE", "HOP.STEP"] → t.res.r1 = s.res.r1) ∧
    (i.mnemonic ∉ ["FHSS.ENCODE", "HOP.STEP"] → t.res.r2 = s.res.r2 ∧ t.res.r3 = s.res.r3)

/-- The unit state a command leaves unchanged (R24 to R28), the frame of all ten; the model's own fields never change
under a command. -/
def Obligations.CommandsWriteTheirUnits : Prop :=
  ∀ (i : Instr) (s t : State), exec i s = .next t →
    (i.mnemonic ∉ ["CONV.BEGIN", "CONV.ENCODE", "FHSS.ENCODE"] → t.conv = s.conv) ∧
    (i.mnemonic ∉ ["CONV.BEGIN", "FHSS.ENCODE"] → t.conv.rate = s.conv.rate) ∧
    (i.mnemonic ∉ ["BCH.BEGIN"] → t.bch = s.bch) ∧
    (i.mnemonic ∉ ["FHSS.BEGIN"] → t.begun = s.begun) ∧
    (i.mnemonic ∉ ["FHSS.BEGIN", "FHSS.CONFIG"] → t.cfg = s.cfg) ∧
    (i.mnemonic ∉ ["FHSS.BEGIN", "FHSS.CONFIG", "FHSS.ENCODE", "HOP.STEP", "HOP.RESET"] → t.frame = s.frame) ∧
    (i.mnemonic ∉ ["FHSS.ENCODE"] →
      t.frame.bitLength = s.frame.bitLength ∧ t.frame.hopCount = s.frame.hopCount) ∧
    (i.mnemonic ∉ ["FHSS.BEGIN", "FHSS.CONFIG", "HOP.START", "HOP.STEP", "HOP.RESET"] → t.hop = s.hop) ∧
    (i.mnemonic ∉ ["FHSS.BEGIN", "FHSS.CONFIG"] →
      t.hop.nGrid = s.hop.nGrid ∧ t.hop.w = s.hop.w ∧ t.hop.initState = s.hop.initState ∧
      t.hop.poly = s.hop.poly ∧ t.hop.seed = s.hop.seed) ∧
    (i.mnemonic ∉ ["HOP.START"] → t.hop.hdrCount = s.hop.hdrCount ∧ t.hop.centre = s.hop.centre) ∧
    t.CFG = s.CFG ∧ t.pending = s.pending ∧ t.seen = s.seen ∧ t.draws = s.draws

/-- R34: `bch.*` changes only under `BCH.BEGIN` (and reset): no other command, illegal word or host access reaches it;
and no command of another unit uses it: whatever the `BCH` unit holds, such a command does the same. -/
def Obligations.BchUnitStandsApart : Prop :=
  (∀ s t : State, step s = .next t → t.bch ≠ s.bch →
    s.pending.head? = some .reset ∨
    ∃ w n k poly, s.pending.head? = some (.command w) ∧ decode w = .ok (.bchBegin n k poly)) ∧
  (∀ (i : Instr) (s : State) (b : BchUnit), i.mnemonic ∉ ["BCH.BEGIN", "BCH.ENCODE"] →
    (∀ t, exec i s = .next t → exec i { s with bch := b } = .next { t with bch := b }) ∧
    (∀ f, exec i s = .fault f → exec i { s with bch := b } = .fault f))

/-- Reset is the only event that clears `fhss.begun`, `bch.valid` or `conv.rate` (R252). -/
def Obligations.OnlyResetUnbegins : Prop :=
  ∀ s t : State, step s = .next t → s.pending.head? ≠ some .reset →
    (s.begun = true → t.begun = true) ∧ (s.bch.valid = true → t.bch.valid = true) ∧
    (s.conv.rate ≠ none → t.conv.rate ≠ none)

/-- The frame's lifetime (R38): `frame.valid` becomes 1 at a successful `FHSS.ENCODE`, and 0 at the `HOP.STEP` that
produces the last hop, at `HOP.RESET`, and at a successful `FHSS.CONFIG` or `FHSS.BEGIN`; nothing else changes it. -/
def Obligations.FrameLifetimeEvents : Prop :=
  ∀ (i : Instr) (s t : State), exec i s = .next t →
    (t.kind ≠ .ok → t.frame.valid = s.frame.valid) ∧
    (t.kind = .ok → i.mnemonic = "FHSS.ENCODE" → t.frame.valid = true) ∧
    (t.kind = .ok → i.mnemonic ∈ ["FHSS.BEGIN", "FHSS.CONFIG", "HOP.RESET"] → t.frame.valid = false) ∧
    (t.kind = .ok → i = .hopStep →
      t.frame.valid = if t.hop.hopsRemaining = 0 then false else s.frame.valid) ∧
    (i.mnemonic ∉ ["FHSS.ENCODE", "FHSS.BEGIN", "FHSS.CONFIG", "HOP.RESET", "HOP.STEP"] →
      t.frame.valid = s.frame.valid)

/-- The kind reported is that of the first failing check, decoding first and then command by command, in the order of
R228's table. What `BCH.BEGIN` takes for a primitive polynomial is R121's test with the reading of log 20, which refuses
`poly = 0x4`. -/
def Obligations.FirstFailingCheckDecides : Prop :=
  (∀ (s : State) (w : CommandWord) (rest : List Event) (e : DecodeError),
    s.pending = .command w :: rest → decode w = .error e →
      step s = refusedWith .commandInvalid { s with pending := rest }) ∧
  (∀ (s : State) (rate : Nat), rate ≠ 2 → rate ≠ 3 → exec (.convBegin rate) s = refusedWith .invalidRate s) ∧
  (∀ (s : State) (nbits : Nat),
    (s.conv.rate = none → exec (.convEncode nbits) s = refusedWith .notInitialised s) ∧
    (s.conv.rate ≠ none → nbits > 2048 → exec (.convEncode nbits) s = refusedWith .invalidLength s)) ∧
  (∀ (s : State) (n k : Nat) (poly : Word),
    (poly.toNat < 4 ∨ n ≠ 2 ^ deg poly.toNat - 1 ∨ n > 31 ∨ k < 1 ∨ k ≥ n ∨
      primitive (deg poly.toNat) poly.toNat n = false ∨ findGenerator (deg poly.toNat) poly.toNat n k = none) →
    exec (.bchBegin n k poly) s = refusedWith .invalidBch s) ∧
  (∀ (s : State) (d : Word), s.bch.valid = false → exec (.bchEncode d) s = refusedWith .notInitialised s) ∧
  (∀ (s : State) (bw cr hdrCount : Nat) (grid : Grid) (id : Nat),
    (cr > 3 → exec (.fhssBegin bw cr hdrCount grid id) s = refusedWith .invalidCodingRate s) ∧
    (cr ≤ 3 → chanCount s.CFG.toCfg bw = none →
      exec (.fhssBegin bw cr hdrCount grid id) s = refusedWith .invalidBandwidth s) ∧
    (∀ channels, cr ≤ 3 → chanCount s.CFG.toCfg bw = some channels →
      (hdrCount < 1 ∨ hdrCount > 4 → exec (.fhssBegin bw cr hdrCount grid id) s = refusedWith .invalidHdrCount s) ∧
      (1 ≤ hdrCount → hdrCount ≤ 4 → hopEntry s.CFG.toCfg (channels / gridChannels s.CFG.toCfg grid) = none →
        exec (.fhssBegin bw cr hdrCount grid id) s = refusedWith .invalidGrid s) ∧
      (∀ e, 1 ≤ hdrCount → hdrCount ≤ 4 →
        hopEntry s.CFG.toCfg (channels / gridChannels s.CFG.toCfg grid) = some e → id > 511 ∨ id ≥ e.idLimit →
        exec (.fhssBegin bw cr hdrCount grid id) s = refusedWith .invalidDataShaping s)) ∧
    (s.begun = false → exec (.fhssConfig bw cr hdrCount grid id) s = refusedWith .wrongModem s) ∧
    (s.begun = true → ∀ k, k ≠ .ok → exec (.fhssBegin bw cr hdrCount grid id) s = refusedWith k s →
      exec (.fhssConfig bw cr hdrCount grid id) s = refusedWith k s)) ∧
  (∀ (s : State) (len : Nat),
    (s.begun = false → exec (.fhssEncode len) s = refusedWith .wrongModem s) ∧
    (s.begun = true → s.hop.hopsRemaining ≠ 0 → exec (.fhssEncode len) s = refusedWith .commandFailed s) ∧
    (s.begun = true → s.hop.hopsRemaining = 0 → len > 255 →
      exec (.fhssEncode len) s = refusedWith .packetTooLong s) ∧
    (s.begun = true → s.hop.hopsRemaining = 0 → len ≤ 255 → frameBitLength s.CFG.toCfg s.cfg len > 2040 →
      exec (.fhssEncode len) s = refusedWith .packetTooLong s)) ∧
  (∀ (s : State) (centre : Word),
    (s.begun = false → exec (.hopStart centre) s = refusedWith .wrongModem s) ∧
    (s.begun = true → s.hop.hopsRemaining ≠ 0 → exec (.hopStart centre) s = refusedWith .commandFailed s) ∧
    (s.begun = true → s.hop.hopsRemaining = 0 → s.frame.valid = false →
      exec (.hopStart centre) s = refusedWith .commandFailed s)) ∧
  (∀ s : State,
    (s.begun = false → exec .hopStep s = refusedWith .wrongModem s) ∧
    (s.begun = true → s.hop.hopsRemaining = 0 → exec .hopStep s = refusedWith .commandFailed s) ∧
    (s.begun = false → exec .hopReset s = refusedWith .wrongModem s))

/-! ## The host's accesses -/

/-- R52: between commands the host may write any byte of `IN`, which changes that byte alone, and read any byte of the
buffers, any `RES[i]` and `STATUS`, which changes no state of the block; it has no other access. A pending access is what
the next step does. (That a read's value is noted in `seen`, and that accesses wait in `pending`, is the model's: logs 10
and 1.) -/
def Obligations.HostAccesses : Prop :=
  ∀ s : State,
    (∀ a b, a < 256 → ∃ t, hostWrite (.byte .inBuf a) b s = .next t ∧ t = { s with inBuf := t.inBuf } ∧
      t.byteAt .inBuf a = some b ∧ ∀ x, x ≠ a → t.byteAt .inBuf x = s.byteAt .inBuf x) ∧
    (∀ loc b, (∀ a, a < 256 → loc ≠ .byte .inBuf a) → hostWrite loc b s = .refused .noHostMove) ∧
    (∀ sp a, sp.size ≤ a → hostRead (.byte sp a) s = .refused .noHostMove) ∧
    (∀ sp a b, a < sp.size → (sp = .frameBuf → s.frame.valid = true) → s.byteAt sp a = some b →
      hostRead (.byte sp a) s = .next { s with seen := (.byte sp a, b.setWidth 32) :: s.seen }) ∧
    (hostRead (.res 0) s = .next { s with seen := (.res 0, s.res.r0) :: s.seen }) ∧
    (hostRead (.res 1) s = .next { s with seen := (.res 1, s.res.r1) :: s.seen }) ∧
    (hostRead (.res 2) s = .next { s with seen := (.res 2, s.res.r2) :: s.seen }) ∧
    (hostRead (.res 3) s = .next { s with seen := (.res 3, s.res.r3) :: s.seen }) ∧
    (∀ i, 4 ≤ i → hostRead (.res i) s = .refused .noHostMove) ∧
    (hostRead .status s = .next { s with seen := (.status, s.status) :: s.seen }) ∧
    Space.inBuf.size = 256 ∧ Space.outBuf.size = 768 ∧ Space.frameBuf.size = 255 ∧
    (∀ loc rest, s.pending = .read loc :: rest → step s = hostRead loc { s with pending := rest }) ∧
    (∀ loc b rest, s.pending = .write loc b :: rest → step s = hostWrite loc b { s with pending := rest })

/-- Where the spec gives no value (a byte of `FRAME` while `frame.valid = 0`, a byte no one has written), a host read
answers, changes no state of the block, and returns a byte drawn afresh (R37, R38). The draw is the model's free value:
log 9; for a byte of `IN` the spec does not say it: log 8. -/
def Obligations.UnspecifiedBytesAreDrawn : Prop :=
  ∀ (s : State) (sp : Space) (a : Nat), a < sp.size →
    (s.byteAt sp a = none ∨ (sp = .frameBuf ∧ s.frame.valid = false)) →
    hostRead (.byte sp a) s =
      .next { s with
        seen := (.byte sp a, (Config.freeByte s.draws).setWidth 32) :: s.seen
        draws := s.draws + 1 }

/-- `hop.state` and `conv.state` are not readable by the host (R35): two states that differ only in them answer every
host read alike. -/
def Obligations.HiddenRegistersUnreadable : Prop :=
  ∀ (loc : Loc) (s : State) (x y : Nat),
    (∀ t, hostRead loc s = .next t →
      hostRead loc { s with conv := { s.conv with state := x }, hop := { s.hop with state := y } } =
        .next { t with conv := { t.conv with state := x }, hop := { t.hop with state := y } }) ∧
    (∀ r, hostRead loc s = .refused r →
      hostRead loc { s with conv := { s.conv with state := x }, hop := { s.hop with state := y } } = .refused r)

/-! ## `CONV` -/

/-- `CONV.BEGIN rate` (R105) with a rate of 2 or 3: the rate is selected and the state cleared, whatever they were; all
else stays, and `STATUS.CONV_INIT` is 1. -/
def Obligations.ConvBeginSelectsRate : Prop :=
  ∀ (s : State) (r : ConvRate), ∃ t, exec (.convBegin (convDenominator r)) s = .next t ∧
    t = { s with conv := ⟨some r, 0⟩, kind := .ok, pc := s.pc + 1 } ∧ t.status.getLsbD 11 = true

/-- `CONV.ENCODE nbits` (R107) after a begin, with at most 2048 bits and its input written: it completes, with the
encoder's output in `OUT`, its end state in `conv.state` and the counts in `RES[0..1]`; all else stays. -/
def Obligations.ConvEncodeCompletes : Prop :=
  ∀ (s : State) (r : ConvRate) (nbits : Nat) (bytes : List Byte),
    s.conv.rate = some r → nbits ≤ 2048 → bytes.length = ceilDiv nbits 8 → inputIs bytes s →
    ∃ t, exec (.convEncode nbits) s = .next t ∧
      t = { s with
        outBuf := Memory.writeBytes s.outBuf 0 (pack (convOut s.CFG.toCfg r s.conv.state (bitsOf bytes nbits)))
        conv := ⟨some r, convEnd s.CFG.toCfg r s.conv.state (bitsOf bytes nbits)⟩
        res := { s.res with r0 := t.res.r0, r1 := t.res.r1 }
        kind := .ok
        pc := s.pc + 1 } ∧
      t.res.r0.toNat = convDenominator r * nbits ∧ t.res.r1.toNat = ceilDiv (convDenominator r * nbits) 8

/-- A command whose checks all pass and that reads an `IN` byte the host never wrote ends in the model's fault (R37),
`CONV.ENCODE` and `FHSS.ENCODE` alike. -/
def Obligations.UnwrittenInputFaults : Prop :=
  (∀ (s : State) (nbits : Nat), s.conv.rate ≠ none → nbits ≤ 2048 → ¬ inputWritten (ceilDiv nbits 8) s →
    exec (.convEncode nbits) s = .fault .readOfUnwrittenInput) ∧
  (∀ (s : State) (len : Nat), s.begun = true → s.hop.hopsRemaining = 0 → len ≤ 255 →
    frameBitLength s.CFG.toCfg s.cfg len ≤ 2040 → ¬ inputWritten len s →
    exec (.fhssEncode len) s = .fault .readOfUnwrittenInput)

/-- R102: the state register is a shift register of the last `w_r` input bits, the newest in bit 0. -/
def Obligations.EncoderStateIsShiftRegister : Prop :=
  ∀ (c : Cfg) (r : ConvRate) (s : Nat) (b : Bool), cfgWf c = true →
    convNext c r s b = ((s <<< 1) ||| b.toNat) &&& (2 ^ convStateBits c r - 1) ∧
    (convNext c r s b).testBit 0 = b ∧
    (∀ j, j + 1 < convStateBits c r → (convNext c r s b).testBit (j + 1) = s.testBit j) ∧
    (∀ j, convStateBits c r ≤ j → (convNext c r s b).testBit j = false)

/-- R104: the four laws of `ConvEncodeBits`, for every well-formed `CFG`. -/
def Obligations.EncoderLaws : Prop :=
  ∀ (c : Cfg) (r : ConvRate), cfgWf c = true →
    (∀ s x y ox s1 oy s2, convEncodeBits c r s x = (ox, s1) → convEncodeBits c r s1 y = (oy, s2) →
      convEncodeBits c r s (x ++ y) = (ox ++ oy, s2)) ∧
    (∀ s bits, convStateBits c r ≤ bits.length →
      (convEncodeBits c r s bits).2 < 2 ^ convStateBits c r ∧
      ∀ j, j < convStateBits c r →
        (convEncodeBits c r s bits).2.testBit j = bits.getD (bits.length - 1 - j) false) ∧
    (∀ s, (convEncodeBits c r s (List.replicate (convStateBits c r) false)).2 = 0) ∧
    (∀ s, convEncodeBits c r s [] = ([], s))

/-- R108: after `CONV.ENCODE`, output bit `r*i + j` of `OUT` is bit `r-1-j` of the symbol `T_r[s_i][b_i]`, where `s_i`
is the state before input bit `i`. -/
def Obligations.ConvOutputPositions : Prop :=
  ∀ (s t : State) (r : ConvRate) (nbits : Nat) (bytes : List Byte),
    s.conv.rate = some r → bytes.length = ceilDiv nbits 8 → inputIs bytes s →
    exec (.convEncode nbits) s = .next t → t.kind = .ok →
    ∀ i j, i < nbits → j < convDenominator r →
      bufferBit t .outBuf (convDenominator r * i + j) =
        some ((convSymbol s.CFG.toCfg r (convEnd s.CFG.toCfg r s.conv.state (bitsOf bytes i))
          (bitAt bytes i)).testBit (convDenominator r - 1 - j))

/-- R109: two `CONV.ENCODE` over `x` then `y`, the host rewriting `IN` in between, give the bits and the end state of one
`CONV.ENCODE` over `x ++ y` from the same start state. -/
def Obligations.TwoEncodesEqualOne : Prop :=
  ∀ (s t u v z t' : State) (r : ConvRate) (nx ny : Nat) (bx byy bz : List Byte),
    s.conv.rate = some r →
    bx.length = ceilDiv nx 8 → inputIs bx s → exec (.convEncode nx) s = .next t → t.kind = .ok →
    u.CFG = s.CFG → u.conv = t.conv →
    byy.length = ceilDiv ny 8 → inputIs byy u → exec (.convEncode ny) u = .next v → v.kind = .ok →
    z.CFG = s.CFG → z.conv = s.conv →
    bz.length = ceilDiv (nx + ny) 8 → bitsOf bz (nx + ny) = bitsOf bx nx ++ bitsOf byy ny → inputIs bz z →
    exec (.convEncode (nx + ny)) z = .next t' → t'.kind = .ok →
    t'.conv = v.conv ∧
    (∀ i, i < convDenominator r * nx → bufferBit t' .outBuf i = bufferBit t .outBuf i) ∧
    (∀ i, i < convDenominator r * ny → bufferBit t' .outBuf (convDenominator r * nx + i) = bufferBit v .outBuf i)

/-- Tail-biting as a host sequence (R110): when `n >= w_r`, a second `CONV.ENCODE n` over the same `IN` completes, starts
in the state the message ends in, ends in that state, and so its output is that of the message encoded from there. -/
def Obligations.SecondPassTailBites : Prop :=
  ∀ (s t : State) (r : ConvRate) (n : Nat) (bytes : List Byte),
    s.conv.rate = some r → convStateBits s.CFG.toCfg r ≤ n → bytes.length = ceilDiv n 8 → inputIs bytes s →
    exec (.convEncode n) s = .next t → t.kind = .ok →
    ∃ u, exec (.convEncode n) t = .next u ∧ u.kind = .ok ∧ u.conv = t.conv ∧
      ∀ i, i < convDenominator r * n →
        bufferBit u .outBuf i = some ((convOut s.CFG.toCfg r u.conv.state (bitsOf bytes n)).getD i false)

/-! ## `BCH` -/

/-- `BCH.BEGIN n, k, poly` (R122, R123) whose operands pass the checks, with `t` the least whose root set reaches
`n - k` roots, and has just so many: it completes. The tables hold the powers of `alpha` and their exponents (R121). The
generator has degree `n - k` and constant term 1, divides `x^n + 1`, and vanishes at `alpha^z` for every root `z`, the
roots being the union of the cosets of 1 to `2t` (R123). `RES[0..1]` hold the generator and `t`; all else stays. The
primitivity test reads R121 as log 20 says, and the codes with `k = 1` are those of log 22. -/
def Obligations.BchBeginBuildsCode : Prop :=
  ∀ (s : State) (n k t : Nat) (poly : Word),
    4 ≤ poly.toNat → n = 2 ^ deg poly.toNat - 1 → n ≤ 31 → 1 ≤ k → k < n →
    primitive (deg poly.toNat) poly.toNat n = true →
    1 ≤ t → 2 * t < n → (rootSet n (deg poly.toNat) t).length = n - k →
    (∀ t', 1 ≤ t' → t' < t → (rootSet n (deg poly.toNat) t').length < n - k) →
    ∃ g u, exec (.bchBegin n k poly) s = .next u ∧
      u = { s with
        bch := ⟨true, n, k, deg poly.toNat, poly, u.bch.alphaTo, u.bch.indexOf, g⟩
        res := { s.res with r0 := u.res.r0, r1 := u.res.r1 }
        kind := .ok
        pc := s.pc + 1 } ∧
      u.bch.alphaTo.length = n ∧ u.bch.indexOf.length = n ∧
      (∀ i, i < n → u.bch.alphaTo[i]? = some (pmod (2 ^ i) poly.toNat)) ∧
      (∀ v, 1 ≤ v → v ≤ n → u.bch.alphaTo.getD (u.bch.indexOf.getD (v - 1) n) 0 = v) ∧
      (∀ z, z ∈ rootSet n (deg poly.toNat) t ↔ ∃ i j, 1 ≤ i ∧ i ≤ 2 * t ∧ z = i * 2 ^ j % n) ∧
      (∀ z, z ∈ rootSet n (deg poly.toNat) t → valueAtPower poly.toNat g z = 0) ∧
      u.res.r0.toNat = g ∧ u.res.r1.toNat = t ∧ BchCodeOk u.bch ∧ pmod (2 ^ n ^^^ 1) g = 0

/-- `BCH.ENCODE dataword` (R130) after a begin: it completes and writes the codeword with its parity bit to `RES[0]`,
laid out as R88 says; all else stays, so it may be issued any number of times. -/
def Obligations.BchEncodeCompletes : Prop :=
  ∀ (s : State) (dataword : Word), s.bch.valid = true → BchOk s →
    ∃ t, exec (.bchEncode dataword) s = .next t ∧
      t = { s with res := { s.res with r0 := t.res.r0 }, kind := .ok, pc := s.pc + 1 } ∧
      t.res.r0.toNat < 2 ^ (s.bch.n + 1) ∧
      t.res.r0.toNat / 2 ^ (s.bch.n - s.bch.k + 1) = dataword.toNat % 2 ^ s.bch.k ∧
      t.res.r0.toNat / 2 % 2 ^ (s.bch.n - s.bch.k) =
        pmod ((dataword.toNat % 2 ^ s.bch.k) * 2 ^ (s.bch.n - s.bch.k)) s.bch.gen ∧
      t.res.r0.toNat % 2 = (parity (t.res.r0.toNat / 2)).toNat

/-- R131: the division bit by bit, "shift-and-XOR against the generator", equals `pmod` of R130 and leaves a remainder
below `2^(n-k)`. -/
def Obligations.DivisionBitByBit : Prop :=
  ∀ n k g d : Nat, k ≤ n → g ≠ 0 → deg g = n - k → d < 2 ^ k →
    divideFrom g (n - k) k (d <<< (n - k)) = pmod (d <<< (n - k)) g ∧ pmod (d <<< (n - k)) g < 2 ^ (n - k)

/-- The laws of the code (R133 (a) to (e)), for every code the unit can hold: linear, systematic, a multiple of the
generator, of even overall parity, and one data bit flipped changes a check bit. -/
def Obligations.BchCodeLaws : Prop :=
  ∀ b : BchUnit, BchCodeOk b →
    (bchEncode b.n b.k b.gen 0 = 0) ∧
    (∀ d d', bchEncode b.n b.k b.gen (d ^^^ d') = bchEncode b.n b.k b.gen d ^^^ bchEncode b.n b.k b.gen d') ∧
    (∀ d, bchEncode b.n b.k b.gen d >>> (b.n - b.k + 1) = d % 2 ^ b.k) ∧
    (∀ d, pmod (bchEncode b.n b.k b.gen d >>> 1) b.gen = 0) ∧
    (∀ d, parity (bchEncode b.n b.k b.gen d) = false) ∧
    (∀ i d, i < b.k →
      (bchEncode b.n b.k b.gen d >>> 1) % 2 ^ (b.n - b.k) ≠
        (bchEncode b.n b.k b.gen (d ^^^ 2 ^ i) >>> 1) % 2 ^ (b.n - b.k))

/-! ## `FHSS` -/

/-- `FHSS.BEGIN` (R141, R142, R144, R192) with legal operands completes in every state: the unit is begun, all five
configuration fields are written, the generator's parameters come from `CFG.hopTable`, the LFSR is re-seeded, the
counters are 0 and the frame's lifetime has ended; all else stays. -/
def Obligations.FhssBeginCompletes : Prop :=
  ∀ (s : State) (bw cr hdrCount : Nat) (grid : Grid) (id : Nat) (rate : CodingRate) (channels : Nat) (e : HopEntry),
    codingRateCode rate = cr → chanCount s.CFG.toCfg bw = some channels → 1 ≤ hdrCount → hdrCount ≤ 4 →
    hopEntry s.CFG.toCfg (channels / gridChannels s.CFG.toCfg grid) = some e → id ≤ 511 → id < e.idLimit →
    ∃ p, e.polys[id / 2 ^ e.w]? = some p ∧
      exec (.fhssBegin bw cr hdrCount grid id) s = .next { s with
        begun := true
        cfg := ⟨bw, rate, hdrCount, grid, id⟩
        hop := { s.hop with
          nGrid := channels / gridChannels s.CFG.toCfg grid, w := e.w, initState := e.initState, state := e.initState,
          poly := p, seed := id &&& e.seedMask, bitsRemaining := 0, hopsRemaining := 0, hopIndex := 0 }
        frame := { s.frame with valid := false }
        kind := .ok
        pc := s.pc + 1 }

/-- `FHSS.CONFIG` (R143, R144) once begun, with legal operands, completes: it replaces the configuration, re-seeds the
generator and ends a transmission in flight; and once begun `FHSS.BEGIN` acts exactly as `FHSS.CONFIG` (R141). -/
def Obligations.FhssConfigCompletes : Prop :=
  (∀ (s : State) (bw cr hdrCount : Nat) (grid : Grid) (id : Nat) (rate : CodingRate) (channels : Nat) (e : HopEntry),
    s.begun = true →
    codingRateCode rate = cr → chanCount s.CFG.toCfg bw = some channels → 1 ≤ hdrCount → hdrCount ≤ 4 →
    hopEntry s.CFG.toCfg (channels / gridChannels s.CFG.toCfg grid) = some e → id ≤ 511 → id < e.idLimit →
    ∃ p, e.polys[id / 2 ^ e.w]? = some p ∧
      exec (.fhssConfig bw cr hdrCount grid id) s = .next { s with
        cfg := ⟨bw, rate, hdrCount, grid, id⟩
        hop := { s.hop with
          nGrid := channels / gridChannels s.CFG.toCfg grid, w := e.w, initState := e.initState, state := e.initState,
          poly := p, seed := id &&& e.seedMask, bitsRemaining := 0, hopsRemaining := 0, hopIndex := 0 }
        frame := { s.frame with valid := false }
        kind := .ok
        pc := s.pc + 1 }) ∧
  (∀ (s : State) (bw cr hdrCount : Nat) (grid : Grid) (id : Nat), s.begun = true →
    exec (.fhssBegin bw cr hdrCount grid id) s = exec (.fhssConfig bw cr hdrCount grid id) s)

/-- `FHSS.ENCODE len` (R145, R146, R177, R178) with all its checks met and the payload written: it completes, `FRAME` is
written whole, `frame.*` and `RES[0..3]` hold the counts, and the `CONV` unit is left at rate 2 in the state after the
last header (replica 0), whatever it was; all else stays. -/
def Obligations.FhssEncodeCompletes : Prop :=
  ∀ (s : State) (payload : List Byte),
    s.begun = true → s.hop.hopsRemaining = 0 → payload.length ≤ 255 →
    frameBitLength s.CFG.toCfg s.cfg payload.length ≤ 2040 → inputIs payload s →
    ∃ t, exec (.fhssEncode payload.length) s = .next t ∧
      t = { s with
        frameBuf := Memory.writeBytes s.frameBuf 0 (frameImage (encodeFrame s.CFG.toCfg s.cfg payload).1)
        frame := ⟨true, frameBitLength s.CFG.toCfg s.cfg payload.length, frameHopCount s.CFG.toCfg s.cfg payload.length⟩
        conv := ⟨some .two, (encodeFrame s.CFG.toCfg s.cfg payload).2⟩
        res := t.res
        kind := .ok
        pc := s.pc + 1 } ∧
      (frameImage (encodeFrame s.CFG.toCfg s.cfg payload).1).length = 255 ∧
      t.res.r0.toNat = t.frame.bitLength ∧ t.res.r1.toNat = t.frame.hopCount ∧
      t.res.r2.toNat = ceilDiv t.frame.bitLength 8 ∧
      t.res.r3.toNat = frameExpandedBits s.CFG.toCfg s.cfg payload.length ∧
      (1 ≤ s.cfg.hdrCount →
        t.conv.state = convEnd s.CFG.toCfg .two 0 (bitsOf (headerRaw payload.length s.cfg 0) 40))

/-- R175, R176: after a successful `FHSS.ENCODE`, `hopCount` is `ceil(expandedBits / 48) + hdrCount` and `bitLength` is
the number of bits of the frame, `hdrCount * HDR_BLOCK_BITS + expandedBits + 2 * ceil(expandedBits / 48)`, where
`expandedBits` is the length of the punctured stream; both stand in `frame.*` and in `RES`, and there is at least one
payload hop (R31 (f), with the condition on `CFG` of log 13). -/
def Obligations.FrameCountsMatchFrame : Prop :=
  ∀ (s t : State) (payload : List Byte), inputIs payload s →
    exec (.fhssEncode payload.length) s = .next t → t.kind = .ok →
    let eb := (payloadStream s.CFG.toCfg s.cfg payload).length
    t.frame.hopCount = ceilDiv eb 48 + s.cfg.hdrCount ∧
    t.frame.bitLength = s.cfg.hdrCount * (s.CFG.hdrGuardBits + 80 + s.CFG.syncWord.length) + eb + 2 * ceilDiv eb 48 ∧
    t.frame.bitLength = (encodeFrame s.CFG.toCfg s.cfg payload).1.length ∧
    t.res.r0.toNat = t.frame.bitLength ∧ t.res.r1.toNat = t.frame.hopCount ∧ t.res.r3.toNat = eb ∧
    1 ≤ eb ∧ s.cfg.hdrCount + 1 ≤ t.frame.hopCount

/-- R87: after a successful `FHSS.ENCODE`, bit `i` of `FRAME` is frame bit `i` for `i < frame.bitLength`, and every other
bit of every byte of `FRAME` is 0. -/
def Obligations.FrameStoredInBuffer : Prop :=
  ∀ (s t : State) (payload : List Byte), inputIs payload s →
    exec (.fhssEncode payload.length) s = .next t → t.kind = .ok →
    ∀ i, i < 8 * 255 →
      bufferBit t .frameBuf i =
        some (if i < t.frame.bitLength then (encodeFrame s.CFG.toCfg s.cfg payload).1.getD i false else false)

/-- The frame's layout, down to where its bits come from. The `hdrCount` header blocks, replica after replica, the `i`-th
with index `hdrCount - 1 - i` (R80, R173), each `hdrGuardBits` zeros, then at position `j` of 80 the coded bit
`hdrPerm[j]`, then the sync word (R85, R172); then the payload blocks, each two guard bits of value 0 and up to 48 bits of
the punctured stream in the interleaver's order (R86, R161, R163), with a free bit where the order names a position past
the stream (the model's: log 23); nothing between them and nothing after. The stream
before puncturing is coded at rate 1/3 from state 0, and back to state 0, from the whitened payload, its CRC-16 high byte
first, and six zero bits (R155, R156, R157). -/
def Obligations.FrameLayout : Prop :=
  ∀ (c : Cfg) (cfg : FhssCfg) (payload : List Byte), cfgWf c = true →
    let frame := (encodeFrame c cfg payload).1
    let stream := payloadStream c cfg payload
    let base := cfg.hdrCount * hdrBlockBits c
    let raw := fun i => headerRaw payload.length cfg (cfg.hdrCount - 1 - i)
    let whitened := whiten c payload
    let crc16 := crc 0x755B#16 0xFFFF#16 0x0000#16 whitened
    let input := (whitened ++ [crc16.extractLsb' 8 8, crc16.extractLsb' 0 8]).flatMap byteBits
      ++ List.replicate 6 false
    (stream = puncture c cfg.cr (convOut c .three 0 input) ∧ convEnd c .three 0 input = 0) ∧
    (∀ i j, i < cfg.hdrCount → j < c.hdrGuardBits → frame[i * hdrBlockBits c + j]? = some false) ∧
    (∀ i j p, i < cfg.hdrCount → c.hdrPerm[j]? = some p →
      ∃ b, (headerCoded c (raw i)).1[p]? = some b ∧
        frame[i * hdrBlockBits c + c.hdrGuardBits + j]? = some b) ∧
    (∀ i j b, i < cfg.hdrCount → c.syncWord[j]? = some b →
      frame[i * hdrBlockBits c + c.hdrGuardBits + 80 + j]? = some b) ∧
    (∀ i, i < cfg.hdrCount →
      (frame.drop (i * hdrBlockBits c)).take (hdrBlockBits c) =
        (headerBlock c (headerRaw payload.length cfg (cfg.hdrCount - 1 - i))).1) ∧
    (∀ j, j < ceilDiv stream.length 48 →
      frame[base + 50 * j]? = some false ∧ frame[base + 50 * j + 1]? = some false) ∧
    (∀ j q, q < 48 → 48 * j + q < stream.length →
      frame[base + 50 * j + 2 + q]? =
        let i := (interleaveOrder c.ilvRootEven stream.length).getD (48 * j + q) 0
        some (stream.getD i (Config.unstatedBit stream i))) ∧
    frame.length = base + stream.length + 2 * ceilDiv stream.length 48

/-- The raw header's fields (R81, R171), for a length, a sequence id and a replica index that fit theirs, and its CRC-8
over the four field bytes. -/
def Obligations.HeaderFieldsLaidOut : Prop :=
  ∀ (len : Nat) (cfg : FhssCfg) (replica : Nat), len < 256 → cfg.hopSeqId ≤ 511 → replica < 4 →
    ∃ h0 h1 h2 h3 : Byte,
      headerRaw len cfg replica = [h0, h1, h2, h3, crc 0x2F#8 0xFF#8 0x00#8 [h0, h1, h2, h3]] ∧
      h0.toNat = len ∧
      h1.toNat = codingRateCode cfg.cr * 8 + cfg.grid.code * 4 + 2 + cfg.bw / 8 % 2 ∧
      h2.toNat = cfg.bw % 8 * 32 + cfg.hopSeqId / 16 ∧
      h3.toNat = cfg.hopSeqId % 16 * 16 + replica * 4

/-- The header's tail-biting (R170, R172): the kept pass is the second over the same 40 bits: it is the message coded from
the state the message ends in, it ends in that state, has 80 bits, and differs from the first pass only in its first
`2 * w_2` bits. -/
def Obligations.HeaderTailBites : Prop :=
  ∀ (c : Cfg) (raw : List Byte), cfgWf c = true → raw.length = 5 →
    (headerCoded c raw).1 =
      convOut c .two (convEnd c .two 0 (bitsOf raw 40)) (bitsOf raw 40) ∧
    (headerCoded c raw).2 = convEnd c .two 0 (bitsOf raw 40) ∧
    (headerCoded c raw).1.length = 80 ∧
    (headerCoded c raw).1.drop (2 * c.convStateBits2) =
      (convOut c .two 0 (bitsOf raw 40)).drop (2 * c.convStateBits2)

/-- R148: the result of a successful `FHSS.ENCODE` is a function of `IN[0..len-1]`, `len`, `cfg.*` and `CFG` only. -/
def Obligations.EncodeIsPure : Prop :=
  ∀ (s s' t t' : State) (len : Nat), s.CFG = s'.CFG → s.cfg = s'.cfg →
    (∀ a, a < len → s.byteAt .inBuf a = s'.byteAt .inBuf a) →
    exec (.fhssEncode len) s = .next t → t.kind = .ok → exec (.fhssEncode len) s' = .next t' → t'.kind = .ok →
    t.frame = t'.frame ∧ t.res = t'.res ∧ t.conv = t'.conv ∧
    ∀ a, a < 255 → t.byteAt .frameBuf a = t'.byteAt .frameBuf a

/-- R152: de-whitening undoes whitening, for every byte list and every `CFG.whitenNext`. -/
def Obligations.WhiteningRoundTrip : Prop :=
  ∀ (c : Cfg) (bytes : List Byte), dewhiten c (whiten c bytes) = bytes

/-- The properties (a) to (d) of R151: whitening keeps the length, uses an LFSR sequence that does not depend on the
data, is linear up to a constant, and takes prefixes to prefixes. -/
def Obligations.WhiteningLaws : Prop :=
  ∀ c : Cfg,
    (∀ b, (whiten c b).length = b.length) ∧
    (∀ b i x, b[i]? = some x → (whiten c b)[i]? = some (swapNibbles (x ^^^ (whitenNext c)^[i] 0xFF))) ∧
    (∀ a b, a.length = b.length →
      List.zipWith (· ^^^ ·) (whiten c a) (whiten c b) = List.zipWith (fun x y => swapNibbles (x ^^^ y)) a b) ∧
    (∀ b n, whiten c (b.take n) = (whiten c b).take n)

/-- `Puncture` (R158, R159): bit `i` is kept exactly where the pattern's bit `i mod len(pat)` is 1, and kept bits stay in
order; `expandedBits` is the number of them, at rate 1/3 every bit is kept, and whole windows keep `b` bits of `3*a`. A
`CFG` the block runs under (log 13) is one under which no payload is punctured away whole, and every pattern that starts
with a kept bit is allowed (R159). -/
def Obligations.PuncturedLength : Prop :=
  (∀ (c : Cfg) (cr : CodingRate) (bits : List Bool), cfgWf c = true →
    (puncture c cr bits).length = expandedBits c cr bits.length ∧
    (∀ pat, punct c cr = some pat → puncture c cr bits =
      ((List.range bits.length).filter (fun i => pat[i % pat.length]? == some true)).map (fun i => bits.getD i false)) ∧
    (puncture c cr bits).Sublist bits ∧
    (cr = .r1_3 → puncture c cr bits = bits) ∧
    (cr = .r5_6 → bits.length % c.punct5_6.length = 0 → 15 * (puncture c cr bits).length = 6 * bits.length) ∧
    (cr = .r2_3 → bits.length % c.punct2_3.length = 0 → 6 * (puncture c cr bits).length = 3 * bits.length) ∧
    (cr = .r1_2 → bits.length % c.punct1_2.length = 0 → 3 * (puncture c cr bits).length = 2 * bits.length)) ∧
  (∀ c : Cfg, cfgWf c = true →
    (cfgKeepsPayload c = true ↔ ∀ cr len, 1 ≤ expandedBits c cr (24 * len + 66)) ∧
    (patternsStartKept c → cfgKeepsPayload c = true))

/-- R162: the interleaver's order is a permutation, so every punctured bit is sent exactly once: for every `n >= 1` with
the source's root, and for every `n >= 7` with the root rounded up to even (what is sent at 5 and 6: log 23). -/
def Obligations.InterleaverPermutes : Prop :=
  ∀ (rootEven : Bool) (n : Nat), (7 ≤ n ∨ (1 ≤ n ∧ rootEven = false)) →
    (interleaveOrder rootEven n).Perm (List.range n)

/-! ## `HOP` -/

/-- `HOP.START centre` (R194) once begun, idle, with a valid frame: it completes, the LFSR restarts from `initState`, the
counters are loaded from the frame, `hdrCount` and `centre` are taken; all else stays. -/
def Obligations.HopStartCompletes : Prop :=
  ∀ (s : State) (centre : Word), s.begun = true → s.hop.hopsRemaining = 0 → s.frame.valid = true →
    exec (.hopStart centre) s = .next { s with
      hop := { s.hop with
        state := s.hop.initState, hopIndex := 0, hopsRemaining := s.frame.hopCount,
        bitsRemaining := s.frame.bitLength, hdrCount := s.cfg.hdrCount, centre := centre }
      kind := .ok
      pc := s.pc + 1 }

/-- `HOP.STEP` (R196, R197, R201 (a), R203) in flight: it completes, with a hop value in `[1, nGrid]` from the generator;
the bits of the hop are those of R203 and never more than remain; the counters move by one hop; all else stays. `RES[0]`
is the hop value where the grid fits the register's 32 bits (log 21). -/
def Obligations.HopStepCompletes : Prop :=
  ∀ s : State, TransmissionOk s → s.begun = true → s.hop.hopsRemaining ≠ 0 →
    ∃ st hopv nb t, hopNext s.hop.w s.hop.state s.hop.poly s.hop.seed s.hop.nGrid = some (st, hopv) ∧
      1 ≤ hopv ∧ hopv ≤ s.hop.nGrid ∧ 0 < st ∧ st < 2 ^ s.hop.w ∧
      nb = (if s.hop.hopIndex < s.hop.hdrCount then s.CFG.hdrGuardBits + 80 + s.CFG.syncWord.length
        else min 50 s.hop.bitsRemaining) ∧
      nb ≤ s.hop.bitsRemaining ∧
      exec .hopStep s = .next t ∧
      t = { s with
        res := t.res
        hop := { s.hop with
          state := st, bitsRemaining := s.hop.bitsRemaining - nb, hopsRemaining := s.hop.hopsRemaining - 1,
          hopIndex := s.hop.hopIndex + 1 }
        frame := { s.frame with valid := if s.hop.hopsRemaining = 1 then false else s.frame.valid }
        kind := .ok
        pc := s.pc + 1 } ∧
      (s.hop.nGrid < 2 ^ 32 → t.res.r0.toNat = hopv) ∧
      t.res.r2.toNat = nb ∧ t.res.r3.toNat = s.hop.hopIndex

/-- R206: the `HOP.STEP` that brings `hop.hopsRemaining` to 0 ends the frame's lifetime: `FRAME` reads as unspecified,
no bits remain, `hop.hopIndex` is `frame.hopCount`, and a new `FHSS.ENCODE` is accepted: it is turned away for its size
alone. -/
def Obligations.LastHopEndsFrame : Prop :=
  ∀ s t : State, TransmissionOk s → exec .hopStep s = .next t → t.kind = .ok → t.hop.hopsRemaining = 0 →
    t.frame.valid = false ∧ (∀ a, visibleByte t .frameBuf a = none) ∧
    t.hop.bitsRemaining = 0 ∧ t.hop.hopIndex = t.frame.hopCount ∧
    ∀ (len : Nat) (u : State), exec (.fhssEncode len) t = .next u → u.kind = .ok ∨ u.kind = .packetTooLong

/-- `HOP.RESET` (R208) once begun, in flight or not: it completes, the LFSR is back at `initState`, the counters are 0
and the frame's lifetime has ended; all else stays, the configuration and the generator's parameters among it. -/
def Obligations.HopResetCompletes : Prop :=
  ∀ s : State, s.begun = true →
    exec .hopReset s = .next { s with
      hop := { s.hop with state := s.hop.initState, bitsRemaining := 0, hopsRemaining := 0, hopIndex := 0 }
      frame := { s.frame with valid := false }
      kind := .ok
      pc := s.pc + 1 }

/-- The laws of the LFSR (R200 (a), (c), R198) for a mask of full period: a clock takes 0 to 0 and permutes the nonzero
`w`-bit states, and `2^w - 1` clocks from any nonzero state visit every nonzero state and return to the start. -/
def Obligations.LfsrCycles : Prop :=
  ∀ w poly : Nat, lfsrFullPeriod w poly = true →
    lfsrNext 0 poly = 0 ∧
    (∀ s, 0 < s → s < 2 ^ w → 0 < lfsrNext s poly ∧ lfsrNext s poly < 2 ^ w) ∧
    (∀ s s', s < 2 ^ w → s' < 2 ^ w → lfsrNext s poly = lfsrNext s' poly → s = s') ∧
    (∀ s, 0 < s → s < 2 ^ w → lfsrIter poly (2 ^ w - 1) s = s ∧
      ∀ x, 0 < x → x < 2 ^ w → ∃ n, n < 2 ^ w - 1 ∧ lfsrIter poly n s = x)

/-- R201: for a fixed seed the map from nonzero states to candidates is a bijection of `1 .. 2^w - 1` onto itself, and
what `HopNext` answers lies in `[1, nGrid]`. -/
def Obligations.HopCandidatesOnce : Prop :=
  (∀ w seed : Nat, seed < 2 ^ w →
    (∀ s, 0 < s → s < 2 ^ w → 0 < hopCandidate seed s ∧ hopCandidate seed s < 2 ^ w) ∧
    (∀ s s', 0 < s → s < 2 ^ w → 0 < s' → s' < 2 ^ w → hopCandidate seed s = hopCandidate seed s' → s = s') ∧
    (∀ v, 0 < v → v < 2 ^ w → ∃ s, 0 < s ∧ s < 2 ^ w ∧ hopCandidate seed s = v)) ∧
  (∀ w poly seed nGrid s st hopv : Nat, lfsrFullPeriod w poly = true → seed < 2 ^ w → 0 < s → s < 2 ^ w →
    hopNext w s poly seed nGrid = some (st, hopv) → 1 ≤ hopv ∧ hopv ≤ nGrid)

/-- R202 and the bound of R199: under a mask of full period the retry loop ends within `2^w - nGrid` clocks, any `nGrid`
consecutive hops are every grid position exactly once, and the sequence repeats with that period. -/
def Obligations.HopSequenceHasFullPeriod : Prop :=
  ∀ w poly seed nGrid s : Nat, lfsrFullPeriod w poly = true → seed < 2 ^ w → 1 ≤ nGrid → nGrid ≤ 2 ^ w - 1 →
    0 < s → s < 2 ^ w →
    (∃ r, hopSearch poly seed nGrid (2 ^ w - nGrid) s = some r ∧ hopNext w s poly seed nGrid = some r) ∧
    (hopSequence w poly seed nGrid nGrid s).Perm (List.range' 1 nGrid) ∧
    (∀ n, (hopSequence w poly seed nGrid (nGrid + n) s).drop nGrid = hopSequence w poly seed nGrid n s)

/-- The raw frequency of a hop (R204, R90), written out, and the header hops that carry the IF offset (R205): with one
header none, with two hop 0, with three hop 1, with four hops 0 and 2; payload hops never. -/
def Obligations.FrequencyOfHop : Prop :=
  (∀ (s : State) (st hopv : Nat), s.begun = true → s.hop.hopsRemaining ≠ 0 →
    hopNext s.hop.w s.hop.state s.hop.poly s.hop.seed s.hop.nGrid = some (st, hopv) → 1 ≤ s.hop.nGrid →
    ∃ t, exec .hopStep s = .next t ∧
      (t.res.r1.toNat : Int) =
        ((s.hop.centre.toNat : Int)
          + ((((hopv : Int) - 1) - ((s.hop.nGrid : Int) - 1) / 2) * (gridChannels s.CFG.toCfg s.cfg.grid : Int)
              - (1 + (s.hop.nGrid : Int) % 2) * ((gridChannels s.CFG.toCfg s.cfg.grid : Int) / 2))
            * (s.CFG.chanStepRaw.toNat : Int)
          + (if s.hop.hopIndex < s.hop.hdrCount ∧ (s.hop.hdrCount - s.hop.hopIndex) % 2 = 0
              then (s.CFG.ifOffsetRaw.toNat : Int) else 0)) % 2 ^ 32) ∧
  (∀ hopIndex hdrCount : Nat, 1 ≤ hdrCount → hdrCount ≤ 4 →
    (hasIfOffset hopIndex hdrCount = true ↔
      (hdrCount = 2 ∧ hopIndex = 0) ∨ (hdrCount = 3 ∧ hopIndex = 1) ∨ (hdrCount = 4 ∧ (hopIndex = 0 ∨ hopIndex = 2))))

/-- A transmission in flight locks the frame (R260): `FHSS.ENCODE` and `HOP.START` are refused with `CommandFailed`;
`HOP.RESET`, and a `FHSS.CONFIG` or `FHSS.BEGIN` that ends `Ok`, abort it: counters 0 and the frame invalid. -/
def Obligations.FlightLocksFrame : Prop :=
  ∀ s : State, s.begun = true → s.hop.hopsRemaining ≠ 0 →
    (∀ len, exec (.fhssEncode len) s = refusedWith .commandFailed s) ∧
    (∀ centre, exec (.hopStart centre) s = refusedWith .commandFailed s) ∧
    (∀ (i : Instr) (t : State), i.mnemonic ∈ ["FHSS.BEGIN", "FHSS.CONFIG", "HOP.RESET"] → exec i s = .next t →
      t.kind = .ok →
      t.hop.hopsRemaining = 0 ∧ t.hop.bitsRemaining = 0 ∧ t.hop.hopIndex = 0 ∧ t.frame.valid = false ∧
      t.hop.state = t.hop.initState) ∧
    (∃ t, exec .hopReset s = .next t ∧ t.kind = .ok)
end

