-- ==== Sys2Proof/Laws/Bits.lean ====
section
/-! SUPPORT. The laws of bit strings, of `ceilsqrt` and of the rounding-up division (R11, R12). -/

namespace Sys2Proof.Machine

/-- `ceil(n/8)` bytes hold `n` bits, and one byte fewer do not. -/
theorem ceilDiv_eight (n : Nat) : n ≤ 8 * ceilDiv n 8 ∧ 8 * ceilDiv n 8 < n + 8 := by
  unfold ceilDiv
  omega

theorem ceilDiv_eight_le {n k : Nat} (h : n ≤ 8 * k) : ceilDiv n 8 ≤ k := by
  unfold ceilDiv
  omega

/-- The search answers a square that reaches `n`, and every earlier candidate falls short. -/
theorem ceilSqrtFrom_spec {n fuel c : Nat} (hreach : n ≤ (c + fuel) * (c + fuel)) (hlow : ∀ d, d < c → d * d < n) :
    n ≤ ceilSqrtFrom n fuel c * ceilSqrtFrom n fuel c ∧ ∀ d, d < ceilSqrtFrom n fuel c → d * d < n := by
  induction fuel generalizing c with
  | zero => exact ⟨by simpa [ceilSqrtFrom] using hreach, by simpa [ceilSqrtFrom] using hlow⟩
  | succ fuel ih =>
    unfold ceilSqrtFrom
    split
    · rename_i h
      exact ⟨h, hlow⟩
    · rename_i h
      refine ih (by rwa [Nat.add_assoc, Nat.add_comm 1 fuel]) fun d hd => ?_
      rcases Nat.lt_succ_iff_lt_or_eq.mp hd with hd | rfl
      · exact hlow d hd
      · omega

/-- `ceilsqrt(n)` is the least `c` with `c*c >= n` (R11). -/
theorem ceilSqrt_spec (n : Nat) : n ≤ ceilSqrt n * ceilSqrt n ∧ ∀ d, d < ceilSqrt n → d * d < n :=
  ceilSqrtFrom_spec (by rw [Nat.zero_add]; exact Nat.le_mul_self n) (fun d hd => absurd hd (Nat.not_lt_zero d))

@[simp] theorem byteBits_length (b : Byte) : (byteBits b).length = 8 := by simp [byteBits]

theorem byteBits_getElem? (b : Byte) {i : Nat} (h : i < 8) : (byteBits b)[i]? = some (b.getMsbD i) := by
  simp [byteBits, h]

theorem flatMap_byteBits_length (bytes : List Byte) : (bytes.flatMap byteBits).length = 8 * bytes.length := by
  induction bytes with
  | nil => rfl
  | cons b bs ih => simp only [List.flatMap_cons, List.length_append, byteBits_length, ih, List.length_cons]; omega

theorem flatMap_byteBits_getElem? (bytes : List Byte) {i : Nat} (h : i < 8 * bytes.length) :
    (bytes.flatMap byteBits)[i]? = some (bitAt bytes i) := by
  induction bytes generalizing i with
  | nil => simp at h
  | cons b bs ih =>
    rw [List.flatMap_cons]
    by_cases hi : i < 8
    · rw [List.getElem?_append_left (by simpa using hi), byteBits_getElem? b hi]
      simp [bitAt, Nat.div_eq_of_lt hi, Nat.mod_eq_of_lt hi]
    · rw [List.getElem?_append_right (by simp; omega), byteBits_length,
        ih (by simp only [List.length_cons] at h; omega)]
      obtain ⟨j, rfl⟩ : ∃ j, i = j + 8 := ⟨i - 8, by omega⟩
      simp [bitAt, Nat.add_div_right]

/-- `Bits(B, n)` has `n` entries, for `n` within the buffer. -/
theorem bitsOf_length {bytes : List Byte} {n : Nat} (h : n ≤ 8 * bytes.length) : (bitsOf bytes n).length = n := by
  rw [bitsOf, List.length_take, flatMap_byteBits_length, Nat.min_eq_left h]

/-- Entry `i` of `Bits(B, n)` is `BitAt(B, i)` (R12). -/
theorem bitsOf_getElem? {bytes : List Byte} {n i : Nat} (h : n ≤ 8 * bytes.length) (hi : i < n) :
    (bitsOf bytes n)[i]? = some (bitAt bytes i) := by
  rw [bitsOf, List.getElem?_take_of_lt hi, flatMap_byteBits_getElem? _ (by omega)]

@[simp] theorem packBytes_length (n : Nat) (bits : List Bool) : (packBytes n bits).length = n := by
  induction n generalizing bits with
  | zero => rfl
  | succ n ih => simp [packBytes, ih]

/-- `Pack(bits)` has `ceil(len/8)` bytes (R12). -/
@[simp] theorem pack_length (bits : List Bool) : (pack bits).length = ceilDiv bits.length 8 := packBytes_length _ _

/-- Bit `i` of a packed byte is bit `i` of the list, 0 where there is none. -/
theorem byteOfBits_getMsbD (bits : List Bool) {i : Nat} (h : i < 8) :
    (byteOfBits bits).getMsbD i = bits.getD i false := by
  have key : ∀ b0 b1 b2 b3 b4 b5 b6 b7 : Bool, ∀ j : Fin 8,
      (BitVec.ofNat 8 (2 * (2 * (2 * (2 * (2 * (2 * (2 * (2 * 0 + b0.toNat) + b1.toNat) + b2.toNat) + b3.toNat)
        + b4.toNat) + b5.toNat) + b6.toNat) + b7.toNat)).getMsbD j
        = [b0, b1, b2, b3, b4, b5, b6, b7].getD j false := by decide +kernel
  have := key (bits.getD 0 false) (bits.getD 1 false) (bits.getD 2 false) (bits.getD 3 false) (bits.getD 4 false)
    (bits.getD 5 false) (bits.getD 6 false) (bits.getD 7 false) ⟨i, h⟩
  have hr : List.range 8 = [0, 1, 2, 3, 4, 5, 6, 7] := by decide
  simp only [byteOfBits, hr, List.foldl_cons, List.foldl_nil]
  rw [this]
  rcases i with _ | _ | _ | _ | _ | _ | _ | _ | i <;> first | rfl | omega

theorem bitAt_packBytes (n : Nat) (bits : List Bool) (i : Nat) (hn : bits.length ≤ 8 * n) :
    bitAt (packBytes n bits) i = bits.getD i false := by
  induction n generalizing bits i with
  | zero =>
    obtain rfl : bits = [] := List.length_eq_zero_iff.mp (by omega)
    simp [packBytes, bitAt]
  | succ n ih =>
    by_cases hi : i < 8
    · have := byteOfBits_getMsbD (bits.take 8) hi
      simp only [packBytes, bitAt, Nat.div_eq_of_lt hi, Nat.mod_eq_of_lt hi, List.getD_cons_zero, this]
      simp [List.getElem?_take_of_lt hi]
    · obtain ⟨j, rfl⟩ : ∃ j, i = j + 8 := ⟨i - 8, by omega⟩
      have := ih (bits.drop 8) j (by simp; omega)
      simp only [packBytes, bitAt, Nat.add_div_right j (by decide : 0 < 8), Nat.add_mod_right,
        List.getD_cons_succ] at *
      rw [this]
      simp [Nat.add_comm 8 j]

/-- `BitAt(Pack(bits), i) = bits[i]`, and the unused low bits are 0 (R12). -/
theorem bitAt_pack (bits : List Bool) (i : Nat) : bitAt (pack bits) i = bits.getD i false :=
  bitAt_packBytes _ bits i (ceilDiv_eight bits.length).1

end Sys2Proof.Machine
end

