-- ==== Sys2Proof/Laws/ConvCode.lean ====
section
/-! SUPPORT. The size of the encoder's output and of its state (R102, R103). -/

namespace Sys2Proof.Machine

@[simp] theorem symbolBits_length (n v : Nat) : (symbolBits n v).length = n := by simp [symbolBits]

/-- `len(out) = r * len(bits)` (R103). -/
theorem convOut_length (c : Cfg) (r : ConvRate) (s : Nat) (bits : List Bool) :
    (convOut c r s bits).length = convDenominator r * bits.length := by
  induction bits generalizing s with
  | nil => simp [convOut]
  | cons b bs ih =>
    simp only [convOut, List.length_append, symbolBits_length, ih, List.length_cons, Nat.mul_succ]
    omega

/-- A step of the encoder ends in a `w_r`-bit state (R102). -/
theorem convNext_lt (c : Cfg) (r : ConvRate) (s : Nat) (b : Bool) : convNext c r s b < 2 ^ convStateBits c r := by
  unfold convNext
  have := Nat.and_le_right (n := s <<< 1 ||| b.toNat) (m := 2 ^ convStateBits c r - 1)
  have := Nat.two_pow_pos (convStateBits c r)
  omega

/-- The encoder stays in its `w_r`-bit states. -/
theorem convEnd_lt (c : Cfg) (r : ConvRate) {s : Nat} (h : s < 2 ^ convStateBits c r) (bits : List Bool) :
    convEnd c r s bits < 2 ^ convStateBits c r := by
  induction bits generalizing s with
  | nil => exact h
  | cons b bs ih => exact ih (convNext_lt c r s b)

end Sys2Proof.Machine
end

