-- ==== Sys2Proof/Laws/Decode.lean ====
section
/-! SUPPORT. The fields of a word of the format `C64`, and a word from its fields (R70, R71). -/

namespace Sys2Proof

theorem opField_c64 (op a b c : BitVec 8) (imm : BitVec 32) : opField (c64 op a b c imm) = op := by
  ext i hi
  simp only [opField, c64, BitVec.getElem_extractLsb', BitVec.getLsbD_append]
  simp [show ¬ 56 + i < 32 by omega, show ¬ 56 + i - 32 < 8 by omega, show ¬ 56 + i - 32 - 8 < 8 by omega,
    show ¬ 56 + i - 32 - 8 - 8 < 8 by omega, show 56 + i - 32 - 8 - 8 - 8 = i by omega, BitVec.getLsbD_eq_getElem hi]

theorem aField_c64 (op a b c : BitVec 8) (imm : BitVec 32) : aField (c64 op a b c imm) = a := by
  ext i hi
  simp only [aField, c64, BitVec.getElem_extractLsb', BitVec.getLsbD_append]
  simp [show ¬ 48 + i < 32 by omega, show ¬ 48 + i - 32 < 8 by omega, show ¬ 48 + i - 32 - 8 < 8 by omega,
    show 48 + i - 32 - 8 - 8 = i by omega, hi]

theorem bField_c64 (op a b c : BitVec 8) (imm : BitVec 32) : bField (c64 op a b c imm) = b := by
  ext i hi
  simp only [bField, c64, BitVec.getElem_extractLsb', BitVec.getLsbD_append]
  simp [show ¬ 40 + i < 32 by omega, show ¬ 40 + i - 32 < 8 by omega, show 40 + i - 32 - 8 = i by omega, hi]

theorem cField_c64 (op a b c : BitVec 8) (imm : BitVec 32) : cField (c64 op a b c imm) = c := by
  ext i hi
  simp only [cField, c64, BitVec.getElem_extractLsb', BitVec.getLsbD_append]
  simp [show ¬ 32 + i < 32 by omega, show 32 + i - 32 = i by omega, hi]

theorem immField_c64 (op a b c : BitVec 8) (imm : BitVec 32) : immField (c64 op a b c imm) = imm := by
  ext i hi
  simp only [immField, c64, BitVec.getElem_extractLsb', BitVec.getLsbD_append]
  simp [hi]

/-- A word is put together again from its five fields. -/
theorem c64_fields (w : CommandWord) : c64 (opField w) (aField w) (bField w) (cField w) (immField w) = w := by
  refine BitVec.eq_of_getLsbD_eq fun i hi => ?_
  simp only [c64, opField, aField, bField, cField, immField, BitVec.getLsbD_append, BitVec.getLsbD_extractLsb']
  split
  · simp [*]
  · split
    · simp [*, show 32 + (i - 32) = i by omega]
    · split
      · simp [*, show 40 + (i - 32 - 8) = i by omega]
      · split
        · simp [*, show 48 + (i - 32 - 8 - 8) = i by omega]
        · simp [show i - 32 - 8 - 8 - 8 < 8 by omega, show 56 + (i - 32 - 8 - 8 - 8) = i by omega]

theorem idPart_configImm (grid : Grid) (id : Nat) : idPart (configImm grid id) = BitVec.ofNat 16 id := by
  ext i hi
  simp only [idPart, configImm, BitVec.getElem_extractLsb', BitVec.getLsbD_append]
  simp [hi]

theorem reservedPart_configImm (grid : Grid) (id : Nat) : reservedPart (configImm grid id) = 0 := by
  ext i hi
  simp only [reservedPart, configImm, BitVec.getElem_extractLsb', BitVec.getLsbD_append]
  simp [show ¬ 17 + i < 16 by omega, show ¬ 17 + i - 16 < 1 by omega]

theorem gridPart_configImm (grid : Grid) (id : Nat) : gridPart (configImm grid id) = grid := by
  have h : (configImm grid id).getLsbD 16 = (BitVec.ofNat 1 grid.code).getLsbD 0 := by
    simp only [configImm, BitVec.getLsbD_append]
    simp
  unfold gridPart
  rw [h]
  cases grid <;> rfl

/-- The `imm` of a configuration command is put together again from its three parts. -/
theorem configImm_parts (imm : BitVec 32) (h : reservedPart imm = 0) :
    configImm (gridPart imm) (idPart imm).toNat = imm := by
  have hz : ∀ j, j < 15 → imm.getLsbD (17 + j) = false := by
    intro j hj
    have := congrArg (fun v => v.getLsbD j) h
    simpa [reservedPart, BitVec.getLsbD_extractLsb', hj] using this
  have hg : (BitVec.ofNat 1 (gridPart imm).code).getLsbD 0 = imm.getLsbD 16 := by
    unfold gridPart
    cases imm.getLsbD 16 <;> rfl
  refine BitVec.eq_of_getLsbD_eq fun i hi => ?_
  simp only [configImm, BitVec.getLsbD_append, BitVec.ofNat_toNat]
  split
  · simp [idPart, *]
  · split
    · obtain rfl : i = 16 := by omega
      exact hg
    · have := hz (i - 17) (by omega)
      rw [show 17 + (i - 17) = i by omega] at this
      simp [this]

end Sys2Proof
end

