-- ==== Sys2Proof/Laws/State.lean ====
section
/-! SUPPORT. One lemma per field for every named update of State and of a unit, true by rfl, so that no later proof
unfolds a record update. -/

namespace Sys2Proof.Machine

/-! ## Idling the `HOP` unit (R144, R208) -/

@[simp] theorem hopIdle_nGrid (h : HopUnit) : (hopIdle h).nGrid = h.nGrid := rfl

@[simp] theorem hopIdle_w (h : HopUnit) : (hopIdle h).w = h.w := rfl

@[simp] theorem hopIdle_initState (h : HopUnit) : (hopIdle h).initState = h.initState := rfl

@[simp] theorem hopIdle_state (h : HopUnit) : (hopIdle h).state = h.initState := rfl

@[simp] theorem hopIdle_poly (h : HopUnit) : (hopIdle h).poly = h.poly := rfl

@[simp] theorem hopIdle_seed (h : HopUnit) : (hopIdle h).seed = h.seed := rfl

@[simp] theorem hopIdle_bitsRemaining (h : HopUnit) : (hopIdle h).bitsRemaining = 0 := rfl

@[simp] theorem hopIdle_hopsRemaining (h : HopUnit) : (hopIdle h).hopsRemaining = 0 := rfl

@[simp] theorem hopIdle_hopIndex (h : HopUnit) : (hopIdle h).hopIndex = 0 := rfl

@[simp] theorem hopIdle_hdrCount (h : HopUnit) : (hopIdle h).hdrCount = h.hdrCount := rfl

@[simp] theorem hopIdle_centre (h : HopUnit) : (hopIdle h).centre = h.centre := rfl

/-! ## `ApplyConfig` (R144) -/

@[simp] theorem applyConfig_CFG (bw hdrCount : Nat) (grid : Grid) (id : Nat) (v : HopParams) (s : State) :
    (applyConfig bw hdrCount grid id v s).CFG = s.CFG := rfl

@[simp] theorem applyConfig_res (bw hdrCount : Nat) (grid : Grid) (id : Nat) (v : HopParams) (s : State) :
    (applyConfig bw hdrCount grid id v s).res = s.res := rfl

@[simp] theorem applyConfig_pc (bw hdrCount : Nat) (grid : Grid) (id : Nat) (v : HopParams) (s : State) :
    (applyConfig bw hdrCount grid id v s).pc = s.pc := rfl

@[simp] theorem applyConfig_kind (bw hdrCount : Nat) (grid : Grid) (id : Nat) (v : HopParams) (s : State) :
    (applyConfig bw hdrCount grid id v s).kind = s.kind := rfl

@[simp] theorem applyConfig_conv (bw hdrCount : Nat) (grid : Grid) (id : Nat) (v : HopParams) (s : State) :
    (applyConfig bw hdrCount grid id v s).conv = s.conv := rfl

@[simp] theorem applyConfig_bch (bw hdrCount : Nat) (grid : Grid) (id : Nat) (v : HopParams) (s : State) :
    (applyConfig bw hdrCount grid id v s).bch = s.bch := rfl

@[simp] theorem applyConfig_begun (bw hdrCount : Nat) (grid : Grid) (id : Nat) (v : HopParams) (s : State) :
    (applyConfig bw hdrCount grid id v s).begun = s.begun := rfl

@[simp] theorem applyConfig_cfg (bw hdrCount : Nat) (grid : Grid) (id : Nat) (v : HopParams) (s : State) :
    (applyConfig bw hdrCount grid id v s).cfg = ⟨bw, v.cr, hdrCount, grid, id⟩ := rfl

@[simp] theorem applyConfig_frame (bw hdrCount : Nat) (grid : Grid) (id : Nat) (v : HopParams) (s : State) :
    (applyConfig bw hdrCount grid id v s).frame = { s.frame with valid := false } := rfl

@[simp] theorem applyConfig_hop (bw hdrCount : Nat) (grid : Grid) (id : Nat) (v : HopParams) (s : State) :
    (applyConfig bw hdrCount grid id v s).hop = hopIdle { s.hop with
      nGrid := v.nGrid, w := v.w, initState := v.initState, poly := v.poly, seed := v.seed } := rfl

@[simp] theorem applyConfig_inBuf (bw hdrCount : Nat) (grid : Grid) (id : Nat) (v : HopParams) (s : State) :
    (applyConfig bw hdrCount grid id v s).inBuf = s.inBuf := rfl

@[simp] theorem applyConfig_outBuf (bw hdrCount : Nat) (grid : Grid) (id : Nat) (v : HopParams) (s : State) :
    (applyConfig bw hdrCount grid id v s).outBuf = s.outBuf := rfl

@[simp] theorem applyConfig_frameBuf (bw hdrCount : Nat) (grid : Grid) (id : Nat) (v : HopParams) (s : State) :
    (applyConfig bw hdrCount grid id v s).frameBuf = s.frameBuf := rfl

@[simp] theorem applyConfig_pending (bw hdrCount : Nat) (grid : Grid) (id : Nat) (v : HopParams) (s : State) :
    (applyConfig bw hdrCount grid id v s).pending = s.pending := rfl

@[simp] theorem applyConfig_seen (bw hdrCount : Nat) (grid : Grid) (id : Nat) (v : HopParams) (s : State) :
    (applyConfig bw hdrCount grid id v s).seen = s.seen := rfl

@[simp] theorem applyConfig_draws (bw hdrCount : Nat) (grid : Grid) (id : Nat) (v : HopParams) (s : State) :
    (applyConfig bw hdrCount grid id v s).draws = s.draws := rfl

/-! ## What `FHSS.ENCODE` leaves (R145) -/

@[simp] theorem encoded_CFG (p : List Byte) (s : State) : (encoded p s).CFG = s.CFG := rfl

@[simp] theorem encoded_pc (p : List Byte) (s : State) : (encoded p s).pc = s.pc := rfl

@[simp] theorem encoded_kind (p : List Byte) (s : State) : (encoded p s).kind = s.kind := rfl

@[simp] theorem encoded_bch (p : List Byte) (s : State) : (encoded p s).bch = s.bch := rfl

@[simp] theorem encoded_begun (p : List Byte) (s : State) : (encoded p s).begun = s.begun := rfl

@[simp] theorem encoded_cfg (p : List Byte) (s : State) : (encoded p s).cfg = s.cfg := rfl

@[simp] theorem encoded_hop (p : List Byte) (s : State) : (encoded p s).hop = s.hop := rfl

@[simp] theorem encoded_inBuf (p : List Byte) (s : State) : (encoded p s).inBuf = s.inBuf := rfl

@[simp] theorem encoded_outBuf (p : List Byte) (s : State) : (encoded p s).outBuf = s.outBuf := rfl

@[simp] theorem encoded_pending (p : List Byte) (s : State) : (encoded p s).pending = s.pending := rfl

@[simp] theorem encoded_seen (p : List Byte) (s : State) : (encoded p s).seen = s.seen := rfl

@[simp] theorem encoded_draws (p : List Byte) (s : State) : (encoded p s).draws = s.draws := rfl

@[simp] theorem encoded_frame (p : List Byte) (s : State) :
    (encoded p s).frame = ⟨true, frameBitLength s.CFG.toCfg s.cfg p.length, frameHopCount s.CFG.toCfg s.cfg p.length⟩ := rfl

@[simp] theorem encoded_conv (p : List Byte) (s : State) :
    (encoded p s).conv = ⟨some .two, (encodeFrame s.CFG.toCfg s.cfg p).2⟩ := rfl

@[simp] theorem encoded_frameBuf (p : List Byte) (s : State) :
    (encoded p s).frameBuf = Memory.writeBytes s.frameBuf 0 (frameImage (encodeFrame s.CFG.toCfg s.cfg p).1) := rfl

@[simp] theorem encoded_res (p : List Byte) (s : State) :
    (encoded p s).res = ⟨toWord (frameBitLength s.CFG.toCfg s.cfg p.length), toWord (frameHopCount s.CFG.toCfg s.cfg p.length),
      toWord (ceilDiv (frameBitLength s.CFG.toCfg s.cfg p.length) 8),
      toWord (frameExpandedBits s.CFG.toCfg s.cfg p.length)⟩ := rfl

/-! ## What `HOP.STEP` leaves (R196) -/

@[simp] theorem stepped_CFG (st hopv : Nat) (s : State) : (stepped st hopv s).CFG = s.CFG := rfl

@[simp] theorem stepped_pc (st hopv : Nat) (s : State) : (stepped st hopv s).pc = s.pc := rfl

@[simp] theorem stepped_kind (st hopv : Nat) (s : State) : (stepped st hopv s).kind = s.kind := rfl

@[simp] theorem stepped_conv (st hopv : Nat) (s : State) : (stepped st hopv s).conv = s.conv := rfl

@[simp] theorem stepped_bch (st hopv : Nat) (s : State) : (stepped st hopv s).bch = s.bch := rfl

@[simp] theorem stepped_begun (st hopv : Nat) (s : State) : (stepped st hopv s).begun = s.begun := rfl

@[simp] theorem stepped_cfg (st hopv : Nat) (s : State) : (stepped st hopv s).cfg = s.cfg := rfl

@[simp] theorem stepped_inBuf (st hopv : Nat) (s : State) : (stepped st hopv s).inBuf = s.inBuf := rfl

@[simp] theorem stepped_outBuf (st hopv : Nat) (s : State) : (stepped st hopv s).outBuf = s.outBuf := rfl

@[simp] theorem stepped_frameBuf (st hopv : Nat) (s : State) : (stepped st hopv s).frameBuf = s.frameBuf := rfl

@[simp] theorem stepped_pending (st hopv : Nat) (s : State) : (stepped st hopv s).pending = s.pending := rfl

@[simp] theorem stepped_seen (st hopv : Nat) (s : State) : (stepped st hopv s).seen = s.seen := rfl

@[simp] theorem stepped_draws (st hopv : Nat) (s : State) : (stepped st hopv s).draws = s.draws := rfl

@[simp] theorem stepped_res (st hopv : Nat) (s : State) :
    (stepped st hopv s).res = ⟨toWord hopv, rawFrequency s.hop.centre (stepOffset hopv s), toWord (stepBits s), toWord s.hop.hopIndex⟩ := rfl

@[simp] theorem stepped_frame (st hopv : Nat) (s : State) :
    (stepped st hopv s).frame = { s.frame with valid := if s.hop.hopsRemaining - 1 = 0 then false else s.frame.valid } := rfl

@[simp] theorem stepped_hop_nGrid (st hopv : Nat) (s : State) : (stepped st hopv s).hop.nGrid = s.hop.nGrid := rfl

@[simp] theorem stepped_hop_w (st hopv : Nat) (s : State) : (stepped st hopv s).hop.w = s.hop.w := rfl

@[simp] theorem stepped_hop_initState (st hopv : Nat) (s : State) :
    (stepped st hopv s).hop.initState = s.hop.initState := rfl

@[simp] theorem stepped_hop_state (st hopv : Nat) (s : State) : (stepped st hopv s).hop.state = st := rfl

@[simp] theorem stepped_hop_poly (st hopv : Nat) (s : State) : (stepped st hopv s).hop.poly = s.hop.poly := rfl

@[simp] theorem stepped_hop_seed (st hopv : Nat) (s : State) : (stepped st hopv s).hop.seed = s.hop.seed := rfl

@[simp] theorem stepped_hop_bitsRemaining (st hopv : Nat) (s : State) :
    (stepped st hopv s).hop.bitsRemaining = s.hop.bitsRemaining - stepBits s := rfl

@[simp] theorem stepped_hop_hopsRemaining (st hopv : Nat) (s : State) :
    (stepped st hopv s).hop.hopsRemaining = s.hop.hopsRemaining - 1 := rfl

@[simp] theorem stepped_hop_hopIndex (st hopv : Nat) (s : State) :
    (stepped st hopv s).hop.hopIndex = s.hop.hopIndex + 1 := rfl

@[simp] theorem stepped_hop_hdrCount (st hopv : Nat) (s : State) :
    (stepped st hopv s).hop.hdrCount = s.hop.hdrCount := rfl

@[simp] theorem stepped_hop_centre (st hopv : Nat) (s : State) :
    (stepped st hopv s).hop.centre = s.hop.centre := rfl

/-! ## A value reaching the host (R52) -/

@[simp] theorem noteSeen_CFG (loc : Loc) (v : Word) (s : State) : (noteSeen loc v s).CFG = s.CFG := rfl

@[simp] theorem noteSeen_res (loc : Loc) (v : Word) (s : State) : (noteSeen loc v s).res = s.res := rfl

@[simp] theorem noteSeen_pc (loc : Loc) (v : Word) (s : State) : (noteSeen loc v s).pc = s.pc := rfl

@[simp] theorem noteSeen_kind (loc : Loc) (v : Word) (s : State) : (noteSeen loc v s).kind = s.kind := rfl

@[simp] theorem noteSeen_conv (loc : Loc) (v : Word) (s : State) : (noteSeen loc v s).conv = s.conv := rfl

@[simp] theorem noteSeen_bch (loc : Loc) (v : Word) (s : State) : (noteSeen loc v s).bch = s.bch := rfl

@[simp] theorem noteSeen_begun (loc : Loc) (v : Word) (s : State) : (noteSeen loc v s).begun = s.begun := rfl

@[simp] theorem noteSeen_cfg (loc : Loc) (v : Word) (s : State) : (noteSeen loc v s).cfg = s.cfg := rfl

@[simp] theorem noteSeen_frame (loc : Loc) (v : Word) (s : State) : (noteSeen loc v s).frame = s.frame := rfl

@[simp] theorem noteSeen_hop (loc : Loc) (v : Word) (s : State) : (noteSeen loc v s).hop = s.hop := rfl

@[simp] theorem noteSeen_inBuf (loc : Loc) (v : Word) (s : State) : (noteSeen loc v s).inBuf = s.inBuf := rfl

@[simp] theorem noteSeen_outBuf (loc : Loc) (v : Word) (s : State) : (noteSeen loc v s).outBuf = s.outBuf := rfl

@[simp] theorem noteSeen_frameBuf (loc : Loc) (v : Word) (s : State) :
    (noteSeen loc v s).frameBuf = s.frameBuf := rfl

@[simp] theorem noteSeen_pending (loc : Loc) (v : Word) (s : State) : (noteSeen loc v s).pending = s.pending := rfl

@[simp] theorem noteSeen_seen (loc : Loc) (v : Word) (s : State) :
    (noteSeen loc v s).seen = (loc, v) :: s.seen := rfl

@[simp] theorem noteSeen_draws (loc : Loc) (v : Word) (s : State) : (noteSeen loc v s).draws = s.draws := rfl

/-! ## The reset event (R250) -/

@[simp] theorem hardReset_CFG (s : State) : (hardReset s).CFG = s.CFG := rfl

@[simp] theorem hardReset_res (s : State) : (hardReset s).res = (State.resetWith s.CFG).res := rfl

@[simp] theorem hardReset_pc (s : State) : (hardReset s).pc = (State.resetWith s.CFG).pc := rfl

@[simp] theorem hardReset_kind (s : State) : (hardReset s).kind = (State.resetWith s.CFG).kind := rfl

@[simp] theorem hardReset_conv (s : State) : (hardReset s).conv = (State.resetWith s.CFG).conv := rfl

@[simp] theorem hardReset_bch (s : State) : (hardReset s).bch = (State.resetWith s.CFG).bch := rfl

@[simp] theorem hardReset_begun (s : State) : (hardReset s).begun = (State.resetWith s.CFG).begun := rfl

@[simp] theorem hardReset_cfg (s : State) : (hardReset s).cfg = (State.resetWith s.CFG).cfg := rfl

@[simp] theorem hardReset_frame (s : State) : (hardReset s).frame = (State.resetWith s.CFG).frame := rfl

@[simp] theorem hardReset_hop (s : State) : (hardReset s).hop = (State.resetWith s.CFG).hop := rfl

@[simp] theorem hardReset_inBuf (s : State) : (hardReset s).inBuf = (State.resetWith s.CFG).inBuf := rfl

@[simp] theorem hardReset_outBuf (s : State) : (hardReset s).outBuf = (State.resetWith s.CFG).outBuf := rfl

@[simp] theorem hardReset_frameBuf (s : State) : (hardReset s).frameBuf = (State.resetWith s.CFG).frameBuf := rfl

@[simp] theorem hardReset_pending (s : State) : (hardReset s).pending = s.pending := rfl

@[simp] theorem hardReset_seen (s : State) : (hardReset s).seen = s.seen := rfl

@[simp] theorem hardReset_draws (s : State) : (hardReset s).draws = s.draws := rfl

/-! ## Handing over a word -/

@[simp] theorem withFetchWord_CFG (s : State) (nbits w : Nat) : (s.withFetchWord nbits w).CFG = s.CFG := rfl

@[simp] theorem withFetchWord_res (s : State) (nbits w : Nat) : (s.withFetchWord nbits w).res = s.res := rfl

@[simp] theorem withFetchWord_pc (s : State) (nbits w : Nat) : (s.withFetchWord nbits w).pc = s.pc := rfl

@[simp] theorem withFetchWord_kind (s : State) (nbits w : Nat) : (s.withFetchWord nbits w).kind = s.kind := rfl

@[simp] theorem withFetchWord_conv (s : State) (nbits w : Nat) : (s.withFetchWord nbits w).conv = s.conv := rfl

@[simp] theorem withFetchWord_bch (s : State) (nbits w : Nat) : (s.withFetchWord nbits w).bch = s.bch := rfl

@[simp] theorem withFetchWord_begun (s : State) (nbits w : Nat) : (s.withFetchWord nbits w).begun = s.begun := rfl

@[simp] theorem withFetchWord_cfg (s : State) (nbits w : Nat) : (s.withFetchWord nbits w).cfg = s.cfg := rfl

@[simp] theorem withFetchWord_frame (s : State) (nbits w : Nat) : (s.withFetchWord nbits w).frame = s.frame := rfl

@[simp] theorem withFetchWord_hop (s : State) (nbits w : Nat) : (s.withFetchWord nbits w).hop = s.hop := rfl

@[simp] theorem withFetchWord_inBuf (s : State) (nbits w : Nat) : (s.withFetchWord nbits w).inBuf = s.inBuf := rfl

@[simp] theorem withFetchWord_outBuf (s : State) (nbits w : Nat) :
    (s.withFetchWord nbits w).outBuf = s.outBuf := rfl

@[simp] theorem withFetchWord_frameBuf (s : State) (nbits w : Nat) :
    (s.withFetchWord nbits w).frameBuf = s.frameBuf := rfl

@[simp] theorem withFetchWord_pending (s : State) (nbits w : Nat) :
    (s.withFetchWord nbits w).pending = .command (tableWord nbits w) :: s.pending := rfl

@[simp] theorem withFetchWord_seen (s : State) (nbits w : Nat) : (s.withFetchWord nbits w).seen = s.seen := rfl

@[simp] theorem withFetchWord_draws (s : State) (nbits w : Nat) : (s.withFetchWord nbits w).draws = s.draws := rfl

/-! ## Buffers -/

@[simp] theorem buffer_inBuf (s : State) : s.buffer .inBuf = s.inBuf := rfl

@[simp] theorem buffer_outBuf (s : State) : s.buffer .outBuf = s.outBuf := rfl

@[simp] theorem buffer_frameBuf (s : State) : s.buffer .frameBuf = s.frameBuf := rfl

end Sys2Proof.Machine
end

