-- ==== Sys2Proof/Laws/Memory.lean ====
section
/-! SUPPORT. The laws of a buffer: reading after writing, and that a write keeps the canonical form (R50, R51). -/

namespace Sys2Proof.Machine

/-- Every offset of a run lies in the run. -/
theorem cellsFrom_offset {v : List Byte} {a : Nat} {c : Host.Cell} (h : c ∈ cellsFrom a v) :
    a ≤ c.1 ∧ c.1 < a + v.length := by
  induction v generalizing a with
  | nil => simp [cellsFrom] at h
  | cons b bs ih =>
    rcases List.mem_cons.mp h with rfl | h
    · simp
    · have := ih h
      simp only [List.length_cons]
      omega

/-- A run holds its bytes in order. -/
theorem lookup_cellsFrom (v : List Byte) (a i : Nat) : (cellsFrom a v).lookup (a + i) = v[i]? := by
  induction v generalizing a i with
  | nil => simp [cellsFrom]
  | cons b bs ih =>
    cases i with
    | zero => simp [cellsFrom]
    | succ i =>
      have hne : (a + (i + 1) == a) = false := by simp
      rw [cellsFrom, List.lookup_cons, hne]
      simpa [Nat.add_assoc, Nat.add_comm 1 i] using ih (a + 1) i

/-- Looking up an offset among cells that all lie elsewhere. -/
theorem lookup_eq_none_of_ne {m : Memory} {x : Nat} (h : ∀ c ∈ m, c.1 ≠ x) : m.lookup x = none := by
  rw [List.lookup_eq_none_iff]
  intro p hp
  simpa using fun e => h p hp e.symm

/-- Looking up an offset in the cells that a condition on offsets keeps. -/
theorem lookup_filter_of_keep {m : Memory} {p : Nat → Bool} {x : Nat} (h : p x = true) :
    (m.filter (fun c => p c.1)).lookup x = m.lookup x := by
  induction m with
  | nil => rfl
  | cons c m ih =>
    obtain ⟨a, b⟩ := c
    by_cases hx : x = a
    · subst hx
      simp [h]
    · have hxa : (x == a) = false := by simpa using hx
      by_cases hp : p a = true <;> simp [hp, List.lookup_cons, hxa, ih]

/-- What a buffer holds after a write: the cells below, the run, the cells above. -/
theorem read_writeBytes (m : Memory) (a x : Nat) (v : List Byte) :
    Memory.read (Memory.writeBytes m a v) x =
      if x < a then Memory.read m x else if x < a + v.length then v[x - a]? else Memory.read m x := by
  have lo : (m.filter (fun c => decide (c.1 < a))).lookup x = if x < a then m.lookup x else none := by
    split
    · exact lookup_filter_of_keep (p := fun y => decide (y < a)) (by simpa)
    · refine lookup_eq_none_of_ne fun c hc e => ?_
      have := (List.mem_filter.mp hc).2
      simp only [decide_eq_true_eq] at this
      omega
  have mid : (cellsFrom a v).lookup x = if a ≤ x then v[x - a]? else none := by
    split
    · rename_i hx
      simpa [Nat.add_sub_cancel' hx] using lookup_cellsFrom v a (x - a)
    · exact lookup_eq_none_of_ne fun c hc e => by have := cellsFrom_offset hc; omega
  have hi : (m.filter (fun c => decide (a + v.length ≤ c.1))).lookup x =
      if a + v.length ≤ x then m.lookup x else none := by
    split
    · exact lookup_filter_of_keep (p := fun y => decide (a + v.length ≤ y)) (by simpa)
    · refine lookup_eq_none_of_ne fun c hc e => ?_
      have := (List.mem_filter.mp hc).2
      simp only [decide_eq_true_eq] at this
      omega
  unfold Memory.read Memory.writeBytes
  rw [List.lookup_append, List.lookup_append, lo, mid, hi]
  by_cases h1 : x < a
  · have h2 : ¬ a ≤ x := by omega
    have h3 : ¬ a + v.length ≤ x := by omega
    simp [h1, h2, h3]
  · have h2 : a ≤ x := by omega
    by_cases h3 : x < a + v.length
    · have h4 : ¬ a + v.length ≤ x := by omega
      simp [h1, h2, h3, h4]
    · have h4 : a + v.length ≤ x := by omega
      have h5 : v.length ≤ x - a := by omega
      simp [h1, h2, h3, h4, h5]

/-- Reading below a run that has been written. -/
theorem read_writeBytes_below (m : Memory) {a x : Nat} (v : List Byte) (h : x < a) :
    Memory.read (Memory.writeBytes m a v) x = Memory.read m x := by
  rw [read_writeBytes, if_pos h]

/-- Reading above a run that has been written. -/
theorem read_writeBytes_above (m : Memory) {a x : Nat} (v : List Byte) (h : a + v.length ≤ x) :
    Memory.read (Memory.writeBytes m a v) x = Memory.read m x := by
  rw [read_writeBytes, if_neg (by omega), if_neg (by omega)]

/-- Reading in a run that has been written (R51). -/
theorem read_writeBytes_inside (m : Memory) (a : Nat) (v : List Byte) {i : Nat} (h : i < v.length) :
    Memory.read (Memory.writeBytes m a v) (a + i) = some v[i] := by
  rw [read_writeBytes, if_neg (by omega), if_pos (by omega)]
  simp [h]

/-- The offsets of a run rise strictly. -/
theorem cellsFrom_sorted (v : List Byte) (a : Nat) : ((cellsFrom a v).map Prod.fst).Pairwise (· < ·) := by
  induction v generalizing a with
  | nil => simp [cellsFrom]
  | cons b bs ih =>
    simp only [cellsFrom, List.map_cons, List.pairwise_cons]
    refine ⟨fun x hx => ?_, ih (a + 1)⟩
    obtain ⟨c, hc, rfl⟩ := List.mem_map.mp hx
    have := cellsFrom_offset hc
    omega

/-- Filtering keeps the canonical form. -/
theorem Memory.wf_filter {m : Memory} (h : Memory.wf m = true) (p : Host.Cell → Bool) :
    Memory.wf (m.filter p) = true := by
  simp only [Memory.wf, decide_eq_true_eq] at *
  exact h.sublist ((List.filter_sublist (l := m)).map Prod.fst)

/-- A write keeps the canonical form. -/
theorem Memory.wf_writeBytes {m : Memory} (h : Memory.wf m = true) (a : Nat) (v : List Byte) :
    Memory.wf (Memory.writeBytes m a v) = true := by
  have hlo := Memory.wf_filter h (fun c => decide (c.1 < a))
  have hhi := Memory.wf_filter h (fun c => decide (a + v.length ≤ c.1))
  unfold Memory.wf Memory.writeBytes
  rw [decide_eq_true_eq, List.map_append, List.map_append, List.pairwise_append, List.pairwise_append]
  simp only [List.mem_append, List.mem_map]
  have lo : ∀ c ∈ m.filter (fun c => decide (c.1 < a)), c.1 < a := fun c hc => by
    simpa using (List.mem_filter.mp hc).2
  have hi : ∀ c ∈ m.filter (fun c => decide (a + v.length ≤ c.1)), a + v.length ≤ c.1 := fun c hc => by
    simpa using (List.mem_filter.mp hc).2
  refine ⟨⟨of_decide_eq_true hlo, cellsFrom_sorted v a, ?_⟩, of_decide_eq_true hhi, ?_⟩
  · intro x ⟨c, hc, hx⟩ y ⟨d, hd, hy⟩
    have := lo c hc
    have := cellsFrom_offset hd
    omega
  · intro x hx y ⟨d, hd, hy⟩
    have := hi d hd
    rcases hx with ⟨c, hc, hx⟩ | ⟨c, hc, hx⟩
    · have := lo c hc
      omega
    · have := cellsFrom_offset hc
      omega

/-- A write inside a buffer leaves every byte inside it. -/
theorem Memory.within_writeBytes {size : Nat} {m : Memory} (h : Memory.within size m = true) {a : Nat} {v : List Byte}
    (hv : a + v.length ≤ size) : Memory.within size (Memory.writeBytes m a v) = true := by
  simp only [Memory.within, Memory.writeBytes, List.all_eq_true, List.mem_append, List.mem_filter,
    decide_eq_true_eq] at *
  rintro c ((⟨hc, -⟩ | hc) | ⟨hc, -⟩)
  · exact h c hc
  · have := cellsFrom_offset hc
    omega
  · exact h c hc

/-- The empty buffer is in canonical form. -/
theorem Memory.wf_nil : Memory.wf [] = true := rfl

/-- `MemRead` answers exactly the bytes that are there (R50). -/
theorem readBytes_eq_some_iff {m : Memory} {a n : Nat} {bytes : List Byte} :
    Memory.readBytes m a n = some bytes ↔
      bytes.length = n ∧ ∀ i, (h : i < bytes.length) → Memory.read m (a + i) = some bytes[i] := by
  induction n generalizing a bytes with
  | zero =>
    constructor
    · intro h
      obtain rfl : [] = bytes := by simpa [Memory.readBytes] using h
      simp
    · rintro ⟨h, -⟩
      obtain rfl := List.length_eq_zero_iff.mp h
      rfl
  | succ n ih =>
    cases bytes with
    | nil =>
      simp only [Memory.readBytes, List.length_nil]
      constructor
      · intro h
        split at h <;> simp at h
      · rintro ⟨h, -⟩
        omega
    | cons b bs =>
      simp only [Memory.readBytes]
      constructor
      · intro h
        split at h
        · rename_i b' bs' hb hbs
          obtain ⟨rfl, rfl⟩ : b' = b ∧ bs' = bs := by simpa using h
          obtain ⟨hl, hg⟩ := ih.mp hbs
          refine ⟨by simp [hl], fun i hi => ?_⟩
          cases i with
          | zero => simpa using hb
          | succ i =>
            have := hg i (by simpa using hi)
            simpa [Nat.add_assoc, Nat.add_comm 1 i] using this
        · simp at h
      · rintro ⟨hl, hg⟩
        have h0 : Memory.read m a = some b := hg 0 (by simp)
        have hs : Memory.readBytes m (a + 1) n = some bs := by
          refine ih.mpr ⟨by simpa using hl, fun i hi => ?_⟩
          have := hg (i + 1) (by simpa using hi)
          simpa [Nat.add_assoc, Nat.add_comm 1 i] using this
        rw [h0, hs]

/-- `MemRead` answers nothing exactly when a byte holds no value (R37). -/
theorem readBytes_eq_none_iff {m : Memory} {a n : Nat} :
    Memory.readBytes m a n = none ↔ ∃ i, i < n ∧ Memory.read m (a + i) = none := by
  induction n generalizing a with
  | zero => simp [Memory.readBytes]
  | succ n ih =>
    have hsplit : (∃ i, i < n + 1 ∧ Memory.read m (a + i) = none) ↔
        Memory.read m a = none ∨ ∃ i, i < n ∧ Memory.read m (a + 1 + i) = none := by
      constructor
      · rintro ⟨i, hi, h⟩
        cases i with
        | zero => exact .inl (by simpa using h)
        | succ i => exact .inr ⟨i, by omega, by simpa [Nat.add_assoc, Nat.add_comm 1 i] using h⟩
      · rintro (h | ⟨i, hi, h⟩)
        · exact ⟨0, by omega, by simpa using h⟩
        · exact ⟨i + 1, by omega, by simpa [Nat.add_assoc, Nat.add_comm 1 i] using h⟩
    rw [hsplit, ← ih, Memory.readBytes]
    cases Memory.read m a <;> cases Memory.readBytes m (a + 1) n <;> simp

end Sys2Proof.Machine
end

