-- ==== Sys2Proof/Laws/Ops.lean ====
section
/-! SUPPORT. What a command's end and a step can do, said once. -/

namespace Sys2Proof.Machine

theorem complete_eq (k : ResultKind) (s : State) : complete k s = .next { s with kind := k, pc := s.pc + 1 } := rfl

theorem finish_eq (s : State) : finish s = .next { s with kind := .ok, pc := s.pc + 1 } := rfl

theorem raise_eq (k : ResultKind) (s : State) : raise k s = .next { s with kind := k, pc := s.pc + 1 } := rfl

/-- `finish` answers one state. -/
theorem finish_eq_next_iff {s t : State} : finish s = .next t ↔ t = { s with kind := .ok, pc := s.pc + 1 } := by
  rw [finish_eq, Host.Outcome.next.injEq, eq_comm]

/-- `raise` answers one state. -/
theorem raise_eq_next_iff {k : ResultKind} {s t : State} :
    raise k s = .next t ↔ t = { s with kind := k, pc := s.pc + 1 } := by
  rw [raise_eq, Host.Outcome.next.injEq, eq_comm]

/-- A step with no event pending. -/
theorem step_nil {s : State} (h : s.pending = []) : step s = .refused .awaitingHost := by
  unfold step
  rw [h]

/-- A step with an event pending. -/
theorem step_cons {s : State} {e : Event} {rest : List Event} (h : s.pending = e :: rest) :
    step s = takeEvent e { s with pending := rest } := by
  unfold step
  rw [h]

/-- What a step that answers a next state can be: a command run, an illegal word, a host access, a reset. -/
theorem step_cases {s t : State} (h : step s = .next t) :
    ∃ e rest, s.pending = e :: rest ∧
      ((∃ w i, e = .command w ∧ decode w = .ok i ∧ exec i { s with pending := rest } = .next t) ∨
        (∃ w x, e = .command w ∧ decode w = .error x ∧
          t = { s with pending := rest, kind := .commandInvalid, pc := s.pc + 1 }) ∨
        (∃ loc, e = .read loc ∧ hostRead loc { s with pending := rest } = .next t) ∨
        (∃ loc b, e = .write loc b ∧ hostWrite loc b { s with pending := rest } = .next t) ∨
        (e = .reset ∧ t = hardReset { s with pending := rest })) := by
  cases hp : s.pending with
  | nil => rw [step_nil hp] at h; cases h
  | cons e rest =>
    rw [step_cons hp] at h
    refine ⟨e, rest, rfl, ?_⟩
    cases e with
    | command w =>
      simp only [takeEvent, runWord] at h
      cases hd : decode w with
      | ok i => rw [hd] at h; exact .inl ⟨w, i, rfl, hd, h⟩
      | error x => rw [hd] at h; exact .inr (.inl ⟨w, x, rfl, hd, raise_eq_next_iff.mp h⟩)
    | read loc => exact .inr (.inr (.inl ⟨loc, rfl, h⟩))
    | write loc b => exact .inr (.inr (.inr (.inl ⟨loc, b, rfl, h⟩)))
    | reset =>
      simp only [takeEvent, Host.Outcome.next.injEq] at h
      exact .inr (.inr (.inr (.inr ⟨rfl, h.symm⟩)))

/-- What a host read that answers a next state leaves: the same state, but for what the host has seen and the draws. -/
theorem hostRead_next {loc : Loc} {s t : State} (h : hostRead loc s = .next t) :
    ∃ v d, t = { s with seen := (loc, v) :: s.seen, draws := d } := by
  unfold hostRead at h
  split at h
  · split at h
    · simp only [Host.Outcome.next.injEq] at h
      subst h
      unfold readByte
      split
      · exact ⟨_, s.draws, rfl⟩
      · exact ⟨_, s.draws + 1, rfl⟩
    · cases h
  · split at h
    · simp only [Host.Outcome.next.injEq] at h
      exact ⟨_, s.draws, h.symm⟩
    · cases h
  · simp only [Host.Outcome.next.injEq] at h
    exact ⟨_, s.draws, h.symm⟩

/-- What a host write that answers a next state leaves: one byte of `IN` (R52). -/
theorem hostWrite_next {loc : Loc} {b : Byte} {s t : State} (h : hostWrite loc b s = .next t) :
    ∃ a, loc = .byte .inBuf a ∧ a < inBytes ∧ t = { s with inBuf := Memory.writeBytes s.inBuf a [b] } := by
  unfold hostWrite at h
  split at h
  · split at h
    · rename_i a ha
      simp only [Host.Outcome.next.injEq] at h
      exact ⟨a, rfl, ha, h.symm⟩
    · cases h
  all_goals cases h

end Sys2Proof.Machine
end

