-- ==== Sys2Proof/Laws/Exec.lean ====
section
/-! SUPPORT. What each meaning can do, said once: if it answers next `t`, then `t` is one of these states. -/

namespace Sys2Proof.Machine

/-- The state a command leaves that ends with an error kind (R225). -/
abbrev failed (k : ResultKind) (s : State) : State := { s with kind := k, pc := s.pc + 1 }

/-- The state a command leaves whose effect is the change from `s` to `u`. -/
abbrev done (u : State) : State := { u with kind := .ok, pc := u.pc + 1 }

theorem execConvBegin_next {rate : Nat} {s t : State} (h : execConvBegin rate s = .next t) :
    (rateOfDenominator rate = none ∧ t = failed .invalidRate s) ∨
      ∃ r, rateOfDenominator rate = some r ∧ t = done { s with conv := ⟨some r, 0⟩ } := by
  unfold execConvBegin at h
  split at h
  · exact .inl ⟨‹_›, raise_eq_next_iff.mp h⟩
  · exact .inr ⟨_, ‹_›, finish_eq_next_iff.mp h⟩

/-- The state of a successful `CONV.ENCODE` (R107). -/
abbrev convEncoded (r : ConvRate) (nbits : Nat) (bytes : List Byte) (s : State) : State :=
  { s with
    outBuf := Memory.writeBytes s.outBuf 0 (pack (convOut s.CFG.toCfg r s.conv.state (bitsOf bytes nbits)))
    conv := ⟨some r, convEnd s.CFG.toCfg r s.conv.state (bitsOf bytes nbits)⟩
    res := { s.res with
      r0 := toWord (convDenominator r * nbits)
      r1 := toWord (ceilDiv (convDenominator r * nbits) 8) } }

theorem execConvEncode_next {nbits : Nat} {s t : State} (h : execConvEncode nbits s = .next t) :
    (s.conv.rate = none ∧ t = failed .notInitialised s) ∨
      (s.conv.rate ≠ none ∧ nbits > 8 * inBytes ∧ t = failed .invalidLength s) ∨
      ∃ r bytes, s.conv.rate = some r ∧ nbits ≤ 8 * inBytes ∧
        Memory.readBytes s.inBuf 0 (ceilDiv nbits 8) = some bytes ∧ t = done (convEncoded r nbits bytes s) := by
  unfold execConvEncode at h
  split at h
  · exact .inl ⟨‹_›, raise_eq_next_iff.mp h⟩
  · rename_i r hr
    split at h
    · exact .inr (.inl ⟨by simp [hr], ‹_›, raise_eq_next_iff.mp h⟩)
    · split at h
      · cases h
      · exact .inr (.inr ⟨r, _, hr, by omega, ‹_›, finish_eq_next_iff.mp h⟩)

theorem execBchBegin_next {n k : Nat} {poly : Word} {s t : State} (h : execBchBegin n k poly s = .next t) :
    (bchGenerator n k poly.toNat = none ∧ t = failed .invalidBch s) ∨
      ∃ d g, bchGenerator n k poly.toNat = some (d, g) ∧
        t = done { s with bch := bchUnitOf n k poly g, res := { s.res with r0 := toWord g, r1 := toWord d } } := by
  unfold execBchBegin at h
  split at h
  · exact .inl ⟨‹_›, raise_eq_next_iff.mp h⟩
  · exact .inr ⟨_, _, ‹_›, finish_eq_next_iff.mp h⟩

theorem execBchEncode_next {d : Word} {s t : State} (h : execBchEncode d s = .next t) :
    (s.bch.valid = false ∧ t = failed .notInitialised s) ∨
      (s.bch.valid = true ∧
        t = done { s with res := { s.res with r0 := toWord (bchEncode s.bch.n s.bch.k s.bch.gen d.toNat) } }) := by
  unfold execBchEncode at h
  split at h
  · exact .inr ⟨‹_›, finish_eq_next_iff.mp h⟩
  · exact .inl ⟨by simpa using ‹¬ s.bch.valid = true›, raise_eq_next_iff.mp h⟩

theorem execFhssBegin_next {bw cr hdrCount id : Nat} {grid : Grid} {s t : State}
    (h : execFhssBegin bw cr hdrCount grid id s = .next t) :
    (∃ k, validateConfig s.CFG.toCfg bw cr hdrCount grid id = .error k ∧ t = failed k s) ∨
      ∃ v, validateConfig s.CFG.toCfg bw cr hdrCount grid id = .ok v ∧
        t = done (applyConfig bw hdrCount grid id v { s with begun := true }) := by
  unfold execFhssBegin at h
  split at h
  · exact .inl ⟨_, ‹_›, raise_eq_next_iff.mp h⟩
  · exact .inr ⟨_, ‹_›, finish_eq_next_iff.mp h⟩

theorem execFhssConfig_next {bw cr hdrCount id : Nat} {grid : Grid} {s t : State}
    (h : execFhssConfig bw cr hdrCount grid id s = .next t) :
    (s.begun = false ∧ t = failed .wrongModem s) ∨
      (s.begun = true ∧ ∃ k, validateConfig s.CFG.toCfg bw cr hdrCount grid id = .error k ∧ t = failed k s) ∨
      (s.begun = true ∧ ∃ v, validateConfig s.CFG.toCfg bw cr hdrCount grid id = .ok v ∧
        t = done (applyConfig bw hdrCount grid id v s)) := by
  unfold execFhssConfig at h
  split at h
  · split at h
    · exact .inr (.inl ⟨‹_›, _, ‹_›, raise_eq_next_iff.mp h⟩)
    · exact .inr (.inr ⟨‹_›, _, ‹_›, finish_eq_next_iff.mp h⟩)
  · exact .inl ⟨by simpa using ‹¬ s.begun = true›, raise_eq_next_iff.mp h⟩

/-- What the checks of `FHSS.ENCODE` have established when none fails (R146). -/
theorem encodeCheck_eq_none_iff {len : Nat} {s : State} :
    encodeCheck len s = none ↔
      s.begun = true ∧ s.hop.hopsRemaining = 0 ∧ len ≤ maxPayload ∧
        frameBitLength s.CFG.toCfg s.cfg len ≤ 8 * frameMaxBytes := by
  unfold encodeCheck
  split
  · simp [*]
  · split
    · simp [*]
    · split
      · simp only [reduceCtorEq, false_iff]
        omega
      · split
        · simp only [reduceCtorEq, false_iff]
          omega
        · simp_all

theorem execFhssEncode_next {len : Nat} {s t : State} (h : execFhssEncode len s = .next t) :
    (∃ k, encodeCheck len s = some k ∧ t = failed k s) ∨
      ∃ payload, encodeCheck len s = none ∧ Memory.readBytes s.inBuf 0 len = some payload ∧
        t = done (encoded payload s) := by
  unfold execFhssEncode at h
  split at h
  · exact .inl ⟨_, ‹_›, raise_eq_next_iff.mp h⟩
  · split at h
    · cases h
    · exact .inr ⟨_, ‹_›, ‹_›, finish_eq_next_iff.mp h⟩

/-- The `HOP` unit as `HOP.START` arms it (R194). -/
abbrev hopArmed (centre : Word) (s : State) : HopUnit :=
  { s.hop with
    state := s.hop.initState, hopIndex := 0, hopsRemaining := s.frame.hopCount, bitsRemaining := s.frame.bitLength,
    hdrCount := s.cfg.hdrCount, centre := centre }

theorem execHopStart_next {centre : Word} {s t : State} (h : execHopStart centre s = .next t) :
    (s.begun = false ∧ t = failed .wrongModem s) ∨
      (s.begun = true ∧ (s.hop.hopsRemaining ≠ 0 ∨ s.frame.valid = false) ∧ t = failed .commandFailed s) ∨
      (s.begun = true ∧ s.hop.hopsRemaining = 0 ∧ s.frame.valid = true ∧
        t = done { s with hop := hopArmed centre s }) := by
  unfold execHopStart at h
  split at h
  · exact .inl ⟨‹_›, raise_eq_next_iff.mp h⟩
  · have hb : s.begun = true := by simpa using ‹¬ s.begun = false›
    split at h
    · exact .inr (.inl ⟨hb, .inl ‹_›, raise_eq_next_iff.mp h⟩)
    · split at h
      · exact .inr (.inl ⟨hb, .inr ‹_›, raise_eq_next_iff.mp h⟩)
      · exact .inr (.inr ⟨hb, by omega, by simpa using ‹¬ s.frame.valid = false›, finish_eq_next_iff.mp h⟩)

theorem execHopStep_next {s t : State} (h : execHopStep s = .next t) :
    (s.begun = false ∧ t = failed .wrongModem s) ∨
      (s.begun = true ∧ s.hop.hopsRemaining = 0 ∧ t = failed .commandFailed s) ∨
      (s.begun = true ∧ s.hop.hopsRemaining ≠ 0 ∧ ∃ st hopv,
        hopNext s.hop.w s.hop.state s.hop.poly s.hop.seed s.hop.nGrid = some (st, hopv) ∧
        t = done (stepped st hopv s)) := by
  unfold execHopStep at h
  split at h
  · exact .inl ⟨‹_›, raise_eq_next_iff.mp h⟩
  · have hb : s.begun = true := by simpa using ‹¬ s.begun = false›
    split at h
    · exact .inr (.inl ⟨hb, ‹_›, raise_eq_next_iff.mp h⟩)
    · split at h
      · cases h
      · exact .inr (.inr ⟨hb, ‹_›, _, _, ‹_›, finish_eq_next_iff.mp h⟩)

theorem execHopReset_next {s t : State} (h : execHopReset s = .next t) :
    (s.begun = false ∧ t = failed .wrongModem s) ∨
      (s.begun = true ∧ t = done { s with hop := hopIdle s.hop, frame := { s.frame with valid := false } }) := by
  unfold execHopReset at h
  split at h
  · exact .inl ⟨‹_›, raise_eq_next_iff.mp h⟩
  · exact .inr ⟨by simpa using ‹¬ s.begun = false›, finish_eq_next_iff.mp h⟩

/-- What `ValidateConfig` has established when it accepts (R142, R192). -/
theorem validateConfig_ok {c : Cfg} {bw cr hdrCount id : Nat} {grid : Grid} {v : HopParams}
    (h : validateConfig c bw cr hdrCount grid id = .ok v) :
    ∃ rate channels e, codingRateOfCode cr = some rate ∧ chanCount c bw = some channels ∧
      1 ≤ hdrCount ∧ hdrCount ≤ 4 ∧ hopEntry c (gridSize c channels grid) = some e ∧ id ≤ 511 ∧ id < e.idLimit ∧
      v = hopParams rate e (gridSize c channels grid) id := by
  unfold validateConfig at h
  split at h
  · cases h
  · split at h
    · cases h
    · split at h
      · cases h
      · split at h
        · cases h
        · split at h
          · cases h
          · rename_i hc _ _ he hid
            simp only [hdrCountMin, hdrCountMax, hopSeqIdMax] at hc hid
            refine ⟨_, _, _, ‹_›, ‹_›, by omega, by omega, he, by omega, by omega, ?_⟩
            simpa using h.symm

/-- No kind that `ValidateConfig` raises is `Ok`. -/
theorem validateConfig_error_ne_ok {c : Cfg} {bw cr hdrCount id : Nat} {grid : Grid} {k : ResultKind}
    (h : validateConfig c bw cr hdrCount grid id = .error k) : k ≠ .ok := by
  unfold validateConfig at h
  repeat' split at h
  all_goals first
    | (cases h; decide)
    | cases h

/-- No kind that `FHSS.ENCODE` raises is `Ok`. -/
theorem encodeCheck_ne_ok {len : Nat} {s : State} {k : ResultKind} (h : encodeCheck len s = some k) : k ≠ .ok := by
  unfold encodeCheck at h
  repeat' split at h
  all_goals first
    | (cases h; decide)
    | cases h

/-- What the retry loop has established when it answers (R197). -/
theorem hopSearch_some {poly seed nGrid fuel state st hopv : Nat}
    (h : hopSearch poly seed nGrid fuel state = some (st, hopv)) :
    ∃ n, n < fuel ∧ st = lfsrIter poly (n + 1) state ∧ hopv = hopCandidate seed st ∧ hopv ≤ nGrid ∧
      ∀ j, j < n → nGrid < hopCandidate seed (lfsrIter poly (j + 1) state) := by
  induction fuel generalizing state with
  | zero => simp [hopSearch] at h
  | succ fuel ih =>
    unfold hopSearch at h
    split at h
    · simp only [Option.some.injEq, Prod.mk.injEq] at h
      obtain ⟨rfl, rfl⟩ := h
      exact ⟨0, by omega, rfl, rfl, ‹_›, by omega⟩
    · obtain ⟨n, hn, rfl, hv, hle, hj⟩ := ih h
      refine ⟨n + 1, by omega, rfl, hv, hle, fun j hjn => ?_⟩
      cases j with
      | zero => simpa [lfsrIter] using ‹¬ hopCandidate seed (lfsrNext state poly) ≤ nGrid›
      | succ j => exact hj j (by omega)

end Sys2Proof.Machine
end

