-- ==== Sys2Proof/Laws/PerInstr.lean ====
section
/-! SUPPORT. The statement made of every command, one lemma a constructor: its word matches its row of R73. -/

namespace Sys2Proof.Laws.EncodingRow

/-- The word of the command matches the row of R73 that carries its mnemonic. -/
def Statement (i : Instr) : Prop :=
  ∃ row ∈ commandTable, row.mnemonic = i.mnemonic ∧ encode i &&& row.mask = row.pattern

/-- A word built by the format keeps, under a mask, the masked fields. -/
theorem c64_and (op a b c op' a' b' c' : BitVec 8) (imm imm' : BitVec 32) :
    c64 op a b c imm &&& c64 op' a' b' c' imm' = c64 (op &&& op') (a &&& a') (b &&& b') (c &&& c') (imm &&& imm') := by
  refine BitVec.eq_of_getLsbD_eq fun i hi => ?_
  simp only [c64, BitVec.getLsbD_and, BitVec.getLsbD_append]
  repeat' split
  all_goals rfl

/-- Bits 31:17 of the `imm` of a configuration command are 0. -/
theorem configImm_and (grid : Grid) (id : Nat) : configImm grid id &&& 0xFFFE0000 = 0 := by
  have hz := reservedPart_configImm grid id
  refine BitVec.eq_of_getLsbD_eq fun i hi => ?_
  rw [BitVec.getLsbD_and]
  by_cases h : i < 17
  · have key : ∀ j : Fin 17, (0xFFFE0000 : BitVec 32).getLsbD j = false := by decide
    rw [show (0xFFFE0000 : BitVec 32).getLsbD i = false from key ⟨i, h⟩]
    simp
  · have hr := congrArg (fun v => v.getLsbD (i - 17)) hz
    simp only [reservedPart, BitVec.getLsbD_extractLsb', show 17 + (i - 17) = i by omega,
      show i - 17 < 15 by omega, decide_true, Bool.true_and] at hr
    rw [hr]
    simp

theorem convBegin (rate : Nat) : Statement (.convBegin rate) :=
  ⟨⟨"CONV.BEGIN", 0x1000000000000000, 0xFF00FFFFFFFFFFFF⟩, by decide, rfl, by
    rw [encode, show (0xFF00FFFFFFFFFFFF : CommandWord) = c64 0xFF 0 0xFF 0xFF 0xFFFFFFFF from by decide, c64_and]
    simp; decide⟩

theorem convEncode (nbits : Nat) : Statement (.convEncode nbits) :=
  ⟨⟨"CONV.ENCODE", 0x1100000000000000, 0xFFFFFFFF00000000⟩, by decide, rfl, by
    rw [encode, show (0xFFFFFFFF00000000 : CommandWord) = c64 0xFF 0xFF 0xFF 0xFF 0 from by decide, c64_and]
    simp; decide⟩

theorem bchBegin (n k : Nat) (poly : Word) : Statement (.bchBegin n k poly) :=
  ⟨⟨"BCH.BEGIN", 0x2000000000000000, 0xFF0000FF00000000⟩, by decide, rfl, by
    rw [encode, show (0xFF0000FF00000000 : CommandWord) = c64 0xFF 0 0 0xFF 0 from by decide, c64_and]
    simp; decide⟩

theorem bchEncode (dataword : Word) : Statement (.bchEncode dataword) :=
  ⟨⟨"BCH.ENCODE", 0x2100000000000000, 0xFFFFFFFF00000000⟩, by decide, rfl, by
    rw [encode, show (0xFFFFFFFF00000000 : CommandWord) = c64 0xFF 0xFF 0xFF 0xFF 0 from by decide, c64_and]
    simp; decide⟩

theorem fhssBegin (bw cr hdrCount : Nat) (grid : Grid) (hopSeqId : Nat) :
    Statement (.fhssBegin bw cr hdrCount grid hopSeqId) :=
  ⟨⟨"FHSS.BEGIN", 0x3000000000000000, 0xFF000000FFFE0000⟩, by decide, rfl, by
    rw [encode, show (0xFF000000FFFE0000 : CommandWord) = c64 0xFF 0 0 0 0xFFFE0000 from by decide, c64_and,
      configImm_and]
    simp; decide⟩

theorem fhssConfig (bw cr hdrCount : Nat) (grid : Grid) (hopSeqId : Nat) :
    Statement (.fhssConfig bw cr hdrCount grid hopSeqId) :=
  ⟨⟨"FHSS.CONFIG", 0x3100000000000000, 0xFF000000FFFE0000⟩, by decide, rfl, by
    rw [encode, show (0xFF000000FFFE0000 : CommandWord) = c64 0xFF 0 0 0 0xFFFE0000 from by decide, c64_and,
      configImm_and]
    simp; decide⟩

theorem fhssEncode (len : Nat) : Statement (.fhssEncode len) :=
  ⟨⟨"FHSS.ENCODE", 0x3200000000000000, 0xFFFFFFFF00000000⟩, by decide, rfl, by
    rw [encode, show (0xFFFFFFFF00000000 : CommandWord) = c64 0xFF 0xFF 0xFF 0xFF 0 from by decide, c64_and]
    simp; decide⟩

theorem hopStart (centre : Word) : Statement (.hopStart centre) :=
  ⟨⟨"HOP.START", 0x4000000000000000, 0xFFFFFFFF00000000⟩, by decide, rfl, by
    rw [encode, show (0xFFFFFFFF00000000 : CommandWord) = c64 0xFF 0xFF 0xFF 0xFF 0 from by decide, c64_and]
    simp; decide⟩

theorem hopStep : Statement .hopStep :=
  ⟨⟨"HOP.STEP", 0x4100000000000000, 0xFFFFFFFFFFFFFFFF⟩, by decide, rfl, by decide⟩

theorem hopReset : Statement .hopReset :=
  ⟨⟨"HOP.RESET", 0x4200000000000000, 0xFFFFFFFFFFFFFFFF⟩, by decide, rfl, by decide⟩

end Sys2Proof.Laws.EncodingRow
end

