-- ==== Sys2Proof/Laws/Stages.lean ====
section
/-! SUPPORT. How long the output of each stage of the frame encoder is. -/

namespace Sys2Proof.Machine

theorem whitenFrom_length (c : Cfg) (l : Byte) (xs : List Byte) : (whitenFrom c l xs).length = xs.length := by
  induction xs generalizing l with
  | nil => rfl
  | cons x xs ih => simp [whitenFrom, ih]

@[simp] theorem whiten_length (c : Cfg) (xs : List Byte) : (whiten c xs).length = xs.length := whitenFrom_length c _ xs

@[simp] theorem fecBuffer_length (w : List Byte) : (fecBuffer w).length = w.length + 3 := by
  simp [fecBuffer, payloadCrc]

/-- The FEC input has `nIn` bits (R156). -/
theorem fecInput_length (c : Cfg) (payload : List Byte) :
    (fecInput c payload).length = fecInputBits payload.length := by
  refine bitsOf_length ?_
  simp only [fecBuffer_length, whiten_length, fecInputBits, tailBits]
  omega

/-- `len(C) = 3 * nIn` (R157). -/
theorem fecCoded_length (c : Cfg) (payload : List Byte) :
    (fecCoded c payload).length = 3 * fecInputBits payload.length := by
  rw [fecCoded, convOut_length, fecInput_length]
  rfl

theorem ilvLoop_length (n step stepV rounds pos stIdx stInit : Nat) :
    (ilvLoop n step stepV rounds pos stIdx stInit).length = rounds := by
  induction rounds generalizing pos stIdx stInit with
  | zero => rfl
  | succ rounds ih =>
    simp only [ilvLoop, List.length_cons]
    split
    · rw [ih]
    · split <;> rw [ih]

@[simp] theorem interleaveOrder_length (rootEven : Bool) (n : Nat) : (interleaveOrder rootEven n).length = n :=
  ilvLoop_length _ _ _ _ _ _ _

@[simp] theorem interleave_length (rootEven : Bool) (p : List Bool) : (interleave rootEven p).length = p.length := by
  simp [interleave]

/-- Where the order names a position of the stream, the bit at that position is sent. -/
theorem interleave_getElem? {rootEven : Bool} {p : List Bool} {j i : Nat}
    (hj : (interleaveOrder rootEven p.length)[j]? = some i) (hi : i < p.length) :
    (interleave rootEven p)[j]? = p[i]? := by
  simp [interleave, hj, List.getElem?_eq_getElem hi]

theorem guardBlocks_length (count : Nat) (bits : List Bool) (h : bits.length ≤ fragBits * count) :
    (guardBlocks count bits).length = bits.length + guardBits * count := by
  induction count generalizing bits with
  | zero =>
    have : bits.length = 0 := by omega
    simp [guardBlocks, this]
  | succ count ih =>
    have hd : (bits.drop fragBits).length ≤ fragBits * count := by
      simp only [List.length_drop, Nat.mul_succ] at *
      omega
    simp only [guardBlocks, List.length_append, List.length_replicate, List.length_take, ih _ hd, List.length_drop,
      Nat.mul_succ]
    omega

/-- `ceil(n/48)` blocks hold `n` bits, and one block fewer do not. -/
theorem payloadBlockCount_spec (n : Nat) : n ≤ 48 * payloadBlockCount n ∧ 48 * payloadBlockCount n < n + 48 := by
  unfold payloadBlockCount ceilDiv fragBits
  omega

/-- `len(PayloadBlocks(P)) = n + 2 * ceil(n / 48)` (R163). -/
theorem payloadBlocks_length (c : Cfg) (p : List Bool) :
    (payloadBlocks c p).length = p.length + guardBits * payloadBlockCount p.length := by
  rw [payloadBlocks, guardBlocks_length, interleave_length]
  rw [interleave_length]
  exact (payloadBlockCount_spec p.length).1

@[simp] theorem headerRaw_length (len : Nat) (cfg : FhssCfg) (replica : Nat) :
    (headerRaw len cfg replica).length = 5 := rfl

/-- `len(blk) = HDR_BLOCK_BITS` (R172). -/
theorem headerBlock_length (c : Cfg) (raw : List Byte) : (headerBlock c raw).1.length = hdrBlockBits c := by
  simp [headerBlock, hdrBlockBits, syncBits, Nat.add_assoc]

theorem headerBlocks_length (c : Cfg) (cfg : FhssCfg) (len left s : Nat) :
    (headerBlocks c cfg len left s).1.length = left * hdrBlockBits c := by
  induction left generalizing s with
  | zero => simp [headerBlocks]
  | succ left ih =>
    simp only [headerBlocks, List.length_append, headerBlock_length, ih, Nat.succ_mul]
    omega

/-- The frame's image fills `FRAME` when its bits fit. -/
theorem frameImage_length {bits : List Bool} (h : bits.length ≤ 8 * frameMaxBytes) :
    (frameImage bits).length = frameMaxBytes := by
  have := ceilDiv_eight_le h
  simp only [frameImage, List.length_append, List.length_replicate, pack_length]
  omega

end Sys2Proof.Machine
end

