-- ==== Sys2Proof/Laws/Safety.lean ====
section
/-! SUPPORT. The expanded length as a function of the stream's length (R159), and when a frame has a payload hop. -/

namespace Sys2Proof.Machine

/-- A longer prefix of a pattern has at least as many ones. -/
theorem count_take_le (pat : List Bool) {m n : Nat} (h : m ≤ n) :
    (pat.take m).count true ≤ (pat.take n).count true :=
  (List.take_sublist_take_left h).count_le true

/-- One more bit of the stream never lowers the expanded length. -/
theorem expandedBits_le_succ (c : Cfg) (cr : CodingRate) (n : Nat) :
    expandedBits c cr n ≤ expandedBits c cr (n + 1) := by
  unfold expandedBits
  split
  · omega
  · rename_i pat hpat
    by_cases hw : (n + 1) % pat.length = 0
    · obtain hp | hp := Nat.eq_zero_or_pos pat.length
      · rw [hp] at hw
        simp at hw
      · obtain ⟨q, hq⟩ := Nat.dvd_of_mod_eq_zero hw
        have hn : n / pat.length + 1 = (n + 1) / pat.length := (Nat.succ_div_of_dvd ⟨q, hq⟩).symm
        rw [← hn, hw, Nat.add_one_mul]
        have := (List.take_sublist (n % pat.length) pat).count_le true
        omega
    · have hd : (n + 1) / pat.length = n / pat.length :=
        Nat.succ_div_of_not_dvd fun hdvd => hw (Nat.mod_eq_zero_of_dvd hdvd)
      have h1 := Nat.div_add_mod n pat.length
      have h2 := Nat.div_add_mod (n + 1) pat.length
      rw [hd] at h2 ⊢
      have := count_take_le pat (show n % pat.length ≤ (n + 1) % pat.length by omega)
      omega

/-- The expanded length grows with the stream. -/
theorem expandedBits_mono (c : Cfg) (cr : CodingRate) {m n : Nat} (h : m ≤ n) :
    expandedBits c cr m ≤ expandedBits c cr n := by
  induction h with
  | refl => exact Nat.le_refl _
  | step _ ih => exact Nat.le_trans ih (expandedBits_le_succ c cr _)

/-- A pattern that keeps one of its first 66 positions keeps a bit of every stream of 66 bits or more. -/
theorem one_le_of_keepsShortest {pat : List Bool} (h : keepsShortest pat = true) :
    1 ≤ (66 / pat.length) * pat.count true + (pat.take (66 % pat.length)).count true := by
  have hmem : true ∈ pat.take 66 := by simpa [keepsShortest] using h
  have hcount : 1 ≤ (pat.take 66).count true := List.count_pos_iff.mpr hmem
  by_cases hlen : 66 < pat.length
  · rw [Nat.mod_eq_of_lt hlen]
    omega
  · have hpos : 0 < pat.length := List.length_pos_of_mem (List.mem_of_mem_take hmem)
    have hdiv : 1 ≤ 66 / pat.length := Nat.div_pos (by omega) hpos
    have hall := (List.take_sublist 66 pat).count_le true
    have := Nat.mul_le_mul hdiv (Nat.le_trans hcount hall)
    omega

/-- Where no pattern punctures the shortest stream away, none punctures any payload's stream away (R31 (f), R159). -/
theorem one_le_expandedBits {c : Cfg} (h : cfgKeepsPayload c = true) (cr : CodingRate) (len : Nat) :
    1 ≤ expandedBits c cr (24 * len + 66) := by
  refine Nat.le_trans ?_ (expandedBits_mono c cr (show 66 ≤ 24 * len + 66 by omega))
  simp only [cfgKeepsPayload, Bool.and_eq_true] at h
  obtain ⟨⟨h56, h23⟩, h12⟩ := h
  cases cr
  · exact one_le_of_keepsShortest h56
  · exact one_le_of_keepsShortest h23
  · exact one_le_of_keepsShortest h12
  · exact show 1 ≤ 66 by omega

/-- Every frame has at least one payload bit. -/
theorem one_le_frameExpandedBits (c : GoodCfg) (cfg : FhssCfg) (len : Nat) :
    1 ≤ frameExpandedBits c.toCfg cfg len := by
  have h := one_le_expandedBits c.keepsPayload cfg.cr len
  rwa [show 24 * len + 66 = 3 * fecInputBits len by unfold fecInputBits tailBits; omega] at h

end Sys2Proof.Machine
end

