-- ==== Sys2Proof/Tests/Slice0.lean ====
section
/-! SUPPORT. Tests of the model: expected values from spec/95_test_vectors.md and the tables of the rules; and for every
statement with hypotheses a state that meets them. -/

namespace Sys2Proof.Machine.Tests

-- One theorem after another: side by side, their kernel evaluations need more threads than the sandbox's memory holds.
set_option Elab.async false

/-! ## Helpers -/

/-- The state an instruction leaves, none where it stops. -/
def after (i : Instr) (s : State) : Option State :=
  match exec i s with
  | .next t => some t
  | .fault _ => none
  | .refused _ => none

/-- The fault an instruction ends in, none where it does not. -/
def faultOf (i : Instr) (s : State) : Option Fault :=
  match exec i s with
  | .next _ => none
  | .fault f => some f
  | .refused _ => none

/-- The state a step leaves, none where it stops. -/
def stepped? (s : State) : Option State :=
  match step s with
  | .next t => some t
  | .fault _ => none
  | .refused _ => none

/-- The state with bytes written from offset 0 of `IN`. -/
def withIn (bytes : List Byte) (s : State) : State := { s with inBuf := cellsFrom 0 bytes }

/-- The first `n` bytes of a buffer. -/
def bytesAt (sp : Space) (n : Nat) (s : State) : List (Option Byte) := (List.range n).map (s.byteAt sp)

/-- Kind, results, and the encoder's end state. -/
def gist (t : State) : ResultKind × ResFile × Nat := (t.kind, t.res, t.conv.state)

theorem exec_of_after {i : Instr} {s t : State} (h : after i s = some t) : exec i s = .next t := by
  unfold after at h
  split at h
  · rename_i heq
    rw [heq, Option.some.inj h]
  · cases h
  · cases h

theorem exec_of_faultOf {i : Instr} {s : State} {f : Fault} (h : faultOf i s = some f) : exec i s = .fault f := by
  unfold faultOf at h
  split at h
  · cases h
  · rename_i heq
    rw [heq, Option.some.inj h]
  · cases h

theorem step_of_stepped {s t : State} (h : stepped? s = some t) : step s = .next t := by
  unfold stepped? at h
  split at h
  · rename_i heq
    rw [heq, Option.some.inj h]
  · cases h
  · cases h

/-- `CONV` begun at a rate, in a given state. -/
def stConv (r : ConvRate) (state : Nat) : State := { State.reset with conv := ⟨some r, state⟩ }

/-- `BCH` begun with the (31, 21) code over 0x25, generator 0x769 (R123). -/
def stBch : State := { State.reset with bch := bchUnitOf 31 21 0x25 0x769 }

/-- `FHSS` begun with `bw=0, cr=0, hdr=1, grid=1, id=0` (program P4, `pc` 2). -/
def stBegun : State :=
  { State.reset with
    begun := true
    cfg := ⟨0, .r5_6, 1, .narrow, 0⟩
    hop := { State.reset.hop with nGrid := 10, w := 6, initState := 6, state := 6, poly := 33, seed := 0 } }

/-- The same with the frame F3 of the empty payload valid (its counts). -/
def stFrame : State := { stBegun with frame := ⟨true, 143, 2⟩ }

/-- The same with its transmission armed (program P4, `pc` 5). -/
def stFlight : State :=
  { stFrame with
    hop := { stFrame.hop with bitsRemaining := 143, hopsRemaining := 2, hdrCount := 1, centre := 0x36400000 } }

/-- The same before its last hop (program P4, `pc` 7). -/
def stLast : State :=
  { stFlight with hop := { stFlight.hop with state := 3, bitsRemaining := 29, hopsRemaining := 1, hopIndex := 1 } }

/-! ## Decoding: words written out from R70 to R76 -/

theorem test_decode_conv_begin :
    decode (0b00010000#8 ++ 0b00000011#8 ++ 0b00000000#8 ++ 0b00000000#8 ++ 0#32) = .ok (.convBegin 3) := by decide

theorem test_decode_conv_encode :
    decode (0b00010001#8 ++ 0#24 ++ 0b10000000000000000000000000000001#32) = .ok (.convEncode 0x80000001) := by decide

theorem test_decode_bch_begin :
    decode (0b00100000#8 ++ 0b00011111#8 ++ 0b00010101#8 ++ 0b00000000#8 ++ 0b00000000000000000000000000100101#32) =
      .ok (.bchBegin 31 21 0x25) := by decide

theorem test_decode_bch_encode :
    decode (0b00100001#8 ++ 0#24 ++ 0b10000000000000000000000000000010#32) = .ok (.bchEncode 0x80000002) := by decide

theorem test_decode_fhss_begin :
    decode (0b00110000#8 ++ 0b00001001#8 ++ 0b00000010#8 ++ 0b00000100#8 ++
        0b000000000000000#15 ++ 0b1#1 ++ 0b0000000111111111#16) =
      .ok (.fhssBegin 9 2 4 .narrow 511) := by decide

theorem test_decode_fhss_config :
    decode (0b00110001#8 ++ 0b00000110#8 ++ 0b00000001#8 ++ 0b00000011#8 ++
        0b000000000000000#15 ++ 0b0#1 ++ 0b1000000100111010#16) =
      .ok (.fhssConfig 6 1 3 .wide 0x813A) := by decide

theorem test_decode_fhss_encode :
    decode (0b00110010#8 ++ 0#24 ++ 0b00000000000000000000000010011000#32) = .ok (.fhssEncode 152) := by decide

theorem test_decode_hop_start :
    decode (0b01000000#8 ++ 0#24 ++ 0b00110110010000000000000000000000#32) = .ok (.hopStart 0x36400000) := by decide

theorem test_decode_hop_step : decode (0b01000001#8 ++ 0#56) = .ok .hopStep := by decide

theorem test_decode_hop_reset : decode (0b01000010#8 ++ 0#56) = .ok .hopReset := by decide

theorem test_decode_rejects_by_name :
    decode 0x5000000000000000 = .error .unknownOpcode ∧ decode 0x4100000000000001 = .error .unusedFieldNotZero ∧
    decode 0x201F150100000025 = .error .unusedFieldNotZero ∧ decode 0x3000000100020000 = .error .unusedFieldNotZero := by
  decide

/-! ## WellFormed: an ill-formed term for each check -/

theorem test_wf_byte_field_refuses :
    Instr.wf (.convBegin 256) = false ∧ Instr.wf (.bchBegin 256 0 0) = false ∧ Instr.wf (.bchBegin 0 256 0) = false ∧
    Instr.wf (.fhssBegin 256 0 0 .wide 0) = false ∧ Instr.wf (.fhssBegin 0 256 0 .wide 0) = false ∧
    Instr.wf (.fhssConfig 0 0 256 .wide 0) = false ∧ Instr.wf (.convBegin 255) = true := by decide

theorem test_wf_id_field_refuses :
    Instr.wf (.fhssBegin 0 0 0 .wide 65536) = false ∧ Instr.wf (.fhssConfig 0 0 0 .narrow 65536) = false ∧
    Instr.wf (.fhssConfig 255 255 255 .narrow 65535) = true := by decide

theorem test_wf_imm_field_refuses :
    Instr.wf (.convEncode 4294967296) = false ∧ Instr.wf (.fhssEncode 4294967296) = false ∧
    Instr.wf (.fhssEncode 4294967295) = true := by decide

/-! ## `CFG` -/

/-- Section 3.4: the table of rate 3 is the parities of the masked register. -/
theorem test_ref_conv_table_3_is_parities :
    refConvTable3 = (List.range 64).map (fun s =>
      let symbol := fun reg => (parity (reg &&& 0b1101101)).toNat * 4 + (parity (reg &&& 0b1001111)).toNat * 2
        + (parity (reg &&& 0b1010011)).toNat
      (symbol (2 * s), symbol (2 * s + 1))) := by decide +kernel

/-- Section 3.3: the table of rate 2 is the parities of the masked register. -/
theorem test_ref_conv_table_2_is_parities :
    refConvTable2 = (List.range 16).map (fun s =>
      let symbol := fun reg => (parity (reg &&& 0b11101)).toNat * 2 + (parity (reg &&& 0b10011)).toNat
      (symbol (2 * s), symbol (2 * s + 1))) := by decide +kernel

/-- `CFG`s that break a constraint of R9 or R193, one each. -/
theorem test_cfg_wf_refuses :
    cfgWf { cfgRef with convStateBits2 := 0, convTable2 := [(0, 3)] } = false ∧
    cfgWf { cfgRef with convTable2 := (0, 4) :: refConvTable2.tail } = false ∧
    cfgWf { cfgRef with punct1_2 := [true, false, false] } = false ∧
    cfgWf { cfgRef with hdrPerm := 1 :: refHdrPerm.tail } = false ∧
    cfgWf { cfgRef with gridChannelsWide := 8 } = false ∧
    cfgWf { cfgRef with syncWord := [] } = false ∧
    cfgWf { cfgRef with hopTable := [⟨10, 6, 0, [33, 45, 48, 51, 54, 57], 63, 384⟩] } = false ∧
    cfgWf { cfgRef with hopTable := [⟨64, 6, 6, [33, 45, 48, 51, 54, 57], 63, 384⟩] } = false ∧
    cfgWf { cfgRef with hopTable := [⟨10, 6, 6, [32], 63, 64⟩] } = false := by decide +kernel

/-! ## Pure functions -/

/-- R15's check values: "123456789", one zero byte, four zero bytes, no bytes. -/
theorem test_crc_check_values :
    crc crc16Poly crc16Init crc16XorOut [0x31, 0x32, 0x33, 0x34, 0x35, 0x36, 0x37, 0x38, 0x39] = 0x375D ∧
    crc crc8Poly crc8Init crc8XorOut [0x31, 0x32, 0x33, 0x34, 0x35, 0x36, 0x37, 0x38, 0x39] = 0x20 ∧
    crc crc16Poly crc16Init crc16XorOut [0x00] = 0x5B1F ∧ crc crc8Poly crc8Init crc8XorOut [0, 0, 0, 0] = 0xED ∧
    crc crc8Poly crc8Init crc8XorOut [] = 0xFF := by decide +kernel

/-- Section 2.3: whitening of "Hello". -/
theorem test_whiten_hello :
    whiten cfgRef [0x48, 0x65, 0x6C, 0x6C, 0x6F] = [0x7B, 0xB9, 0x09, 0x49, 0xF9] := by decide +kernel

/-- Section 2.3: the kept positions of rates 5/6 and 2/3. -/
theorem test_puncture_keeps :
    puncture cfgRef .r5_6 ((List.range 16).map (fun i => [0, 1, 3, 7, 9, 13, 15].contains i)) = List.replicate 7 true ∧
    puncture cfgRef .r2_3 ((List.range 16).map (fun i => [0, 1, 3, 6, 7, 9, 12, 13, 15].contains i)) =
      List.replicate 9 true := by decide +kernel

/-- Section 2.3: the interleaver's orders for 8 and 27 bits. -/
theorem test_interleave_orders :
    interleaveOrder false 8 = [0, 6, 1, 7, 2, 3, 4, 5] ∧
    interleaveOrder false 27 = [0, 12, 24, 3, 15, 6, 18, 9, 21, 1, 13, 25, 4, 16, 7, 19, 10, 22, 2, 14, 26, 5, 17, 8,
      20, 11, 23] := by decide +kernel

/-- Log 23: R161 worked by hand for 5 bits with the root 3 rounded up to 4: step 8, restart step 2. -/
theorem test_interleave_order_past_stream :
    interleaveOrder true 5 = [0, 2, 4, 6, 1] ∧
    interleave true [true, false, true, true, false] =
      [true, true, false, Config.unstatedBit [true, false, true, true, false] 6, false] :=
  ⟨by decide +kernel, rfl⟩

/-- R124: the tables of GF(32) over 0x25, and a root set. -/
theorem test_field_tables :
    alphaTable 5 0x25 31 = [1, 2, 4, 8, 16, 5, 10, 20, 13, 26, 17, 7, 14, 28, 29, 31, 27, 19, 3, 6, 12, 24, 21, 15, 30,
      25, 23, 11, 22, 9, 18] ∧
    indexTable (alphaTable 5 0x25 31) 31 = [0, 1, 18, 2, 5, 19, 11, 3, 29, 6, 27, 20, 8, 12, 23, 4, 10, 30, 17, 7, 22,
      28, 26, 21, 25, 9, 16, 13, 14, 24, 15] ∧
    rootSet 31 5 2 = [1, 2, 3, 4, 6, 8, 12, 16, 17, 24] := by decide +kernel

/-- R123: the codes of its table. -/
theorem test_known_codes :
    bchGenerator 3 1 0x7 = some (1, 0x7) ∧ bchGenerator 7 4 0xB = some (1, 0xB) ∧
    bchGenerator 7 4 0xD = some (1, 0xD) ∧ bchGenerator 15 7 0x13 = some (2, 0x1D1) ∧
    bchGenerator 15 5 0x13 = some (3, 0x537) ∧ bchGenerator 31 16 0x25 = some (3, 0x8FAF) ∧
    bchGenerator 31 11 0x25 = some (4, 0x1626D5) ∧ bchGenerator 31 6 0x25 = some (6, 0x32DEA27) := by decide +kernel

/-- Log 22: the code that R123's words give and its table leaves out, with all roots but 1: `(x^7 + 1) / (x + 1)`. -/
theorem test_code_with_one_data_bit : bchGenerator 7 1 0xB = some (2, 0x7F) := by decide +kernel

/-! ## One command -/

/-- P1, `pc` 1 and 4. -/
theorem test_conv_begin :
    (after (.convBegin 2) (stConv .three 5)).map (fun t => (t.status, t.conv)) = some (0x00000800, ⟨some .two, 0⟩) ∧
    (after (.convBegin 5) (stConv .two 10)).map (fun t => (t.status, t.conv)) = some (0x00000810, ⟨some .two, 10⟩) := by
  decide +kernel

/-- Section 2.1: rate 3 over `A5 C0`, 10 bits. -/
theorem test_conv_encode_rate_3 :
    (after (.convEncode 10) (withIn [0xA5, 0xC0] (stConv .three 0))).map
        (fun t => (bytesAt .outBuf 5 t, t.res, t.conv.state)) =
      some ([some 0xEC, some 0xDF, some 0x6D, some 0xAC, none], ⟨30, 4, 0, 0⟩, 23) := by decide +kernel

/-- Section 2.1: state persists; rate 2 over `B4`, 5 bits, from state 6. -/
theorem test_conv_encode_rate_2_continues :
    (after (.convEncode 5) (withIn [0xB4] (stConv .two 6))).map (fun t => (bytesAt .outBuf 2 t, t.conv.state)) =
      some ([some 0xC8, some 0x00], 6) := by decide +kernel

/-- P2, `pc` 1. -/
theorem test_bch_begin :
    (after (.bchBegin 31 21 0x25) State.reset).map (fun t => (t.status, t.res, t.bch.n, t.bch.k, t.bch.m, t.bch.gen)) =
      some (0x00001000, ⟨0x769, 2, 0, 0⟩, 31, 21, 5, 0x769) := by decide +kernel

/-- Section 2.2: what `BCH.BEGIN` refuses, keeping the code in force. -/
theorem test_bch_begin_refuses :
    ∀ p ∈ [(31, 20, 0x25), (15, 11, 0x1F), (31, 21, 0x21), (30, 21, 0x25), (31, 31, 0x25), (31, 0, 0x25), (1, 0, 2),
        (1, 1, 3), (63, 57, 0x43)],
      (after (.bchBegin p.1 p.2.1 p.2.2) stBch).map (fun t => (t.status, t.bch)) = some (0x00001012, stBch.bch) := by
  decide +kernel

/-- `RES[0]` after `BCH.ENCODE` under the (31, 21) code. -/
def bchRes (dataword : Word) : Option Word := (after (.bchEncode dataword) stBch).map (fun t => t.res.r0)

/-- Section 2.2: the (31, 21) code, over the low 21 bits. -/
theorem test_bch_encode :
    bchRes 0x1 = some 0xED3 ∧ bchRes 0x100000 = some 0x80000769 ∧ bchRes 0x12345 = some 0x091A2C93 ∧
    bchRes 0xFFFFFFFF = some 0xFFFFFFFF ∧ bchRes 0x200000 = some 0 := by decide +kernel

/-- P3, `pc` 0. -/
theorem test_fhss_begin :
    (after (.fhssBegin 0 3 1 .narrow 0) State.reset).map (fun t => (t.status, t.cfg, t.hop)) =
      some (0x00000100, ⟨0, .r1_3, 1, .narrow, 0⟩, ⟨10, 6, 6, 6, 33, 0, 0, 0, 0, 0, 0⟩) := by decide +kernel

/-- Section 2.3: configuration errors, first failing check. -/
theorem test_fhss_begin_errors :
    ((after (.fhssBegin 10 4 0 .narrow 0) State.reset).map (fun t => t.status) = some 0x13) ∧
    ((after (.fhssBegin 10 0 1 .narrow 0) State.reset).map (fun t => t.status) = some 0x14) ∧
    ((after (.fhssBegin 0 0 5 .narrow 0) State.reset).map (fun t => t.status) = some 0x15) ∧
    ((after (.fhssBegin 8 0 1 .wide 0) State.reset).map (fun t => t.status) = some 0x16) ∧
    ((after (.fhssBegin 0 0 1 .narrow 384) State.reset).map (fun t => t.status) = some 0x05) ∧
    ((after (.fhssBegin 9 0 1 .narrow 511) State.reset).map (fun t => (t.hop.nGrid, t.hop.poly, t.hop.seed)) =
      some (403, 264, 511)) := by decide +kernel

/-- P4, `pc` 8 and 1. -/
theorem test_fhss_config :
    ((after (.fhssConfig 6 1 3 .wide 0x13A) stFlight).map (fun t => (t.status, t.hop)) =
      some (0x00000100, ⟨28, 6, 6, 6, 54, 58, 0, 0, 0, 1, 0x36400000⟩)) ∧
    ((after (.fhssConfig 0 0 1 .narrow 0) State.reset).map (fun t => t.status) = some 0x00000003) := by decide +kernel

/-- Section 2.3: frame F3. -/
theorem test_fhss_encode_frame_F3 :
    (after (.fhssEncode 0) stBegun).map (fun t => (t.status, t.res, t.conv, bytesAt .frameBuf 19 t)) =
      some (0x00000B00, ⟨143, 2, 18, 27⟩, ⟨some .two, 9⟩,
        [some 0x2B, some 0x14, some 0x50, some 0x20, some 0x11, some 0x12, some 0x30, some 0x51, some 0x04, some 0x44,
          some 0x4B, some 0x03, some 0xDE, some 0x65, some 0x4D, some 0xBF, some 0xDF, some 0xB6, some 0x00]) := by
  decide +kernel

/-- The configuration of frame F1, with its payload in `IN`. -/
def stF1 : State := withIn [1, 2, 3] { stBegun with cfg := ⟨0, .r1_3, 1, .narrow, 0⟩ }

/-- Section 2.3: frame F1. -/
theorem test_fhss_encode_frame_F1 :
    (after (.fhssEncode 3) stF1).map (fun t => (t.res, bytesAt .frameBuf 33 t)) =
      some (⟨258, 4, 33, 138⟩,
        ([0x2B, 0x00, 0xC9, 0x20, 0x42, 0x76, 0x38, 0x5C, 0x4C, 0x45, 0x4B, 0x03, 0xDE, 0x65, 0x4A, 0x4A, 0xBC] ++
          [0x99, 0x59, 0xD9, 0x63, 0xD5, 0x55, 0x70, 0x17, 0xC5, 0x04, 0xB8, 0xEB, 0xCC, 0xCD, 0x26, 0xC0]).map some) := by
  decide +kernel

/-- P4, `pc` 5 and 10. -/
theorem test_hop_start :
    ((after (.hopStart 0x36400000) stFrame).map (fun t => (t.kind, t.hop)) =
      some (.ok, ⟨10, 6, 6, 6, 33, 0, 143, 2, 0, 1, 0x36400000⟩)) ∧
    ((after (.hopStart 0x36400000) stBegun).map (fun t => t.status) = some 0x00000102) := by decide +kernel

/-- Section 2.4, run H1: step 1 (three clocks). -/
theorem test_hop_step_retries :
    (after .hopStep { stFlight with
        hop := { stFlight.hop with state := 3, bitsRemaining := 144, hopsRemaining := 3, hopIndex := 1 } }).map
      (fun t => (t.res, t.hop.state, t.hop.bitsRemaining, t.hop.hopsRemaining)) =
      some (⟨8, 0x36402800, 50, 1⟩, 8, 94, 2) := by decide +kernel

/-- Section 2.4, run H2: step 1, a header hop with the IF offset on the wide grid. -/
theorem test_hop_step_if_offset :
    (after .hopStep { stBegun with
        cfg := ⟨6, .r2_3, 3, .wide, 0x13A⟩
        frame := ⟨true, 503, 7⟩
        hop := ⟨28, 6, 6, 55, 54, 58, 389, 6, 1, 3, 0x36400000⟩ }).map (fun t => (t.res, t.hop.state)) =
      some (⟨23, 0x36437500, 114, 1⟩, 45) := by decide +kernel

/-- P4, `pc` 13, and the refusal before a begin. -/
theorem test_hop_reset :
    ((after .hopReset stLast).map (fun t => (t.status, t.hop)) =
      some (0x00000100, ⟨10, 6, 6, 6, 33, 0, 0, 0, 0, 1, 0x36400000⟩)) ∧
    ((after .hopReset State.reset).map (fun t => t.status) = some 0x00000003) := by decide +kernel

/-- An unwritten byte of `IN` ends a run in the model's fault (R37), and not before the checks (P4, `pc` 14). -/
theorem test_unwritten_input_faults :
    faultOf (.convEncode 9) (withIn [0x80] (stConv .two 0)) = some .readOfUnwrittenInput ∧
    faultOf (.fhssEncode 1) stBegun = some .readOfUnwrittenInput ∧
    (after (.fhssEncode 256) stBegun).map (fun t => t.status) = some 0x00000104 := by decide +kernel

/-- P4, `pc` 11 and 12: an illegal word through the step. -/
theorem test_step_illegal_word :
    (stepped? { stBegun with pending := [.command 0x4100000000000001] }).map (fun t => (t.status, t.pc)) =
      some (0x00000101, 1) ∧
    (stepped? (stBegun.withFetchWord 64 0x4200000000000000)).map (fun t => (t.status, t.pc)) =
      some (0x00000100, 1) := by decide +kernel

/-! ## Witnesses: the hypotheses of each statement, met together -/

/-- A command completes in a state with a property. -/
theorem next_of {i : Instr} {s : State} (p : State → Prop) [DecidablePred p]
    (h : (after i s).any (fun t => decide (p t)) = true) : ∃ t, exec i s = .next t ∧ p t := by
  cases ha : after i s with
  | none => rw [ha] at h; cases h
  | some t => rw [ha] at h; exact ⟨t, exec_of_after ha, of_decide_eq_true h⟩

/-- A step leads to a state with a property. -/
theorem step_of {s : State} (p : State → Prop) [DecidablePred p]
    (h : (stepped? s).any (fun t => decide (p t)) = true) : ∃ t, step s = .next t ∧ p t := by
  cases ha : stepped? s with
  | none => rw [ha] at h; cases h
  | some t => rw [ha] at h; exact ⟨t, step_of_stepped ha, of_decide_eq_true h⟩

/-- The state with an event pending. -/
def withEvent (e : Event) (s : State) : State := { s with pending := [e] }

/-- All of `IN` written. -/
def fullIn (s : State) : State := withIn (List.replicate 256 0xA5) s

theorem hopParamsOk_stBegun (state : Nat) (h0 : 0 < state) (h1 : state < 64) (left hops idx hdr : Nat) (centre : Word) :
    HopParamsOk cfgRef ⟨10, 6, 6, state, 33, 0, left, hops, idx, hdr, centre⟩ (refHop6 10) where
  entry := show hopEntry cfgRef 10 = some (refHop6 10) by decide +kernel
  width := rfl
  initial := rfl
  polyIn := show 33 ∈ (refHop6 10).polys by decide
  seedFits := show 0 < 2 ^ 6 by decide
  gridFits := show 10 ≤ 2 ^ 6 - 1 by decide
  nonzero := h0
  fits := h1

theorem transmissionOk_reset : TransmissionOk State.reset where
  hdrCountOk := nofun
  hopSeqIdOk := nofun
  hopOk := nofun
  notBegun := fun _ => ⟨rfl, rfl⟩
  flightHas := fun h => (h rfl).elim
  frameOk := nofun
  idleZero := fun _ => rfl

theorem transmissionOk_stBegun : TransmissionOk stBegun where
  hdrCountOk := fun _ => by decide
  hopSeqIdOk := fun _ => by decide
  hopOk := fun _ => ⟨refHop6 10, hopParamsOk_stBegun 6 (by decide) (by decide) 0 0 0 0 0⟩
  notBegun := nofun
  flightHas := fun h => (h rfl).elim
  frameOk := nofun
  idleZero := fun _ => rfl

theorem transmissionOk_stFlight : TransmissionOk stFlight where
  hdrCountOk := fun _ => by decide
  hopSeqIdOk := fun _ => by decide
  hopOk := fun _ => ⟨refHop6 10, hopParamsOk_stBegun 6 (by decide) (by decide) 143 2 0 1 0x36400000⟩
  notBegun := nofun
  flightHas := fun _ => rfl
  frameOk := fun _ => ⟨27, by decide +kernel, by decide +kernel, by decide +kernel, by decide, fun _ => rfl,
    fun _ => rfl, fun _ => by decide +kernel⟩
  idleZero := nofun

theorem transmissionOk_stLast : TransmissionOk stLast where
  hdrCountOk := fun _ => by decide
  hopSeqIdOk := fun _ => by decide
  hopOk := fun _ => ⟨refHop6 10, hopParamsOk_stBegun 3 (by decide) (by decide) 29 1 1 1 0x36400000⟩
  notBegun := nofun
  flightHas := fun _ => rfl
  frameOk := fun _ => ⟨27, by decide +kernel, by decide +kernel, by decide +kernel, by decide, fun _ => rfl,
    fun _ => rfl, fun _ => by decide +kernel⟩
  idleZero := nofun

theorem transmissionOk_withEvent {s : State} (e : Event) (h : TransmissionOk s) : TransmissionOk (withEvent e s) where
  hdrCountOk := h.hdrCountOk
  hopSeqIdOk := h.hopSeqIdOk
  hopOk := h.hopOk
  notBegun := h.notBegun
  flightHas := h.flightHas
  frameOk := fun hv => (h.frameOk hv).imp fun _ f => ⟨f.hops, f.length, f.fits, f.payload, f.copied, f.counted, f.left⟩
  idleZero := h.idleZero

theorem bchCodeOk_stBch : BchCodeOk stBch.bch := by
  constructor <;> decide +kernel

theorem test_witness_DecodeOfEncode :
    Instr.wf (.fhssBegin 255 255 255 .narrow 65535) = true ∧ Instr.wf (.convEncode 4294967295) = true := by decide

theorem test_witness_EncodeOfDecode :
    decode 0x31FFFFFF0001FFFF = .ok (.fhssConfig 255 255 255 .narrow 65535) ∧
    decode 0x32000000FFFFFFFF = .ok (.fhssEncode 4294967295) := by decide

theorem test_witness_DecoderFollowsMaskTable :
    ∃ row ∈ commandTable, (0x31FFFFFF0001FFFF : CommandWord) &&& row.mask = row.pattern := by decide

theorem test_witness_StepRunsDecodedCommand :
    ((withEvent (.command 0x4200000000000000) stLast).pending = [.command 0x4200000000000000] ∧
      decode 0x4200000000000000 = .ok .hopReset) ∧
    decodeTableWord 64 0x4200000000000000 = some .hopReset := by decide

theorem test_witness_IllegalWordIsRefused :
    (∀ row ∈ commandTable, (0x3000000100020000 : CommandWord) &&& row.mask ≠ row.pattern) ∧
    (withEvent (.command 0x3000000100020000) State.reset).pending = [.command 0x3000000100020000] := by decide

theorem test_witness_ErrorKindChangesNothingElse : ∃ t, exec (.convBegin 4) stBegun = .next t ∧ t.kind ≠ .ok :=
  next_of (fun t => t.kind ≠ .ok) (by decide +kernel)

theorem test_witness_PcCountsCommands :
    (∃ t, exec .hopReset stLast = .next t ∧ True) ∧
    (∃ t, step (withEvent (.write (.byte .inBuf 255) 1) stLast) = .next t ∧ True) ∧
    (∃ t, step (withEvent (.command 0x4200000000000000) stLast) = .next t ∧ True) ∧
    (withEvent (.command 0x4200000000000000) stLast).pending.head? ≠ some .reset :=
  ⟨next_of (fun _ => True) (by decide +kernel), step_of (fun _ => True) (by decide +kernel),
    step_of (fun _ => True) (by decide +kernel), by decide⟩

theorem test_witness_StatusLayout :
    stFlight.hop.hopsRemaining ≠ 0 ∧ stBegun.hop.hopsRemaining = 0 ∧ (stConv .two 0).conv.rate ≠ none ∧ 13 ≤ 13 := by
  decide

theorem test_witness_ResetEventResets : (withEvent .reset stFlight).pending = .reset :: [] := rfl

/-- A `CFG` whose 5/6 pattern keeps no bit before the 73rd (log 13). -/
def lateCfg : Cfg := { cfgRef with punct5_6 := List.replicate 72 false ++ List.replicate 48 true }

/-- Log 13: this `CFG` meets R9 and R193, but by R159 and R175 the empty payload would have `expandedBits = 0` and
`hopCount = hdrCount`, against R31 (f); the model does not start under it. -/
theorem test_cfg_without_payload_hop_refused :
    cfgWf lateCfg = true ∧ expandedBits lateCfg .r5_6 66 = 0 ∧ frameHopCount lateCfg stBegun.cfg 0 = 1 ∧
    cfgKeepsPayload lateCfg = false := by decide +kernel

theorem test_witness_ResetHoldsInvariants :
    cfgWf cfgRef = true ∧ cfgKeepsPayload cfgRef = true ∧ patternsStartKept cfgRef ∧
    cfgWf { cfgRef with syncWord := [] } ≠ true ∧ cfgKeepsPayload lateCfg ≠ true := by
  unfold patternsStartKept
  exact ⟨cfgRef_wf, cfgRef_keepsPayload, by decide, by decide +kernel, by decide⟩

theorem test_witness_BuffersStayCanonical :
    BuffersOk (withEvent (.command 0x1100000000000800) (fullIn (stConv .three 63))) ∧
    ∃ t, step (withEvent (.command 0x1100000000000800) (fullIn (stConv .three 63))) = .next t ∧ t.kind = .ok :=
  ⟨fun sp => by cases sp <;> decide +kernel, step_of (fun t => t.kind = .ok) (by decide +kernel)⟩

theorem test_witness_ConvStateStaysInWidth :
    ConvOk (withEvent (.command 0x1100000000000008) (withIn [0xFF] (stConv .two 15))) ∧
    ∃ t, step (withEvent (.command 0x1100000000000008) (withIn [0xFF] (stConv .two 15))) = .next t ∧
      t.conv.state = 15 :=
  ⟨fun r hr => by cases hr; decide, step_of (fun t => t.conv.state = 15) (by decide +kernel)⟩

theorem test_witness_BchCodeStaysLegal :
    BchOk (withEvent (.command 0x200704000000000B) stBch) ∧
    ∃ t, step (withEvent (.command 0x200704000000000B) stBch) = .next t ∧ t.bch.valid = true ∧ t.bch ≠ stBch.bch :=
  ⟨fun _ => bchCodeOk_stBch, step_of (fun t => t.bch.valid = true ∧ t.bch ≠ stBch.bch) (by decide +kernel)⟩

theorem test_witness_TransmissionStaysConsistent :
    TransmissionOk (withEvent (.command 0x4100000000000000) stFlight) ∧
    ∃ t, step (withEvent (.command 0x4100000000000000) stFlight) = .next t ∧ t.hop.hopsRemaining = 1 :=
  ⟨transmissionOk_withEvent _ transmissionOk_stFlight, step_of (fun t => t.hop.hopsRemaining = 1) (by decide +kernel)⟩

theorem test_witness_OnlyUnwrittenInputFaults :
    TransmissionOk (withEvent (.command 0x3200000000000001) stBegun) ∧
    step (withEvent (.command 0x3200000000000001) stBegun) = .fault .readOfUnwrittenInput ∧
    exec .hopStep stLast ≠ .fault .hopRetryExhausted ∧ TransmissionOk stLast := by
  refine ⟨transmissionOk_withEvent _ transmissionOk_stBegun, ?_, ?_, transmissionOk_stLast⟩
  · exact exec_of_faultOf (i := .fhssEncode 1) (s := { stBegun with pending := [] }) (by decide +kernel)
  · obtain ⟨t, h, -⟩ := next_of (i := .hopStep) (s := stLast) (fun _ => True) (by decide +kernel)
    rw [h]
    nofun

theorem test_witness_CommandsTouchTheirBytes :
    (withIn [0xA5, 0xC0] (stConv .three 0)).conv.rate = some .three ∧ ceilDiv (convDenominator .three * 10) 8 ≤ 4 ∧
    ∃ t, exec (.convEncode 10) (withIn [0xA5, 0xC0] (stConv .three 0)) = .next t ∧ t.kind = .ok :=
  ⟨rfl, by decide, next_of (fun t => t.kind = .ok) (by decide +kernel)⟩

theorem test_witness_CommandsWriteTheirResults : ∃ t, exec (.hopStart 5) stFrame = .next t ∧ t.kind = .ok :=
  next_of (fun t => t.kind = .ok) (by decide +kernel)

theorem test_witness_CommandsWriteTheirUnits : ∃ t, exec .hopStep stLast = .next t ∧ t.kind = .ok :=
  next_of (fun t => t.kind = .ok) (by decide +kernel)

theorem test_witness_BchUnitStandsApart :
    (∃ t, step (withEvent (.command 0x200704000000000B) stBch) = .next t ∧
      t.bch ≠ (withEvent (.command 0x200704000000000B) stBch).bch) ∧
    Instr.mnemonic (.fhssEncode 0) ∉ ["BCH.BEGIN", "BCH.ENCODE"] ∧
    (∃ t, exec (.fhssEncode 0) stBegun = .next t ∧ t.kind = .ok) ∧
    exec (.fhssEncode 1) stBegun = .fault .readOfUnwrittenInput :=
  ⟨step_of (fun t => t.bch ≠ (withEvent (.command 0x200704000000000B) stBch).bch) (by decide +kernel), by decide,
    next_of (fun t => t.kind = .ok) (by decide +kernel), exec_of_faultOf (by decide +kernel)⟩

theorem test_witness_OnlyResetUnbegins :
    stLast.begun = true ∧ stBch.bch.valid = true ∧ (stConv .two 0).conv.rate ≠ none ∧
    (withEvent (.command 0x4100000000000000) stLast).pending.head? ≠ some .reset ∧
    ∃ t, step (withEvent (.command 0x4100000000000000) stLast) = .next t ∧ t.frame.valid = false :=
  ⟨rfl, rfl, by decide, by decide, step_of (fun t => t.frame.valid = false) (by decide +kernel)⟩

theorem test_witness_FrameLifetimeEvents :
    (∃ t, exec (.hopStart 0) stFlight = .next t ∧ t.kind ≠ .ok) ∧
    (∃ t, exec (.fhssEncode 0) stBegun = .next t ∧ t.kind = .ok) ∧
    (∃ t, exec .hopReset stFlight = .next t ∧ t.kind = .ok) ∧
    (∃ t, exec .hopStep stFlight = .next t ∧ t.kind = .ok ∧ t.hop.hopsRemaining ≠ 0) ∧
    (∃ t, exec .hopStep stLast = .next t ∧ t.kind = .ok ∧ t.hop.hopsRemaining = 0) ∧
    (∃ t, exec (.convBegin 2) stFlight = .next t ∧ t.kind = .ok) :=
  ⟨next_of (fun t => t.kind ≠ .ok) (by decide +kernel), next_of (fun t => t.kind = .ok) (by decide +kernel),
    next_of (fun t => t.kind = .ok) (by decide +kernel),
    next_of (fun t => t.kind = .ok ∧ t.hop.hopsRemaining ≠ 0) (by decide +kernel),
    next_of (fun t => t.kind = .ok ∧ t.hop.hopsRemaining = 0) (by decide +kernel),
    next_of (fun t => t.kind = .ok) (by decide +kernel)⟩

theorem test_witness_FirstFailingCheckDecides_units :
    ((withEvent (.command 0x4100000000000001) stFlight).pending = [.command 0x4100000000000001] ∧
      decode 0x4100000000000001 = .error .unusedFieldNotZero) ∧
    ((1 : Nat) ≠ 2 ∧ (4 : Nat) ≠ 3) ∧
    State.reset.conv.rate = none ∧ (stConv .two 0).conv.rate ≠ none ∧ 2049 > 2048 ∧
    (3#32).toNat < 4 ∧ 30 ≠ 2 ^ deg (0x25#32).toNat - 1 ∧ 63 > 31 ∧
    primitive (deg (0x1F#32).toNat) (0x1F#32).toNat 15 = false ∧
    findGenerator (deg (0x25#32).toNat) (0x25#32).toNat 31 20 = none ∧
    State.reset.bch.valid = false := by decide +kernel

theorem test_witness_FirstFailingCheckDecides_fhss :
    chanCount cfgRef 10 = none ∧ chanCount cfgRef 0 = some 80 ∧
    hopEntry cfgRef (80 / gridChannels cfgRef .wide) = none ∧
    hopEntry cfgRef (80 / gridChannels cfgRef .narrow) = some (refHop6 10) ∧ 384 ≥ (refHop6 10).idLimit ∧
    State.reset.begun = false ∧ stBegun.begun = true ∧ stBegun.hop.hopsRemaining = 0 ∧
    stFlight.hop.hopsRemaining ≠ 0 ∧ stBegun.frame.valid = false ∧
    frameBitLength cfgRef stBegun.cfg 190 > 2040 ∧
    exec (.fhssBegin 10 0 1 .narrow 0) stBegun = refusedWith .invalidBandwidth stBegun := by
  refine ⟨by decide +kernel, by decide +kernel, by decide +kernel, by decide +kernel, by decide +kernel, rfl, rfl, rfl,
    by decide, rfl, by decide +kernel, exec_of_after (by decide +kernel)⟩

theorem test_witness_HostAccesses :
    255 < 256 ∧ Loc.byte .inBuf 256 ≠ .byte .inBuf 255 ∧ Space.frameBuf.size ≤ 255 ∧ 767 < Space.outBuf.size ∧
    (fullIn State.reset).byteAt .inBuf 255 = some 0xA5 ∧ 4 ≤ 4 ∧
    (withEvent (.read (.byte .outBuf 768)) stBch).pending = .read (.byte .outBuf 768) :: [] ∧
    (withEvent (.write (.byte .inBuf 255) 1) stBch).pending = .write (.byte .inBuf 255) 1 :: [] := by decide +kernel

theorem test_witness_HostAccesses_frame :
    ∃ t, exec (.fhssEncode 0) stBegun = .next t ∧ t.frame.valid = true ∧ t.byteAt .frameBuf 254 = some 0 :=
  next_of (fun t => t.frame.valid = true ∧ t.byteAt .frameBuf 254 = some 0) (by decide +kernel)

theorem test_witness_UnspecifiedBytesAreDrawn :
    (767 < Space.outBuf.size ∧ State.reset.byteAt .outBuf 767 = none) ∧
    (254 < Space.frameBuf.size ∧ stBegun.frame.valid = false) := by decide

theorem test_witness_HiddenRegistersUnreadable :
    hostRead (.res 4) stFlight = .refused .noHostMove ∧
    ∃ t, hostRead .status stFlight = .next t := ⟨rfl, _, rfl⟩

theorem test_witness_ConvEncodeCompletes :
    (fullIn (stConv .three 63)).conv.rate = some .three ∧ (List.replicate 256 (0xA5 : Byte)).length = ceilDiv 2048 8 ∧
    inputIs (List.replicate 256 0xA5) (fullIn (stConv .three 63)) ∧
    ([] : List Byte).length = ceilDiv 0 8 ∧ inputIs [] (stConv .three 63) := by
  unfold inputIs
  exact ⟨rfl, by decide +kernel, by decide +kernel, by decide, by decide⟩

theorem test_witness_UnwrittenInputFaults :
    (stConv .two 0).conv.rate ≠ none ∧
    ¬ inputWritten (ceilDiv 2048 8) (withIn (List.replicate 255 0) (stConv .two 0)) ∧
    stBegun.begun = true ∧ stBegun.hop.hopsRemaining = 0 ∧ frameBitLength cfgRef stBegun.cfg 189 ≤ 2040 ∧
    ¬ inputWritten 189 (withIn (List.replicate 188 0) stBegun) := by
  unfold inputWritten
  refine ⟨by decide, by decide +kernel, rfl, rfl, by decide +kernel, by decide +kernel⟩

theorem test_witness_EncoderStateIsShiftRegister :
    cfgWf cfgRef = true ∧ 2 + 1 < convStateBits cfgRef .two ∧ 4 + 1 < convStateBits cfgRef .three ∧
    convStateBits cfgRef .three ≤ 6 := ⟨cfgRef_wf, by decide⟩

theorem test_witness_EncoderLaws :
    cfgWf cfgRef = true ∧
    convEncodeBits cfgRef .two 0 [true, false] = ([true, true, false, true], 2) ∧
    convEncodeBits cfgRef .two 2 [false] = ([true, false], 4) ∧
    convStateBits cfgRef .two ≤ [true, false, true, true].length := by decide +kernel

theorem test_witness_ConvOutputPositions :
    inputIs [0xA5, 0xC0] (withIn [0xA5, 0xC0] (stConv .three 0)) ∧ [0xA5#8, 0xC0].length = ceilDiv 10 8 ∧
    (∃ t, exec (.convEncode 10) (withIn [0xA5, 0xC0] (stConv .three 0)) = .next t ∧ t.kind = .ok) ∧
    9 < 10 ∧ 2 < convDenominator .three := by
  unfold inputIs
  exact ⟨by decide +kernel, by decide, next_of (fun t => t.kind = .ok) (by decide +kernel), by decide, by decide⟩

/-- Section 2.1: split equals whole. -/
theorem test_witness_TwoEncodesEqualOne :
    (inputIs [0xA5] (withIn [0xA5] (stConv .two 0)) ∧ inputIs [0x5C] (withIn [0x5C] (stConv .two 10)) ∧
      inputIs [0xA5, 0xC0] (withIn [0xA5, 0xC0] (stConv .two 0))) ∧
    bitsOf [0xA5, 0xC0] (4 + 6) = bitsOf [0xA5] 4 ++ bitsOf [0x5C] 6 ∧
    (∃ t, exec (.convEncode 4) (withIn [0xA5] (stConv .two 0)) = .next t ∧ t.kind = .ok ∧
      (withIn [0x5C] (stConv .two 10)).conv = t.conv ∧ bufferBit t .outBuf 7 = some true) ∧
    (∃ v, exec (.convEncode 6) (withIn [0x5C] (stConv .two 10)) = .next v ∧ v.kind = .ok ∧
      bytesAt .outBuf 2 v = [some 0x59, some 0x30]) ∧
    (∃ t', exec (.convEncode 10) (withIn [0xA5, 0xC0] (stConv .two 0)) = .next t' ∧ t'.kind = .ok ∧
      bytesAt .outBuf 3 t' = [some 0xD7, some 0x59, some 0x30]) := by
  unfold inputIs
  exact ⟨by decide +kernel, by decide +kernel,
    next_of (fun t => t.kind = .ok ∧ (withIn [0x5C] (stConv .two 10)).conv = t.conv ∧ bufferBit t .outBuf 7 = some true)
      (by decide +kernel),
    next_of (fun v => v.kind = .ok ∧ bytesAt .outBuf 2 v = [some 0x59, some 0x30]) (by decide +kernel),
    next_of (fun t' => t'.kind = .ok ∧ bytesAt .outBuf 3 t' = [some 0xD7, some 0x59, some 0x30]) (by decide +kernel)⟩

theorem test_witness_SecondPassTailBites :
    convStateBits cfgRef .two ≤ 4 ∧ [0x0A#8].length = ceilDiv 4 8 ∧ inputIs [0x0A] (withIn [0x0A] (stConv .two 0)) ∧
    ∃ t, exec (.convEncode 4) (withIn [0x0A] (stConv .two 0)) = .next t ∧ t.kind = .ok := by
  unfold inputIs
  exact ⟨by decide, by decide, by decide, next_of (fun t => t.kind = .ok) (by decide +kernel)⟩

theorem test_witness_BchBeginBuildsCode :
    (31 = 2 ^ deg (0x25#32).toNat - 1 ∧ primitive (deg (0x25#32).toNat) (0x25#32).toNat 31 = true ∧
      (rootSet 31 (deg (0x25#32).toNat) 2).length = 31 - 21 ∧
      ∀ t', 1 ≤ t' → t' < 2 → (rootSet 31 (deg (0x25#32).toNat) t').length < 31 - 21) ∧
    (3 = 2 ^ deg (0x7#32).toNat - 1 ∧ primitive (deg (0x7#32).toNat) (0x7#32).toNat 3 = true ∧
      (rootSet 3 (deg (0x7#32).toNat) 1).length = 3 - 1) := by
  refine ⟨⟨by decide +kernel, by decide +kernel, by decide +kernel, fun t' h1 h2 => ?_⟩, by decide +kernel⟩
  obtain rfl : t' = 1 := by omega
  decide +kernel

theorem test_witness_BchEncodeCompletes : stBch.bch.valid = true ∧ BchOk stBch := ⟨rfl, fun _ => bchCodeOk_stBch⟩

theorem test_witness_DivisionBitByBit : 21 ≤ 31 ∧ 0x769 ≠ 0 ∧ deg 0x769 = 31 - 21 ∧ 2 ^ 21 - 1 < 2 ^ 21 := by
  decide +kernel

theorem test_witness_BchCodeLaws : BchCodeOk stBch.bch ∧ 20 < stBch.bch.k := ⟨bchCodeOk_stBch, by decide⟩

theorem test_witness_FhssBeginCompletes :
    codingRateCode .r1_3 = 3 ∧ chanCount cfgRef 9 = some 3224 ∧
    hopEntry cfgRef (3224 / gridChannels cfgRef .narrow) = some (refHop9 403) ∧ 511 < (refHop9 403).idLimit := by
  decide +kernel

theorem test_witness_FhssConfigCompletes :
    stFlight.begun = true ∧ codingRateCode .r5_6 = 0 ∧ chanCount cfgRef 0 = some 80 ∧
    hopEntry cfgRef (80 / gridChannels cfgRef .narrow) = some (refHop6 10) ∧ 383 < (refHop6 10).idLimit := by
  decide +kernel

/-- Section 2.3: rate 5/6 with three headers and 167 bytes needs exactly 2040 bits. -/
def stLongest : State :=
  withIn (List.replicate 167 0) { stBegun with cfg := ⟨0, .r5_6, 3, .narrow, 0⟩ }

theorem test_witness_FhssEncodeCompletes :
    stLongest.begun = true ∧ stLongest.hop.hopsRemaining = 0 ∧ (List.replicate 167 (0 : Byte)).length ≤ 255 ∧
    frameBitLength cfgRef stLongest.cfg (List.replicate 167 (0 : Byte)).length = 2040 ∧ 1 ≤ stLongest.cfg.hdrCount ∧
    inputIs (List.replicate 167 0) stLongest := by
  unfold inputIs
  exact ⟨rfl, rfl, by decide +kernel, by decide +kernel, by decide, by decide +kernel⟩

theorem test_witness_FrameCountsMatchFrame :
    inputIs [1, 2, 3] stF1 ∧ (∃ t, exec (.fhssEncode 3) stF1 = .next t ∧ t.kind = .ok) := by
  unfold inputIs
  exact ⟨by decide, next_of (fun t => t.kind = .ok) (by decide +kernel)⟩

theorem test_witness_FrameStoredInBuffer :
    inputIs [1, 2, 3] stF1 ∧
    (∃ t, exec (.fhssEncode 3) stF1 = .next t ∧ t.kind = .ok ∧ 257 < t.frame.bitLength ∧ ¬ 258 < t.frame.bitLength) ∧
    2039 < 8 * 255 := by
  unfold inputIs
  exact ⟨by decide,
    next_of (fun t => t.kind = .ok ∧ 257 < t.frame.bitLength ∧ ¬ 258 < t.frame.bitLength) (by decide +kernel), by decide⟩

theorem test_witness_FrameLayout :
    cfgWf cfgRef = true ∧
    0 < stF1.cfg.hdrCount ∧ 1 < cfgRef.hdrGuardBits ∧ cfgRef.hdrPerm[79]? = some 69 ∧
    cfgRef.syncWord[31]? = some true ∧ 2 < ceilDiv (payloadStream cfgRef stF1.cfg [1, 2, 3]).length 48 ∧
    48 * 2 + 41 < (payloadStream cfgRef stF1.cfg [1, 2, 3]).length ∧ 41 < 48 := by decide +kernel

theorem test_witness_HeaderFieldsLaidOut :
    255 < 256 ∧ (⟨255, .r1_3, 4, .narrow, 511⟩ : FhssCfg).hopSeqId ≤ 511 ∧ 3 < 4 := by decide

theorem test_witness_HeaderTailBites : cfgWf cfgRef = true ∧ [0x0A#8, 0x0A, 0xD3, 0xA8, 0x9A].length = 5 :=
  ⟨cfgRef_wf, rfl⟩

/-- A second state with the payload of `stF1`, that differs in what R148 says does not count. -/
def stF1Other : State := { withIn [1, 2, 3, 4] stF1 with conv := ⟨some .three, 63⟩, res := ⟨1, 2, 3, 4⟩, pc := 7 }

theorem test_witness_EncodeIsPure :
    stF1.CFG = stF1Other.CFG ∧ stF1.cfg = stF1Other.cfg ∧
    (∀ a, a < 3 → stF1.byteAt .inBuf a = stF1Other.byteAt .inBuf a) ∧
    (∃ t, exec (.fhssEncode 3) stF1 = .next t ∧ t.kind = .ok) ∧
    (∃ t', exec (.fhssEncode 3) stF1Other = .next t' ∧ t'.kind = .ok) :=
  ⟨rfl, rfl, by decide, next_of (fun t => t.kind = .ok) (by decide +kernel),
    next_of (fun t => t.kind = .ok) (by decide +kernel)⟩

theorem test_witness_WhiteningLaws :
    [0x48#8, 0x65][1]? = some 0x65 ∧ [0x48#8, 0x65].length = [0x01#8, 0x02].length := by decide

theorem test_witness_PuncturedLength :
    cfgWf cfgRef = true ∧ cfgKeepsPayload cfgRef = true ∧ cfgKeepsPayload lateCfg = false ∧
    punct cfgRef .r2_3 = some [true, true, false, true, false, false] ∧
    (List.replicate 30 true).length % cfgRef.punct5_6.length = 0 ∧
    (List.replicate 30 true).length % cfgRef.punct2_3.length = 0 ∧
    (List.replicate 30 true).length % cfgRef.punct1_2.length = 0 := by decide +kernel

theorem test_witness_InterleaverPermutes :
    (7 ≤ 7 ∨ (1 ≤ 7 ∧ true = false)) ∧ (7 ≤ 1 ∨ (1 ≤ 1 ∧ false = false)) := by decide

theorem test_witness_HopStartCompletes :
    stFrame.begun = true ∧ stFrame.hop.hopsRemaining = 0 ∧ stFrame.frame.valid = true := ⟨rfl, rfl, rfl⟩

theorem test_witness_HopStepCompletes :
    (TransmissionOk stFlight ∧ stFlight.begun = true ∧ stFlight.hop.hopsRemaining ≠ 0 ∧ stFlight.hop.nGrid < 2 ^ 32) ∧
    (TransmissionOk stLast ∧ stLast.begun = true ∧ stLast.hop.hopsRemaining = 1) :=
  ⟨⟨transmissionOk_stFlight, rfl, by decide, by decide⟩, transmissionOk_stLast, rfl, rfl⟩

theorem test_witness_LastHopEndsFrame :
    TransmissionOk stLast ∧
    (∃ t, exec .hopStep stLast = .next t ∧ t.kind = .ok ∧ t.hop.hopsRemaining = 0 ∧
      ∃ u, exec (.fhssEncode 0) t = .next u ∧ u.kind = .ok) := by
  obtain ⟨t, h, hk, hr, hu⟩ := next_of (i := .hopStep) (s := stLast)
    (fun t => t.kind = .ok ∧ t.hop.hopsRemaining = 0 ∧
      (after (.fhssEncode 0) t).any (fun u => decide (u.kind = .ok)) = true) (by decide +kernel)
  exact ⟨transmissionOk_stLast, t, h, hk, hr, next_of (fun u => u.kind = .ok) hu⟩

theorem test_witness_HopResetCompletes : stFlight.begun = true ∧ stBegun.begun = true := ⟨rfl, rfl⟩

theorem test_witness_LfsrCycles : lfsrFullPeriod 6 33 = true ∧ 0 < 63 ∧ 63 < 2 ^ 6 := by decide +kernel

theorem test_witness_HopCandidatesOnce :
    63 < 2 ^ 6 ∧ lfsrFullPeriod 6 33 = true ∧ 0 < 6 ∧ 6 < 2 ^ 6 ∧ hopNext 6 6 33 0 10 = some (3, 3) := by
  decide +kernel

theorem test_witness_HopSequenceHasFullPeriod :
    lfsrFullPeriod 6 54 = true ∧ 58 < 2 ^ 6 ∧ 1 ≤ 63 ∧ 63 ≤ 2 ^ 6 - 1 ∧ 0 < 1 ∧ 1 < 2 ^ 6 := by decide +kernel

theorem test_witness_FrequencyOfHop :
    stFlight.begun = true ∧ stFlight.hop.hopsRemaining ≠ 0 ∧
    hopNext stFlight.hop.w stFlight.hop.state stFlight.hop.poly stFlight.hop.seed stFlight.hop.nGrid = some (3, 3) ∧
    1 ≤ stFlight.hop.nGrid ∧ 1 ≤ 4 := by decide +kernel

theorem test_witness_FlightLocksFrame :
    stFlight.begun = true ∧ stFlight.hop.hopsRemaining ≠ 0 ∧
    (∃ t, exec (.fhssBegin 0 0 1 .narrow 0) stFlight = .next t ∧ t.kind = .ok) ∧
    (∃ t, exec .hopReset stFlight = .next t ∧ t.kind = .ok) :=
  ⟨rfl, by decide, next_of (fun t => t.kind = .ok) (by decide +kernel), next_of (fun t => t.kind = .ok) (by decide +kernel)⟩

end Sys2Proof.Machine.Tests
end

section
/-! What a command can do, said once for all ten, and when every step keeps a property of the block. -/

namespace Sys2Proof.Machine

/-- What a command that ends with `Ok` makes of the unit state, one constructor a command. The kind and `pc` are apart
(`done`). -/
inductive Effect : Instr → State → State → Prop
  | convBegin {s : State} {rate : Nat} (r : ConvRate) (hr : rateOfDenominator rate = some r) :
      Effect (.convBegin rate) s { s with conv := ⟨some r, 0⟩ }
  | convEncode {s : State} {nbits : Nat} (r : ConvRate) (bytes : List Byte) (hr : s.conv.rate = some r)
      (hn : nbits ≤ 8 * inBytes) (hread : Memory.readBytes s.inBuf 0 (ceilDiv nbits 8) = some bytes) :
      Effect (.convEncode nbits) s (convEncoded r nbits bytes s)
  | bchBegin {s : State} {n k : Nat} {poly : Word} (t g : Nat) (hg : bchGenerator n k poly.toNat = some (t, g)) :
      Effect (.bchBegin n k poly) s
        { s with bch := bchUnitOf n k poly g, res := { s.res with r0 := toWord g, r1 := toWord t } }
  | bchEncode {s : State} {d : Word} (hv : s.bch.valid = true) :
      Effect (.bchEncode d) s
        { s with res := { s.res with r0 := toWord (Machine.bchEncode s.bch.n s.bch.k s.bch.gen d.toNat) } }
  | fhssBegin {s : State} {bw cr hdrCount id : Nat} {grid : Grid} (v : HopParams)
      (hv : validateConfig s.CFG.toCfg bw cr hdrCount grid id = .ok v) :
      Effect (.fhssBegin bw cr hdrCount grid id) s (applyConfig bw hdrCount grid id v { s with begun := true })
  | fhssConfig {s : State} {bw cr hdrCount id : Nat} {grid : Grid} (v : HopParams) (hb : s.begun = true)
      (hv : validateConfig s.CFG.toCfg bw cr hdrCount grid id = .ok v) :
      Effect (.fhssConfig bw cr hdrCount grid id) s (applyConfig bw hdrCount grid id v s)
  | fhssEncode {s : State} {len : Nat} (payload : List Byte) (hcheck : encodeCheck len s = none)
      (hread : Memory.readBytes s.inBuf 0 len = some payload) :
      Effect (.fhssEncode len) s (encoded payload s)
  | hopStart {s : State} {centre : Word} (hb : s.begun = true) (hidle : s.hop.hopsRemaining = 0)
      (hvalid : s.frame.valid = true) :
      Effect (.hopStart centre) s { s with hop := hopArmed centre s }
  | hopStep {s : State} (st hopv : Nat) (hb : s.begun = true) (hflight : s.hop.hopsRemaining ≠ 0)
      (hnext : hopNext s.hop.w s.hop.state s.hop.poly s.hop.seed s.hop.nGrid = some (st, hopv)) :
      Effect .hopStep s (stepped st hopv s)
  | hopReset {s : State} (hb : s.begun = true) :
      Effect .hopReset s { s with hop := hopIdle s.hop, frame := { s.frame with valid := false } }

/-- What a command that answers a next state can do: end with an error kind and no effect (R225), or with `Ok` and its
effect. -/
theorem exec_next {i : Instr} {s t : State} (h : exec i s = .next t) :
    (∃ k, k ≠ .ok ∧ t = failed k s) ∨ ∃ u, Effect i s u ∧ t = done u := by
  cases i with
  | convBegin rate =>
    obtain ⟨-, rfl⟩ | ⟨r, hr, rfl⟩ := execConvBegin_next h
    · exact .inl ⟨_, by decide, rfl⟩
    · exact .inr ⟨_, .convBegin r hr, rfl⟩
  | convEncode nbits =>
    obtain ⟨-, rfl⟩ | ⟨-, -, rfl⟩ | ⟨r, bytes, hr, hn, hread, rfl⟩ := execConvEncode_next h
    · exact .inl ⟨_, by decide, rfl⟩
    · exact .inl ⟨_, by decide, rfl⟩
    · exact .inr ⟨_, .convEncode r bytes hr hn hread, rfl⟩
  | bchBegin n k poly =>
    obtain ⟨-, rfl⟩ | ⟨d, g, hg, rfl⟩ := execBchBegin_next h
    · exact .inl ⟨_, by decide, rfl⟩
    · exact .inr ⟨_, .bchBegin d g hg, rfl⟩
  | bchEncode d =>
    obtain ⟨-, rfl⟩ | ⟨hv, rfl⟩ := execBchEncode_next h
    · exact .inl ⟨_, by decide, rfl⟩
    · exact .inr ⟨_, .bchEncode hv, rfl⟩
  | fhssBegin bw cr hdrCount grid id =>
    obtain ⟨k, hk, rfl⟩ | ⟨v, hv, rfl⟩ := execFhssBegin_next h
    · exact .inl ⟨_, validateConfig_error_ne_ok hk, rfl⟩
    · exact .inr ⟨_, .fhssBegin v hv, rfl⟩
  | fhssConfig bw cr hdrCount grid id =>
    obtain ⟨-, rfl⟩ | ⟨-, k, hk, rfl⟩ | ⟨hb, v, hv, rfl⟩ := execFhssConfig_next h
    · exact .inl ⟨_, by decide, rfl⟩
    · exact .inl ⟨_, validateConfig_error_ne_ok hk, rfl⟩
    · exact .inr ⟨_, .fhssConfig v hb hv, rfl⟩
  | fhssEncode len =>
    obtain ⟨k, hk, rfl⟩ | ⟨payload, hcheck, hread, rfl⟩ := execFhssEncode_next h
    · exact .inl ⟨_, encodeCheck_ne_ok hk, rfl⟩
    · exact .inr ⟨_, .fhssEncode payload hcheck hread, rfl⟩
  | hopStart centre =>
    obtain ⟨-, rfl⟩ | ⟨-, -, rfl⟩ | ⟨hb, hidle, hvalid, rfl⟩ := execHopStart_next h
    · exact .inl ⟨_, by decide, rfl⟩
    · exact .inl ⟨_, by decide, rfl⟩
    · exact .inr ⟨_, .hopStart hb hidle hvalid, rfl⟩
  | hopStep =>
    obtain ⟨-, rfl⟩ | ⟨-, -, rfl⟩ | ⟨hb, hflight, st, hopv, hnext, rfl⟩ := execHopStep_next h
    · exact .inl ⟨_, by decide, rfl⟩
    · exact .inl ⟨_, by decide, rfl⟩
    · exact .inr ⟨_, .hopStep st hopv hb hflight hnext, rfl⟩
  | hopReset =>
    obtain ⟨-, rfl⟩ | ⟨hb, rfl⟩ := execHopReset_next h
    · exact .inl ⟨_, by decide, rfl⟩
    · exact .inr ⟨_, .hopReset hb, rfl⟩

/-- The property looks at the block's state alone: not at the last result kind, `pc`, and what is the host's or the
model's (R31 speaks of no other). -/
def IgnoresBookkeeping (P : State → Prop) : Prop :=
  ∀ (s : State) (k : ResultKind) (pc : Nat) (pending : List Event) (seen : List (Loc × Word)) (draws : Nat),
    P s → P { s with kind := k, pc := pc, pending := pending, seen := seen, draws := draws }

/-- A property of the block's state that every command's effect, every host write and reset keep, every step keeps. -/
theorem step_keeps {P : State → Prop} (hbook : IgnoresBookkeeping P)
    (heffect : ∀ {i s u}, Effect i s u → P s → P u)
    (hwrite : ∀ {s a} (b : Byte), a < inBytes → P s → P { s with inBuf := Memory.writeBytes s.inBuf a [b] })
    (hreset : ∀ s, P (hardReset s)) {s t : State} (hP : P s) (hstep : step s = .next t) : P t := by
  obtain ⟨e, rest, -, hcase⟩ := step_cases hstep
  have hP' : P { s with pending := rest } := hbook s s.kind s.pc rest s.seen s.draws hP
  rcases hcase with ⟨w, i, -, -, hex⟩ | ⟨w, x, -, -, rfl⟩ | ⟨loc, -, hread⟩ | ⟨loc, b, -, hwr⟩ | ⟨-, rfl⟩
  · obtain ⟨k, -, rfl⟩ | ⟨u, hu, rfl⟩ := exec_next hex
    · exact hbook _ k _ _ _ _ hP'
    · exact hbook u .ok _ _ _ _ (heffect hu hP')
  · exact hbook s _ _ _ _ _ hP
  · obtain ⟨v, d, rfl⟩ := hostRead_next hread
    exact hbook _ _ _ _ _ d hP'
  · obtain ⟨a, -, ha, rfl⟩ := hostWrite_next hwr
    exact hwrite b ha hP'
  · exact hreset _

end Sys2Proof.Machine
end

section
/-! The frames of the commands: `pc`, the result registers, the units and the frame's lifetime (R21 to R28, R38). -/

namespace Sys2Proof.Machine

/-- No effect touches `pc`: the end of the command advances it. -/
theorem Effect.pc_eq {i : Instr} {s u : State} (h : Effect i s u) : u.pc = s.pc := by
  cases h <;> rfl

/-- No effect touches `CFG` or a field that is the host's or the model's own. -/
theorem Effect.own_fields_eq {i : Instr} {s u : State} (h : Effect i s u) :
    u.CFG = s.CFG ∧ u.pending = s.pending ∧ u.seen = s.seen ∧ u.draws = s.draws := by
  cases h <;> exact ⟨rfl, rfl, rfl, rfl⟩

/-- A command advances `pc` by one and leaves the events still to come (R22). -/
theorem exec_pc_pending {i : Instr} {s t : State} (h : exec i s = .next t) :
    t.pc = s.pc + 1 ∧ t.pending = s.pending := by
  obtain ⟨k, -, rfl⟩ | ⟨u, hu, rfl⟩ := exec_next h
  · exact ⟨rfl, rfl⟩
  · obtain ⟨-, hp, -, -⟩ := hu.own_fields_eq
    exact ⟨congrArg (· + 1) hu.pc_eq, hp⟩

/-- Settles O8: a command moves one from what is pending to `pc`, and no other event but a reset touches either. -/
theorem pcCountsCommands : Obligations.PcCountsCommands := by
  refine ⟨fun i s t h => (exec_pc_pending h).1, fun s t h hreset => ?_⟩
  obtain ⟨e, rest, hp, hcase⟩ := step_cases h
  have hcount : commandsPending s = rest.countP Event.isCommand + if e.isCommand then 1 else 0 := by
    rw [commandsPending, hp, List.countP_cons]
  rw [hcount]
  unfold commandsPending
  rcases hcase with ⟨w, i, rfl, -, hex⟩ | ⟨w, x, rfl, -, rfl⟩ | ⟨loc, rfl, hread⟩ | ⟨loc, b, rfl, hwr⟩ | ⟨rfl, -⟩
  · obtain ⟨hpc, hpend⟩ := exec_pc_pending hex
    rw [hpc, hpend]
    simp only [Event.isCommand, if_true]
    omega
  · simp only [Event.isCommand, if_true]
    omega
  · obtain ⟨v, d, rfl⟩ := hostRead_next hread
    rfl
  · obtain ⟨a, -, -, rfl⟩ := hostWrite_next hwr
    rfl
  · exact absurd (by rw [hp]; rfl) hreset

/-- Settles O18: only the five commands of R21 that give results write a result register, two of them all four. -/
theorem commandsWriteTheirResults : Obligations.CommandsWriteTheirResults := by
  intro i s t h
  obtain ⟨k, -, rfl⟩ | ⟨u, hu, rfl⟩ := exec_next h
  · simp
  · cases hu <;> simp [Instr.mnemonic]

/-- Settles O19: each command's effect is confined to the units R24 to R28 let it write. -/
theorem commandsWriteTheirUnits : Obligations.CommandsWriteTheirUnits := by
  intro i s t h
  obtain ⟨k, -, rfl⟩ | ⟨u, hu, rfl⟩ := exec_next h
  · simp
  · cases hu with
    | convEncode r bytes hr => simp [Instr.mnemonic, hr]
    | _ => simp [Instr.mnemonic]

/-- Settles O22: an error kind changes no flag, and of the effects five write `frame.valid`. -/
theorem frameLifetimeEvents : Obligations.FrameLifetimeEvents := by
  intro i s t h
  obtain ⟨k, hk, rfl⟩ | ⟨u, hu, rfl⟩ := exec_next h
  · simp [hk]
  · cases hu with
    | hopStep st hopv => by_cases hlast : s.hop.hopsRemaining - 1 = 0 <;> simp [Instr.mnemonic, hlast]
    | _ => simp [Instr.mnemonic]

end Sys2Proof.Machine
end

section
/-! `STATUS` (R23), the host's reads (R35, R37, R38), the reads of `IN` by commands (R37), and the `BCH` unit (R34). -/

namespace Sys2Proof.Machine

/-! ## `STATUS` -/

/-- Bits 7:0 of `STATUS` are the code (R23). -/
theorem status_getLsbD_code (s : State) {i : Nat} (h : i < 8) : s.status.getLsbD i = s.kind.code.getLsbD i := by
  simp only [State.status, BitVec.getLsbD_append, if_pos h]

/-- The bits of `STATUS` from 8 on are the five flags, and 0 above them (R23). -/
theorem status_getLsbD_flags (s : State) (j : Nat) :
    s.status.getLsbD (8 + j) =
      [s.begunFlag, s.frameValidFlag, s.hopActiveFlag, s.convInitFlag, s.bchInitFlag].getD j false := by
  simp only [State.status, BitVec.getLsbD_append, BitVec.getLsbD_ofBool]
  rcases j with _ | _ | _ | _ | _ | j
  case succ => simp
  all_goals rfl

/-- Settles O9: `STATUS` is read off bit by bit, and the codes are those of R221's table. -/
theorem statusLayout : Obligations.StatusLayout := by
  refine ⟨fun s => ⟨?_, ?_, ?_, ?_, ?_, ?_, fun i hi => ?_⟩, rfl, rfl, rfl, rfl, rfl, rfl, rfl, rfl, rfl, rfl, rfl, rfl,
    rfl, rfl⟩
  · refine BitVec.eq_of_getLsbD_eq fun i hi => ?_
    rw [BitVec.getLsbD_extractLsb', Nat.zero_add, status_getLsbD_code s hi, decide_eq_true hi, Bool.true_and]
  · exact status_getLsbD_flags s 0
  · exact status_getLsbD_flags s 1
  · rw [status_getLsbD_flags s 2]
    exact bne_iff_ne
  · rw [status_getLsbD_flags s 3]
    exact Option.isSome_iff_ne_none
  · exact status_getLsbD_flags s 4
  · obtain ⟨j, rfl⟩ : ∃ j, i = 8 + (j + 5) := ⟨i - 13, by omega⟩
    exact status_getLsbD_flags s (j + 5)

/-! ## The host's reads -/

/-- The offsets whose byte the spec leaves unspecified to a host read (R37, R38). -/
theorem visibleByte_eq_none {s : State} {sp : Space} {a : Nat}
    (h : s.byteAt sp a = none ∨ (sp = .frameBuf ∧ s.frame.valid = false)) : visibleByte s sp a = none := by
  obtain h | ⟨rfl, h⟩ := h
  · cases sp <;> simp [visibleByte, h]
  · simp [visibleByte, h]

/-- Settles O25: such a byte is not visible, and the read draws it. -/
theorem unspecifiedBytesAreDrawn : Obligations.UnspecifiedBytesAreDrawn := by
  intro s sp a ha h
  simp only [hostRead, if_pos ha, readByte, visibleByte_eq_none h]
  rfl

/-- The next state of an outcome changed by `f`, a stop left as it is. -/
def mapNext (f : State → State) : Host.Outcome State Fault Refusal → Host.Outcome State Fault Refusal
  | .next s => .next (f s)
  | .fault r => .fault r
  | .refused r => .refused r

/-- The same block with other contents in the two registers the host cannot read (R35). -/
def withHidden (x y : Nat) (s : State) : State :=
  { s with conv := { s.conv with state := x }, hop := { s.hop with state := y } }

theorem readByte_withHidden (sp : Space) (a x y : Nat) (s : State) :
    readByte sp a (withHidden x y s) = withHidden x y (readByte sp a s) := by
  have hv : visibleByte (withHidden x y s) sp a = visibleByte s sp a := by cases sp <;> rfl
  unfold readByte
  rw [hv]
  cases visibleByte s sp a <;> rfl

/-- A host read does not look at the hidden registers and does not change them (R35). -/
theorem hostRead_withHidden (loc : Loc) (x y : Nat) (s : State) :
    hostRead loc (withHidden x y s) = mapNext (withHidden x y) (hostRead loc s) := by
  cases loc with
  | byte sp a =>
    simp only [hostRead, readByte_withHidden]
    split <;> rfl
  | res i =>
    simp only [hostRead, withHidden]
    split <;> rfl
  | status => rfl

/-- Settles O26: a read answers the same with other contents in the hidden registers. -/
theorem hiddenRegistersUnreadable : Obligations.HiddenRegistersUnreadable := by
  intro loc s x y
  have hread := hostRead_withHidden loc x y s
  refine ⟨fun t h => ?_, fun r h => ?_⟩
  all_goals
    rw [h] at hread
    exact hread

/-! ## Commands that read an unwritten byte -/

/-- A byte that the host has not written makes `MemRead` of `IN` answer nothing (R37). -/
theorem readBytes_of_not_inputWritten {n : Nat} {s : State} (h : ¬ inputWritten n s) :
    Memory.readBytes s.inBuf 0 n = none := by
  unfold inputWritten at h
  push Not at h
  obtain ⟨a, ha, hnone⟩ := h
  exact readBytes_eq_none_iff.mpr ⟨a, ha, by simpa [State.byteAt] using hnone⟩

/-- Settles O29: with the checks passed, the read of `IN` answers nothing, and that is the fault. -/
theorem unwrittenInputFaults : Obligations.UnwrittenInputFaults := by
  refine ⟨fun s nbits hrate hn hin => ?_, fun s len hb hidle hlen hfits hin => ?_⟩
  · obtain ⟨r, hr⟩ := Option.ne_none_iff_exists'.mp hrate
    simp only [exec, execConvEncode, hr, readBytes_of_not_inputWritten hin,
      if_neg (show ¬ nbits > 8 * inBytes from Nat.not_lt.mpr hn)]
  · have hcheck : encodeCheck len s = none := encodeCheck_eq_none_iff.mpr ⟨hb, hidle, hlen, hfits⟩
    simp only [exec, execFhssEncode, hcheck, readBytes_of_not_inputWritten hin]

/-! ## The `BCH` unit -/

/-- The same block with another `BCH` unit. -/
def withBch (b : BchUnit) (s : State) : State := { s with bch := b }

/-- A command of another unit does not look at the `BCH` unit and does not change it (R34). -/
theorem exec_withBch {i : Instr} (hi : i.mnemonic ∉ ["BCH.BEGIN", "BCH.ENCODE"]) (b : BchUnit) (s : State) :
    exec i (withBch b s) = mapNext (withBch b) (exec i s) := by
  cases i with
  | bchBegin n k poly => simp [Instr.mnemonic] at hi
  | bchEncode d => simp [Instr.mnemonic] at hi
  | convBegin rate =>
    simp only [exec, execConvBegin]
    split <;> rfl
  | convEncode nbits =>
    simp only [exec, execConvEncode, withBch]
    repeat' split
    all_goals rfl
  | fhssBegin bw cr hdrCount grid id =>
    simp only [exec, execFhssBegin, withBch]
    split <;> rfl
  | fhssConfig bw cr hdrCount grid id =>
    simp only [exec, execFhssConfig, apply_ite (mapNext (withBch b)), withBch]
    cases validateConfig s.CFG.toCfg bw cr hdrCount grid id <;> rfl
  | fhssEncode len =>
    have hcheck : encodeCheck len (withBch b s) = encodeCheck len s := rfl
    simp only [exec, execFhssEncode, hcheck]
    cases encodeCheck len s with
    | some k => rfl
    | none =>
      simp only [withBch]
      cases Memory.readBytes s.inBuf 0 len <;> rfl
  | hopStart centre =>
    simp only [exec, execHopStart, apply_ite (mapNext (withBch b))]
    rfl
  | hopStep =>
    simp only [exec, execHopStep, apply_ite (mapNext (withBch b)), withBch]
    cases hopNext s.hop.w s.hop.state s.hop.poly s.hop.seed s.hop.nGrid <;> rfl
  | hopReset =>
    simp only [exec, execHopReset, apply_ite (mapNext (withBch b))]
    rfl

/-- Of the effects only that of `BCH.BEGIN` writes the `BCH` unit. -/
theorem Effect.bch_eq {i : Instr} {s u : State} (h : Effect i s u) (hi : ∀ n k poly, i ≠ .bchBegin n k poly) :
    u.bch = s.bch := by
  cases h with
  | bchBegin => exact absurd rfl (hi _ _ _)
  | _ => rfl

/-- A step changes the `BCH` unit only by a reset or by a word that is a `BCH.BEGIN` (R34). -/
theorem step_changes_bch {s t : State} (h : step s = .next t) (hne : t.bch ≠ s.bch) :
    s.pending.head? = some .reset ∨
      ∃ w n k poly, s.pending.head? = some (.command w) ∧ decode w = .ok (.bchBegin n k poly) := by
  obtain ⟨e, rest, hp, hcase⟩ := step_cases h
  rw [hp, List.head?_cons]
  rcases hcase with ⟨w, i, rfl, hd, hex⟩ | ⟨w, x, -, -, rfl⟩ | ⟨loc, -, hread⟩ | ⟨loc, b, -, hwr⟩ | ⟨rfl, -⟩
  · obtain ⟨k, -, rfl⟩ | ⟨u, hu, rfl⟩ := exec_next hex
    · exact absurd rfl hne
    · by_contra hno
      refine hne (hu.bch_eq fun n k poly hi => hno (.inr ⟨w, n, k, poly, rfl, hi ▸ hd⟩))
  · exact absurd rfl hne
  · obtain ⟨v, d, rfl⟩ := hostRead_next hread
    exact absurd rfl hne
  · obtain ⟨a, -, -, rfl⟩ := hostWrite_next hwr
    exact absurd rfl hne
  · exact .inl rfl

/-- Settles O20: what changes the `BCH` unit is seen step by step, and the other units' commands do not look at it. -/
theorem bchUnitStandsApart : Obligations.BchUnitStandsApart := by
  refine ⟨fun s t => step_changes_bch, fun i s b hi => ?_⟩
  have hexec := exec_withBch hi b s
  refine ⟨fun t h => ?_, fun f h => ?_⟩
  all_goals
    rw [h] at hexec
    exact hexec

end Sys2Proof.Machine
end

section
/-! The buffers stay canonical and inside their sizes (R29, R51); the encoder's state stays inside its width (R31 (a)). -/

namespace Sys2Proof.Machine

/-! ## The length of a frame -/

/-- One more bit of the stream: the expanded length grows by the pattern's bit at its position. -/
theorem ones_succ (pat : List Bool) (n : Nat) :
    ((n + 1) / pat.length) * pat.count true + (pat.take ((n + 1) % pat.length)).count true =
      (n / pat.length) * pat.count true + (pat.take (n % pat.length)).count true
        + (pat.getD (n % pat.length) false).toNat := by
  obtain hp | hp := Nat.eq_zero_or_pos pat.length
  · obtain rfl := List.length_eq_zero_iff.mp hp
    simp
  have hlt := Nat.mod_lt n hp
  have hbit : (pat.take (n % pat.length + 1)).count true =
      (pat.take (n % pat.length)).count true + (pat.getD (n % pat.length) false).toNat := by
    rw [List.take_succ_eq_append_getElem hlt, List.count_append, List.getD_eq_getElem _ _ hlt]
    cases pat[n % pat.length] <;> rfl
  have hn := Nat.div_add_mod n pat.length
  by_cases hw : n % pat.length + 1 = pat.length
  · have hdiv : (n + 1) / pat.length = n / pat.length + 1 := by
      rw [show n + 1 = pat.length * (n / pat.length + 1) by rw [Nat.mul_succ]; omega]
      exact Nat.mul_div_cancel_left _ hp
    have hmod : (n + 1) % pat.length = 0 := by
      rw [show n + 1 = pat.length * (n / pat.length + 1) by rw [Nat.mul_succ]; omega]
      exact Nat.mul_mod_right _ _
    rw [hw, List.take_length] at hbit
    rw [hdiv, hmod, Nat.add_one_mul, List.take_zero, List.count_nil]
    omega
  · have hsucc : n + 1 = pat.length * (n / pat.length) + (n % pat.length + 1) := by omega
    have hlt' : n % pat.length + 1 < pat.length := by omega
    have hdiv : (n + 1) / pat.length = n / pat.length := by
      rw [hsucc, Nat.mul_add_div hp, Nat.div_eq_of_lt hlt', Nat.add_zero]
    have hmod : (n + 1) % pat.length = n % pat.length + 1 := by
      rw [hsucc, Nat.mul_add_mod, Nat.mod_eq_of_lt hlt']
    rw [hdiv, hmod, hbit, Nat.add_assoc]

/-- The punctured stream has as many bits as R159 computes from the length of the unpunctured one (R158, R159). -/
theorem puncture_length (c : Cfg) (cr : CodingRate) (bits : List Bool) :
    (puncture c cr bits).length = expandedBits c cr bits.length := by
  unfold puncture expandedBits
  split
  · rfl
  · rename_i pat _
    rw [List.length_map]
    induction bits using List.reverseRecOn with
    | nil => simp
    | append_singleton bits b ih =>
      rw [List.length_append, List.length_singleton, ones_succ, ← ih, List.zipIdx_append, List.filter_append,
        List.length_append, List.zipIdx_singleton, List.filter_singleton, Nat.zero_add]
      cases pat.getD (bits.length % pat.length) false <;> rfl

/-- The punctured payload stream has the length that `FHSS.ENCODE` computes beforehand (R145, R159). -/
theorem payloadStream_length (c : Cfg) (cfg : FhssCfg) (payload : List Byte) :
    (payloadStream c cfg payload).length = frameExpandedBits c cfg payload.length := by
  rw [payloadStream, puncture_length, fecCoded_length]
  rfl

/-- The frame has as many bits as the length check of `FHSS.ENCODE` counts (R145, R176). -/
theorem encodeFrame_length (c : Cfg) (cfg : FhssCfg) (payload : List Byte) :
    (encodeFrame c cfg payload).1.length = frameBitLength c cfg payload.length := by
  simp only [encodeFrame, List.length_append, headerBlocks_length, payloadBlocks_length, payloadStream_length,
    frameBitLength, Nat.add_assoc]

/-! ## The buffers -/

/-- Canonical and inside the size: what `BuffersOk` asks of one buffer. -/
def Memory.fitsIn (size : Nat) (m : Memory) : Prop := Memory.wf m = true ∧ Memory.within size m = true

theorem buffersOk_iff {s : State} :
    BuffersOk s ↔ s.inBuf.fitsIn inBytes ∧ s.outBuf.fitsIn outBytes ∧ s.frameBuf.fitsIn frameMaxBytes :=
  ⟨fun h => ⟨h .inBuf, h .outBuf, h .frameBuf⟩, fun ⟨hin, hout, hframe⟩ sp => by
    cases sp
    · exact hin
    · exact hout
    · exact hframe⟩

/-- A write inside the size keeps a buffer canonical and inside the size. -/
theorem Memory.fitsIn_writeBytes {size : Nat} {m : Memory} (h : m.fitsIn size) {a : Nat} {v : List Byte}
    (hv : a + v.length ≤ size) : (Memory.writeBytes m a v).fitsIn size :=
  ⟨Memory.wf_writeBytes h.1 a v, Memory.within_writeBytes h.2 hv⟩

/-- What `CONV.ENCODE` writes fits `OUT`: at most 3 bits for each of 2048 (R107, R29). -/
theorem convEncoded_fits {c : Cfg} {r : ConvRate} {st nbits : Nat} {bytes : List Byte} (hn : nbits ≤ 8 * inBytes) :
    (pack (convOut c r st (bitsOf bytes nbits))).length ≤ outBytes := by
  rw [pack_length, convOut_length]
  have hbits : (bitsOf bytes nbits).length ≤ nbits := List.length_take_le _ _
  refine ceilDiv_eight_le ?_
  simp only [inBytes, outBytes] at *
  cases r <;> simp only [convDenominator] <;> omega

/-- No effect writes a buffer outside its size (R29, R51). -/
theorem Effect.buffersOk {i : Instr} {s u : State} (h : Effect i s u) (hs : BuffersOk s) : BuffersOk u := by
  rw [buffersOk_iff] at hs ⊢
  obtain ⟨hin, hout, hframe⟩ := hs
  cases h with
  | convEncode r bytes hr hn hread =>
    exact ⟨hin, Memory.fitsIn_writeBytes hout (by rw [Nat.zero_add]; exact convEncoded_fits hn), hframe⟩
  | fhssEncode payload hcheck hread =>
    obtain ⟨-, -, -, hfits⟩ := encodeCheck_eq_none_iff.mp hcheck
    obtain ⟨hlen, -⟩ := readBytes_eq_some_iff.mp hread
    have himage := frameImage_length (by rw [encodeFrame_length, hlen]; exact hfits)
    exact ⟨hin, hout, Memory.fitsIn_writeBytes hframe (by rw [Nat.zero_add, himage])⟩
  | _ => exact ⟨hin, hout, hframe⟩

/-- Settles O12: the two commands that write a buffer stay inside it, and so does the host. -/
theorem buffersStayCanonical : Obligations.BuffersStayCanonical := by
  intro s t
  refine step_keeps (fun s k pc pending seen draws hs => buffersOk_iff.mpr (buffersOk_iff.mp hs)) Effect.buffersOk
    (fun {s a} b ha hs => ?_) (fun s => ?_)
  · obtain ⟨hin, hout, hframe⟩ := buffersOk_iff.mp hs
    exact buffersOk_iff.mpr ⟨Memory.fitsIn_writeBytes hin ha, hout, hframe⟩
  · exact buffersOk_iff.mpr ⟨⟨rfl, rfl⟩, ⟨rfl, rfl⟩, ⟨rfl, rfl⟩⟩

/-! ## The encoder's state -/

/-- Coding a header leaves the encoder inside its width, since a pass starts from state 0 (R170). -/
theorem headerCoded_state_lt (c : Cfg) (raw : List Byte) : (headerCoded c raw).2 < 2 ^ convStateBits c .two :=
  convEnd_lt c .two (convEnd_lt c .two (Nat.two_pow_pos _) _) _

theorem headerBlocks_state_lt (c : Cfg) (cfg : FhssCfg) (len left : Nat) {st : Nat}
    (h : st < 2 ^ convStateBits c .two) : (headerBlocks c cfg len left st).2 < 2 ^ convStateBits c .two := by
  induction left generalizing st with
  | zero => exact h
  | succ left ih => exact ih (headerCoded_state_lt c _)

/-- The three commands that write the encoder's state leave it inside the width of the rate they leave (R31 (a)). -/
theorem Effect.convOk {i : Instr} {s u : State} (h : Effect i s u) (hs : ConvOk s) : ConvOk u := by
  intro r' hr'
  cases h with
  | convBegin r hr => exact Nat.two_pow_pos _
  | convEncode r bytes hr hn hread =>
    obtain rfl : r = r' := by simpa using hr'
    exact convEnd_lt _ r (hs r hr) _
  | fhssEncode payload hcheck hread =>
    obtain rfl : ConvRate.two = r' := by simpa using hr'
    exact headerBlocks_state_lt _ _ _ _ (Nat.two_pow_pos _)
  | _ => exact hs r' hr'

/-- Settles O13: a begin clears the state, and coding keeps it inside the width. -/
theorem convStateStaysInWidth : Obligations.ConvStateStaysInWidth := by
  intro s t
  refine step_keeps (fun s k pc pending seen draws hs => hs) Effect.convOk (fun b ha hs => hs) (fun s r hr => ?_)
  cases hr

end Sys2Proof.Machine
end

section
/-! Configuration, frame and transmission stay consistent (R31 (c) to (g), R207). -/

namespace Sys2Proof.Machine

/-! ## The hop generator's parameters and register (R192, R198, R200) -/

/-- A clock of the LFSR keeps a nonzero `w`-bit register nonzero and inside `w` bits, when the mask has bit `w - 1`
(R198, R200 (b)). -/
theorem lfsrNext_nonzero_fits {w poly state : Nat} (hpoly : lfsrFullPeriod w poly = true) (hpos : 0 < state)
    (hlt : state < 2 ^ w) : 0 < lfsrNext state poly ∧ lfsrNext state poly < 2 ^ w := by
  simp only [lfsrFullPeriod, Bool.and_eq_true, decide_eq_true_eq] at hpoly
  obtain ⟨⟨⟨hw, hpolylt⟩, htop⟩, -⟩ := hpoly
  have hhalf : state >>> 1 < 2 ^ (w - 1) := by
    rw [Nat.shiftRight_eq_div_pow, Nat.div_lt_iff_lt_mul (by decide), ← Nat.pow_add, Nat.sub_add_cancel hw]
    exact hlt
  have hhalf' : state >>> 1 < 2 ^ w := Nat.lt_of_lt_of_le hhalf (Nat.pow_le_pow_right (by decide) (by omega))
  unfold lfsrNext
  split
  · refine ⟨Nat.pos_of_ne_zero fun hzero => ?_, Nat.xor_lt_two_pow hhalf' hpolylt⟩
    have hbit := congrArg (fun v => v.testBit (w - 1)) hzero
    simp [Nat.testBit_lt_two_pow hhalf, htop] at hbit
  · refine ⟨?_, hhalf'⟩
    rw [Nat.shiftRight_eq_div_pow]
    omega

theorem lfsrIter_nonzero_fits {w poly : Nat} (hpoly : lfsrFullPeriod w poly = true) (n : Nat) {state : Nat}
    (hpos : 0 < state) (hlt : state < 2 ^ w) : 0 < lfsrIter poly n state ∧ lfsrIter poly n state < 2 ^ w := by
  induction n generalizing state with
  | zero => exact ⟨hpos, hlt⟩
  | succ n ih =>
    obtain ⟨hpos', hlt'⟩ := lfsrNext_nonzero_fits hpoly hpos hlt
    exact ih hpos' hlt'

/-- What R193 asks of an entry of a good `CFG`'s hop table. -/
theorem hopEntry_wf (c : GoodCfg) {nGrid : Nat} {e : HopEntry} (h : hopEntry c.toCfg nGrid = some e) :
    nGrid ≤ 2 ^ e.w - 1 ∧ 0 < e.initState ∧ e.initState < 2 ^ e.w ∧ e.seedMask ≤ 2 ^ e.w - 1 ∧
      ceilDiv e.idLimit (2 ^ e.w) ≤ e.polys.length ∧ ∀ p ∈ e.polys, lfsrFullPeriod e.w p = true := by
  have hall : c.hopTable.all hopEntryWf = true := by
    have hwf := c.isWf
    simp only [cfgWf, Bool.and_eq_true] at hwf
    exact hwf.2
  have hgrid : e.nGrid = nGrid := by simpa using List.find?_some h
  have he := List.all_eq_true.mp hall e (List.mem_of_find?_eq_some h)
  simp only [hopEntryWf, Bool.and_eq_true, decide_eq_true_eq, List.all_eq_true] at he
  obtain ⟨⟨⟨⟨⟨⟨⟨-, hfits⟩, hinit⟩, hinitlt⟩, hmask⟩, -⟩, hpolys⟩, hperiod⟩ := he
  exact ⟨hgrid ▸ hfits, hinit, hinitlt, hmask, hpolys, hperiod⟩

/-- An identifier below the limit selects one of the entry's masks (R192). -/
theorem polyIndex_lt {e : HopEntry} (hpolys : ceilDiv e.idLimit (2 ^ e.w) ≤ e.polys.length) {id : Nat}
    (hid : id < e.idLimit) : id >>> e.w < e.polys.length := by
  rw [Nat.shiftRight_eq_div_pow]
  have hpos := Nat.two_pow_pos e.w
  calc id / 2 ^ e.w < (id + 2 ^ e.w) / 2 ^ e.w := by rw [Nat.add_div_right _ hpos]; exact Nat.lt_succ_self _
    _ ≤ ceilDiv e.idLimit (2 ^ e.w) := Nat.div_le_div_right (by omega)
    _ ≤ e.polys.length := hpolys

/-- The `HOP` unit as an accepted configuration leaves it is within R31 (c) (R144, R192). -/
theorem hopParamsOk_applyConfig {s : State} {bw cr hdrCount id : Nat} {grid : Grid} {v : HopParams}
    (hv : validateConfig s.CFG.toCfg bw cr hdrCount grid id = .ok v) :
    ∃ e, HopParamsOk s.CFG.toCfg (applyConfig bw hdrCount grid id v s).hop e := by
  obtain ⟨rate, channels, e, -, -, -, -, he, -, hid, rfl⟩ := validateConfig_ok hv
  obtain ⟨hfits, hinit, hinitlt, hmask, hpolys, hperiod⟩ := hopEntry_wf s.CFG he
  have hindex := polyIndex_lt hpolys hid
  refine ⟨e, he, rfl, rfl, ?_, ?_, hfits, hinit, hinitlt⟩
  · show e.polys.getD (id >>> e.w) 0 ∈ e.polys
    rw [List.getD_eq_getElem _ _ hindex]
    exact List.getElem_mem hindex
  · show id &&& e.seedMask < 2 ^ e.w
    have := Nat.and_le_right (n := id) (m := e.seedMask)
    have := Nat.two_pow_pos e.w
    omega

/-- The register at its initial value is within R31 (c). -/
theorem HopParamsOk.rewind {c : GoodCfg} {h : HopUnit} {e : HopEntry} (hok : HopParamsOk c.toCfg h e) :
    HopParamsOk c.toCfg { h with state := h.initState } e := by
  obtain ⟨-, hinit, hinitlt, -, -, -⟩ := hopEntry_wf c hok.entry
  exact { hok with
    nonzero := hok.initial ▸ hinit
    fits := hok.width ▸ hok.initial ▸ hinitlt }

/-- A hop keeps the register within R31 (c) (R197, R200 (b)). -/
theorem HopParamsOk.stepped {s : State} {e : HopEntry} {st hopv : Nat} (hok : HopParamsOk s.CFG.toCfg s.hop e)
    (hnext : hopNext s.hop.w s.hop.state s.hop.poly s.hop.seed s.hop.nGrid = some (st, hopv)) :
    HopParamsOk s.CFG.toCfg (Machine.stepped st hopv s).hop e := by
  obtain ⟨n, -, rfl, -⟩ := hopSearch_some hnext
  obtain ⟨-, -, -, -, -, hperiod⟩ := hopEntry_wf s.CFG hok.entry
  have hpoly : lfsrFullPeriod s.hop.w s.hop.poly = true := hok.width ▸ hperiod _ hok.polyIn
  obtain ⟨hpos, hlt⟩ := lfsrIter_nonzero_fits hpoly (n + 1) hok.nonzero hok.fits
  exact { hok with nonzero := hpos, fits := hlt }

/-! ## The bits of a frame, hop by hop (R203, R207) -/

/-- Before the first hop the whole frame is left. -/
theorem bitsLeft_zero (c : Cfg) (hdrCount eb : Nat) :
    bitsLeft c hdrCount eb 0 = hdrCount * hdrBlockBits c + payloadBits eb := by
  simp [bitsLeft]

/-- A hop takes its bits from those left (R203, R207 (b)). -/
theorem bitsLeft_succ (c : Cfg) (hdrCount eb hopIndex : Nat) :
    bitsLeft c hdrCount eb (hopIndex + 1) =
      bitsLeft c hdrCount eb hopIndex - hopBits c hopIndex hdrCount (bitsLeft c hdrCount eb hopIndex) := by
  by_cases hheader : hopIndex < hdrCount
  · obtain ⟨d, hd⟩ : ∃ d, hdrCount - hopIndex = d + 1 := ⟨hdrCount - hopIndex - 1, by omega⟩
    rw [hopBits, if_pos hheader]
    simp only [bitsLeft, hd, show hdrCount - (hopIndex + 1) = d by omega, show hopIndex - hdrCount = 0 by omega,
      show hopIndex + 1 - hdrCount = 0 by omega, Nat.succ_mul]
    omega
  · rw [hopBits, if_neg hheader]
    simp only [bitsLeft, show hdrCount - hopIndex = 0 by omega, show hdrCount - (hopIndex + 1) = 0 by omega,
      show hopIndex + 1 - hdrCount = (hopIndex - hdrCount) + 1 by omega, guardBits, fragBits]
    omega

/-- After the last hop no bit is left (R207 (b)). -/
theorem bitsLeft_last (c : Cfg) (hdrCount eb : Nat) :
    bitsLeft c hdrCount eb (payloadBlockCount eb + hdrCount) = 0 := by
  have hblocks := (payloadBlockCount_spec eb).1
  simp only [bitsLeft, payloadBits, guardBits, fragBits, Nat.add_sub_cancel,
    show hdrCount - (payloadBlockCount eb + hdrCount) = 0 by omega]
  omega

/-! ## The invariant under each command -/

/-- `TransmissionOk` speaks of `CFG`, `begun`, `cfg`, `frame` and `hop` alone. -/
theorem TransmissionOk.congr {s t : State} (h : TransmissionOk s) (hCFG : t.CFG = s.CFG) (hbegun : t.begun = s.begun)
    (hcfg : t.cfg = s.cfg) (hframe : t.frame = s.frame) (hhop : t.hop = s.hop) : TransmissionOk t := by
  have hframeOk : ∀ eb, FrameOk s eb → FrameOk t eb := fun eb hf =>
    { hops    := by rw [hframe, hcfg]; exact hf.hops
      length  := by rw [hframe, hcfg, hCFG]; exact hf.length
      fits    := by rw [hframe]; exact hf.fits
      payload := by rw [hframe, hcfg]; exact hf.payload
      copied  := by rw [hhop, hcfg]; exact hf.copied
      counted := by rw [hhop, hframe]; exact hf.counted
      left    := by rw [hhop, hcfg, hCFG]; exact hf.left }
  exact
    { hdrCountOk := by rw [hbegun, hcfg]; exact h.hdrCountOk
      hopSeqIdOk := by rw [hbegun, hcfg]; exact h.hopSeqIdOk
      hopOk      := by rw [hbegun, hCFG, hhop]; exact h.hopOk
      notBegun   := by rw [hbegun, hframe, hhop]; exact h.notBegun
      flightHas  := by rw [hhop, hframe]; exact h.flightHas
      frameOk    := fun hv => (h.frameOk (hframe ▸ hv)).imp hframeOk
      idleZero   := by rw [hhop]; exact h.idleZero }

/-- With the unit idle and the frame's lifetime over, only the configuration is left to check. -/
theorem transmissionOk_of_idle {s : State} (hhdr : 1 ≤ s.cfg.hdrCount ∧ s.cfg.hdrCount ≤ 4)
    (hid : s.cfg.hopSeqId ≤ 511) (hhop : ∃ e, HopParamsOk s.CFG.toCfg s.hop e) (hframe : s.frame.valid = false)
    (hhops : s.hop.hopsRemaining = 0) (hbits : s.hop.bitsRemaining = 0) : TransmissionOk s :=
  { hdrCountOk := fun _ => hhdr
    hopSeqIdOk := fun _ => hid
    hopOk      := fun _ => hhop
    notBegun   := fun _ => ⟨hframe, hhops⟩
    flightHas  := fun h => absurd hhops h
    frameOk    := fun h => by rw [hframe] at h; cases h
    idleZero   := fun _ => hbits }

/-- An accepted configuration establishes the invariant (R141, R143, R144). -/
theorem transmissionOk_applyConfig {s : State} {bw cr hdrCount id : Nat} {grid : Grid} {v : HopParams}
    (hv : validateConfig s.CFG.toCfg bw cr hdrCount grid id = .ok v) :
    TransmissionOk (applyConfig bw hdrCount grid id v s) := by
  obtain ⟨_, _, _, -, -, hlo, hhi, -, hid, -, -⟩ := validateConfig_ok hv
  exact transmissionOk_of_idle ⟨hlo, hhi⟩ hid (hopParamsOk_applyConfig hv) rfl rfl rfl

/-- `HOP.RESET` of a begun unit keeps the invariant (R208). -/
theorem TransmissionOk.hopReset {s : State} (hs : TransmissionOk s) (hb : s.begun = true) :
    TransmissionOk { s with hop := hopIdle s.hop, frame := { s.frame with valid := false } } := by
  obtain ⟨e, he⟩ := hs.hopOk hb
  exact transmissionOk_of_idle (hs.hdrCountOk hb) (hs.hopSeqIdOk hb) ⟨e, { he.rewind with }⟩ rfl rfl rfl

/-- The frame that `FHSS.ENCODE` leaves, with no transmission in flight (R145, R175, R176, R31 (f)). -/
theorem frameOk_encoded {s : State} {payload : List Byte} (hcheck : encodeCheck payload.length s = none) :
    FrameOk (encoded payload s) (frameExpandedBits s.CFG.toCfg s.cfg payload.length) := by
  obtain ⟨-, hidle, -, hfits⟩ := encodeCheck_eq_none_iff.mp hcheck
  have hbit := one_le_frameExpandedBits s.CFG s.cfg payload.length
  have hblock := (payloadBlockCount_spec (frameExpandedBits s.CFG.toCfg s.cfg payload.length)).1
  refine
    { hops := rfl, length := Nat.add_assoc _ _ _, fits := hfits, payload := ?_, copied := fun h => absurd hidle h,
      counted := fun h => absurd hidle h, left := fun h => absurd hidle h }
  simp only [encoded_cfg, encoded_frame, frameHopCount]
  omega

/-- `FHSS.ENCODE` keeps the invariant (R145). -/
theorem TransmissionOk.encoded {s : State} (hs : TransmissionOk s) {payload : List Byte}
    (hcheck : encodeCheck payload.length s = none) : TransmissionOk (Machine.encoded payload s) := by
  obtain ⟨hb, -, -, -⟩ := encodeCheck_eq_none_iff.mp hcheck
  exact { hs with
    notBegun  := fun h => by rw [encoded_begun, hb] at h; cases h
    flightHas := fun _ => rfl
    frameOk   := fun _ => ⟨_, frameOk_encoded hcheck⟩ }

/-- `HOP.START` keeps the invariant: the counters start at the whole frame (R194). -/
theorem TransmissionOk.hopStart {s : State} (hs : TransmissionOk s) (hb : s.begun = true)
    (hvalid : s.frame.valid = true) (centre : Word) :
    TransmissionOk { s with hop := hopArmed centre s } := by
  obtain ⟨e, he⟩ := hs.hopOk hb
  obtain ⟨eb, hf⟩ := hs.frameOk hvalid
  have hhops := hf.payload
  refine
    { hdrCountOk := hs.hdrCountOk, hopSeqIdOk := hs.hopSeqIdOk, hopOk := fun _ => ⟨e, { he.rewind with }⟩,
      notBegun := fun h => ?_, flightHas := fun _ => hvalid, frameOk := fun _ => ⟨eb, ?_⟩, idleZero := fun h => ?_ }
  · rw [show s.begun = false from h] at hb
    cases hb
  · exact { hf with
      copied  := fun _ => rfl
      counted := fun _ => Nat.zero_add _
      left    := fun _ => hf.length.trans (bitsLeft_zero _ _ _).symm }
  · have hzero : s.frame.hopCount = 0 := h
    omega

/-- The counters after a hop that is not the last (R206, R207). -/
theorem frameOk_stepped {s : State} {eb : Nat} (hf : FrameOk s eb) (hflight : s.hop.hopsRemaining ≠ 0)
    (st hopv : Nat) : FrameOk (stepped st hopv s) eb := by
  have hcopied := hf.copied hflight
  have hcounted := hf.counted hflight
  have hleft := hf.left hflight
  refine
    { hops := hf.hops, length := hf.length, fits := hf.fits, payload := hf.payload, copied := fun _ => hcopied,
      counted := fun h => ?_, left := fun _ => ?_ }
  · simp only [stepped_hop_hopIndex, stepped_hop_hopsRemaining, stepped_frame] at h ⊢
    omega
  · simp only [stepped_hop_bitsRemaining, stepped_hop_hopIndex, stepped_CFG, stepped_cfg, stepBits, bitsLeft_succ,
      hcopied, hleft]

/-- When the last hop has been taken no bit is left (R206, R207 (b)). -/
theorem stepped_bitsRemaining_last {s : State} {eb : Nat} (hf : FrameOk s eb) (hlast : s.hop.hopsRemaining = 1)
    (st hopv : Nat) : (stepped st hopv s).hop.bitsRemaining = 0 := by
  have hflight : s.hop.hopsRemaining ≠ 0 := by omega
  have hindex : s.hop.hopIndex + 1 = payloadBlockCount eb + s.cfg.hdrCount := by
    rw [← hf.hops, ← hf.counted hflight, hlast]
  rw [stepped_hop_bitsRemaining, stepBits, hf.copied hflight, hf.left hflight, ← bitsLeft_succ, hindex, bitsLeft_last]

/-- `HOP.STEP` keeps the invariant (R196, R206, R207). -/
theorem TransmissionOk.stepped {s : State} (hs : TransmissionOk s) (hb : s.begun = true)
    (hflight : s.hop.hopsRemaining ≠ 0) {st hopv : Nat}
    (hnext : hopNext s.hop.w s.hop.state s.hop.poly s.hop.seed s.hop.nGrid = some (st, hopv)) :
    TransmissionOk (Machine.stepped st hopv s) := by
  obtain ⟨e, he⟩ := hs.hopOk hb
  have hvalid := hs.flightHas hflight
  obtain ⟨eb, hf⟩ := hs.frameOk hvalid
  refine
    { hdrCountOk := hs.hdrCountOk, hopSeqIdOk := hs.hopSeqIdOk, hopOk := fun _ => ⟨e, he.stepped hnext⟩,
      notBegun := fun h => ?_, flightHas := fun h => ?_, frameOk := fun _ => ⟨eb, frameOk_stepped hf hflight st hopv⟩,
      idleZero := fun h => ?_ }
  · rw [stepped_begun, hb] at h
    cases h
  · rw [stepped_frame]
    exact (if_neg h).trans hvalid
  · rw [stepped_hop_hopsRemaining] at h
    exact stepped_bitsRemaining_last hf (by omega) st hopv

/-- No effect breaks R31 (c) to (g) or R207. -/
theorem Effect.transmissionOk {i : Instr} {s u : State} (h : Effect i s u) (hs : TransmissionOk s) :
    TransmissionOk u := by
  cases h with
  | fhssBegin v hv => exact transmissionOk_applyConfig hv
  | fhssConfig v hb hv => exact transmissionOk_applyConfig hv
  | fhssEncode payload hcheck hread =>
    obtain ⟨rfl, -⟩ := readBytes_eq_some_iff.mp hread
    exact hs.encoded hcheck
  | hopStart hb hidle hvalid => exact hs.hopStart hb hvalid _
  | hopStep st hopv hb hflight hnext => exact hs.stepped hb hflight hnext
  | hopReset hb => exact hs.hopReset hb
  | _ => exact hs.congr rfl rfl rfl rfl rfl

/-- The reset event establishes R31 (c) to (g) and R207: nothing is begun. -/
theorem transmissionOk_hardReset (s : State) : TransmissionOk (hardReset s) :=
  { hdrCountOk := fun h => by cases h
    hopSeqIdOk := fun h => by cases h
    hopOk      := fun h => by cases h
    notBegun   := fun _ => ⟨rfl, rfl⟩
    flightHas  := fun h => absurd rfl h
    frameOk    := fun h => by cases h
    idleZero   := fun _ => rfl }

/-- Settles O15: each of the six commands that write configuration, frame or counters keeps them consistent. -/
theorem transmissionStaysConsistent : Obligations.TransmissionStaysConsistent := by
  intro s t
  exact step_keeps (fun s k pc pending seen draws hs => hs.congr rfl rfl rfl rfl rfl) Effect.transmissionOk
    (fun b ha hs => hs.congr rfl rfl rfl rfl rfl) transmissionOk_hardReset

end Sys2Proof.Machine
end

section
/-! The `BCH` unit stays on a legal code (R31 (b)): the generator that R123 builds has degree `n - k` and constant term 1.
The degree is the number of roots. The constant term is the product of the roots, `alpha` to the sum of their exponents, and
that sum is 0 mod `n` because doubling permutes the exponents. -/

namespace Sys2Proof.Machine

/-! ## The powers of `alpha` (R121) -/

/-- `alpha^i`, by `i` steps of R121 from `v`. -/
theorem alphaPowers_getElem? (m poly count v i : Nat) (h : i < count) :
    (alphaPowers m poly count v)[i]? = some (alphaLeft m poly i v) := by
  induction count generalizing v i with
  | zero => omega
  | succ count ih =>
    cases i with
    | zero => rfl
    | succ i => exact ih (alphaStep m poly v) i (by omega)

@[simp] theorem alphaPowers_length (m poly count v : Nat) : (alphaPowers m poly count v).length = count := by
  induction count generalizing v with
  | zero => rfl
  | succ count ih => simp [alphaPowers, ih]

@[simp] theorem alphaTable_length (m poly n : Nat) : (alphaTable m poly n).length = n := alphaPowers_length m poly n 1

/-- A table entry is that power of `alpha`. -/
theorem alphaTable_getD (m poly : Nat) {n i : Nat} (h : i < n) :
    (alphaTable m poly n).getD i 0 = alphaLeft m poly i 1 := by
  rw [alphaTable, List.getD_eq_getElem?_getD, alphaPowers_getElem? m poly n 1 i h]
  rfl

theorem alphaLeft_add (m poly i j v : Nat) : alphaLeft m poly (i + j) v = alphaLeft m poly j (alphaLeft m poly i v) := by
  induction i generalizing v with
  | zero => rw [Nat.zero_add]; rfl
  | succ i ih =>
    rw [Nat.add_right_comm]
    exact ih (alphaStep m poly v)

/-- A step stays in the field: below `2^m`, for a polynomial of degree `m` (R121). -/
theorem alphaStep_lt {m poly v : Nat} (hlo : 2 ^ m ≤ poly) (hhi : poly < 2 ^ (m + 1)) (hv : v < 2 ^ m) :
    alphaStep m poly v < 2 ^ m := by
  have hshift : v <<< 1 < 2 ^ (m + 1) := by
    rw [Nat.shiftLeft_eq, Nat.pow_succ]
    omega
  have hbelow : ∀ {x : Nat}, x < 2 ^ (m + 1) → x.testBit m = false → x < 2 ^ m := by
    intro x hx hbit
    refine Nat.lt_pow_two_of_testBit x fun i hi => ?_
    obtain rfl | hi := Nat.eq_or_lt_of_le hi
    · exact hbit
    · exact Nat.testBit_lt_two_pow (Nat.lt_of_lt_of_le hx (Nat.pow_le_pow_right (by decide) hi))
  unfold alphaStep
  split
  · rename_i hbit
    refine hbelow (Nat.xor_lt_two_pow hshift hhi) ?_
    have hpoly : poly.testBit m = true := by
      by_contra hp
      have := hbelow hhi (by simpa using hp)
      omega
    rw [Nat.testBit_xor, hbit, hpoly]
    rfl
  · rename_i hbit
    exact hbelow hshift (by simpa using hbit)

theorem alphaLeft_lt {m poly : Nat} (hlo : 2 ^ m ≤ poly) (hhi : poly < 2 ^ (m + 1)) (i : Nat) {v : Nat}
    (hv : v < 2 ^ m) : alphaLeft m poly i v < 2 ^ m := by
  induction i generalizing v with
  | zero => exact hv
  | succ i ih => exact ih (alphaStep_lt hlo hhi hv)

/-- From 0 every step is 0. -/
theorem alphaLeft_zero (m poly i : Nat) : alphaLeft m poly i 0 = 0 := by
  induction i with
  | zero => rfl
  | succ i ih => simpa [alphaLeft, alphaStep] using ih

/-! ## Multiplication through the tables (R121) -/

section
variable {m poly n : Nat} (hprim : primitive m poly n = true)

include hprim

theorem alphaTable_nodup : (alphaTable m poly n).Nodup := by
  simp only [primitive, Bool.and_eq_true, decide_eq_true_eq] at hprim
  exact hprim.1

/-- No power of `alpha` is 0: the powers come back to 1. -/
theorem alphaLeft_ne_zero {i : Nat} (hi : i ≤ n) : alphaLeft m poly i 1 ≠ 0 := by
  simp only [primitive, Bool.and_eq_true, beq_iff_eq] at hprim
  intro hzero
  have hback := hprim.2
  rw [show n = i + (n - i) by omega, alphaLeft_add, hzero, alphaLeft_zero] at hback
  cases hback

variable (hlo : 2 ^ m ≤ poly) (hhi : poly < 2 ^ (m + 1)) (hn : n = 2 ^ m - 1) (hm : 1 ≤ m)

include hlo hhi hn hm

/-- `indexOf` inverts `alphaTo` (R121). -/
theorem indexTable_alpha {i : Nat} (hi : i < n) :
    (indexTable (alphaTable m poly n) n).getD ((alphaTable m poly n).getD i 0 - 1) 0 = i := by
  have hlen : i < (alphaTable m poly n).length := by simpa using hi
  have hne : (alphaTable m poly n).getD i 0 ≠ 0 := by
    rw [alphaTable_getD m poly hi]
    exact alphaLeft_ne_zero hprim (by omega)
  have hlt : (alphaTable m poly n).getD i 0 < 2 ^ m := by
    rw [alphaTable_getD m poly hi]
    exact alphaLeft_lt hlo hhi i (Nat.one_lt_two_pow (by omega))
  rw [indexTable, List.getD_eq_getElem _ _ (by rw [List.length_map, List.length_range]; omega), List.getElem_map, List.getElem_range,
    Nat.sub_add_cancel (by omega), List.getD_eq_getElem _ _ hlen]
  exact (alphaTable_nodup hprim).idxOf_getElem i hlen

/-- The product of two powers of `alpha` is the power of the sum of the exponents (R121). -/
theorem gfMul_alpha {i j : Nat} (hi : i < n) (hj : j < n) :
    gfMul (alphaTable m poly n) (indexTable (alphaTable m poly n) n) n ((alphaTable m poly n).getD i 0)
      ((alphaTable m poly n).getD j 0) = (alphaTable m poly n).getD ((i + j) % n) 0 := by
  have hne : ∀ {x : Nat}, x < n → (alphaTable m poly n).getD x 0 ≠ 0 := fun {x} hx => by
    rw [alphaTable_getD m poly hx]
    exact alphaLeft_ne_zero hprim (by omega)
  rw [gfMul, if_neg (by simp only [not_or]; exact ⟨hne hi, hne hj⟩),
    indexTable_alpha hprim hlo hhi hn hm hi, indexTable_alpha hprim hlo hhi hn hm hj]

/-- The constant coefficient of a product of factors `x + alpha^z`, begun at `alpha^e`: `alpha` to the sum. -/
theorem foldl_mulLinear_head (zs : List Nat) (hzs : ∀ z ∈ zs, z < n) (e : Nat) (ps : List Nat) :
    (zs.foldl (fun p z => mulLinear (gfMul (alphaTable m poly n) (indexTable (alphaTable m poly n) n) n)
      ((alphaTable m poly n).getD z 0) 0 p) ((alphaTable m poly n).getD (e % n) 0 :: ps)).head? =
      some ((alphaTable m poly n).getD ((zs.sum + e) % n) 0) := by
  induction zs generalizing e ps with
  | nil => simp
  | cons z zs ih =>
    have hz : z < n := hzs z (by simp)
    rw [List.foldl_cons, mulLinear, Nat.zero_xor,
      gfMul_alpha hprim hlo hhi hn hm hz (Nat.mod_lt _ (by omega)), Nat.add_mod_mod,
      ih (fun y hy => hzs y (by simp [hy]))]
    rw [List.sum_cons, ← Nat.add_assoc, Nat.add_comm zs.sum z]

end

/-! ## The exponents of the roots (R123) -/

theorem mem_rootSet {n m t z : Nat} :
    z ∈ rootSet n m t ↔ z < n ∧ ∃ i, i < 2 * t ∧ ∃ j, j < m ∧ (i + 1) * 2 ^ j % n = z := by
  simp [rootSet, coset]

theorem rootSet_nodup (n m t : Nat) : (rootSet n m t).Nodup := List.nodup_range.filter _

/-- Doubling keeps the roots: `Coset(s)` is closed under it, since `2^m mod n = 1`. -/
theorem rootSet_double {n m t z : Nat} (hn : n = 2 ^ m - 1) (hz : z ∈ rootSet n m t) : 2 * z % n ∈ rootSet n m t := by
  obtain ⟨hzn, i, hi, j, hj, rfl⟩ := mem_rootSet.mp hz
  have hdouble : 2 * ((i + 1) * 2 ^ j % n) % n = (i + 1) * 2 ^ (j + 1) % n := by
    rw [Nat.mul_mod_mod, Nat.pow_succ]
    ring_nf
  rw [hdouble]
  refine mem_rootSet.mpr ⟨Nat.mod_lt _ (by omega), i, hi, ?_⟩
  by_cases hlast : j + 1 < m
  · exact ⟨j + 1, hlast, rfl⟩
  · refine ⟨0, by omega, ?_⟩
    have hpow : 2 ^ (j + 1) = n + 1 := by
      rw [show j + 1 = m by omega, hn, Nat.sub_add_cancel Nat.one_le_two_pow]
    rw [hpow, Nat.mul_succ, Nat.mul_add_mod', Nat.pow_zero, Nat.mul_one]

/-- The exponents of the roots sum to 0 mod `n`: doubling permutes them, so the sum is its own double. -/
theorem rootSet_sum_mod {n m t : Nat} (hn : n = 2 ^ m - 1) (hm : 1 ≤ m) : (rootSet n m t).sum % n = 0 := by
  have hodd : n % 2 = 1 := by
    obtain ⟨d, rfl⟩ : ∃ d, m = d + 1 := ⟨m - 1, by omega⟩
    have := Nat.two_pow_pos d
    rw [Nat.pow_succ] at hn
    omega
  have hinj : ∀ x ∈ rootSet n m t, ∀ y ∈ rootSet n m t, 2 * x % n = 2 * y % n → x = y := by
    intro x hx y hy h
    have hxn := (mem_rootSet.mp hx).1
    have hyn := (mem_rootSet.mp hy).1
    have hcop : Nat.gcd n 2 = 1 := Nat.coprime_two_right.mpr (Nat.odd_iff.mpr hodd)
    exact Nat.ModEq.eq_of_lt_of_lt (Nat.ModEq.cancel_left_of_coprime hcop h) hxn hyn
  have hperm : ((rootSet n m t).map (2 * · % n)).Perm (rootSet n m t) := by
    have hnodup := (List.nodup_map_iff_inj_on (rootSet_nodup n m t)).mpr hinj
    refine (hnodup.subperm fun z hz => ?_).perm_of_length_le (by simp)
    obtain ⟨y, hy, rfl⟩ := List.mem_map.mp hz
    exact rootSet_double hn hy
  have hsum : 2 * (rootSet n m t).sum ≡ (rootSet n m t).sum + 0 [MOD n] := by
    have hmul : ((rootSet n m t).map (2 * ·)).sum = 2 * (rootSet n m t).sum := by
      simpa using List.sum_map_mul_left (rootSet n m t) id 2
    rw [Nat.add_zero, ← hmul, Nat.ModEq, List.sum_nat_mod, List.map_map]
    exact congrArg (· % n) hperm.sum_eq
  rw [Nat.two_mul] at hsum
  exact (Nat.ModEq.add_left_cancel' _ hsum)

/-! ## The generator as a bit mask (R123) -/

theorem mulLinear_length (mul : Nat → Nat → Nat) (root below : Nat) (ps : List Nat) :
    (mulLinear mul root below ps).length = ps.length + 1 := by
  induction ps generalizing below with
  | nil => rfl
  | cons p ps ih => simp [mulLinear, ih]

/-- A factor `x + root` leaves the leading coefficient. -/
theorem mulLinear_getLast? (mul : Nat → Nat → Nat) (root below : Nat) (ps : List Nat) :
    (mulLinear mul root below ps).getLast? = (below :: ps).getLast? := by
  induction ps generalizing below with
  | nil => rfl
  | cons p ps ih =>
    have hne : mulLinear mul root p ps ≠ [] := by
      rw [← List.length_pos_iff, mulLinear_length]
      omega
    rw [mulLinear, List.getLast?_cons_of_ne_nil hne, ih, List.getLast?_cons_cons]

/-- The product of as many factors as there are roots is monic of that degree (R123). -/
theorem generatorCoeffs_monic (alphaTo indexOf : List Nat) (n : Nat) (zs : List Nat) :
    (generatorCoeffs alphaTo indexOf n zs).length = zs.length + 1 ∧
      (generatorCoeffs alphaTo indexOf n zs).getLast? = some 1 := by
  unfold generatorCoeffs
  induction zs using List.reverseRecOn with
  | nil => exact ⟨rfl, rfl⟩
  | append_singleton zs z ih =>
    obtain ⟨hlen, hlast⟩ := ih
    rw [List.foldl_append, List.foldl_cons, List.foldl_nil, mulLinear_length, mulLinear_getLast?, hlen,
      List.getLast?_cons_of_ne_nil (by rw [← List.length_pos_iff, hlen]; omega)]
    exact ⟨by simp, hlast⟩

theorem coeffMask_lt (ps : List Nat) : coeffMask ps < 2 ^ ps.length := by
  induction ps with
  | nil => decide
  | cons p ps ih =>
    rw [coeffMask, List.length_cons, Nat.pow_succ]
    split <;> omega

/-- The degree of a monic polynomial's mask (R14, R123). -/
theorem deg_coeffMask {ps : List Nat} {d : Nat} (hlen : ps.length = d + 1) (hlast : ps.getLast? = some 1) :
    deg (coeffMask ps) = d := by
  have hlow : 2 ^ d ≤ coeffMask ps := by
    induction ps generalizing d with
    | nil => cases hlen
    | cons p ps ih =>
      cases ps with
      | nil =>
        obtain rfl : p = 1 := by simpa using hlast
        obtain rfl : d = 0 := by simpa using hlen.symm
        decide
      | cons q qs =>
        obtain ⟨d, rfl⟩ : ∃ d', d = d' + 1 := ⟨qs.length, by simpa using hlen.symm⟩
        have := ih (by simpa using hlen) (by simpa using hlast)
        rw [coeffMask, Nat.pow_succ]
        omega
  have hhigh := coeffMask_lt ps
  rw [hlen] at hhigh
  exact (Nat.log2_eq_iff (by have := Nat.two_pow_pos d; omega)).mpr ⟨hlow, hhigh⟩

/-- The constant term of a mask is that of the polynomial (R123). -/
theorem coeffMask_testBit_zero {ps : List Nat} (h : ps.head? = some 1) : (coeffMask ps).testBit 0 = true := by
  obtain ⟨p, ps, rfl⟩ : ∃ p qs, ps = p :: qs := List.exists_cons_of_ne_nil (by rintro rfl; cases h)
  obtain rfl : p = 1 := by simpa using h
  simp [coeffMask, Nat.testBit_zero]

/-- The product over the roots has constant term 1: it is `alpha` to a multiple of `n` (R123). -/
theorem generatorCoeffs_head {m poly n t : Nat} (hprim : primitive m poly n = true) (hlo : 2 ^ m ≤ poly)
    (hhi : poly < 2 ^ (m + 1)) (hn : n = 2 ^ m - 1) (hm : 1 ≤ m) :
    (generatorCoeffs (alphaTable m poly n) (indexTable (alphaTable m poly n) n) n (rootSet n m t)).head? = some 1 := by
  have hpos : 0 < n := by
    have := Nat.one_lt_two_pow (n := m) (by omega)
    omega
  have hone : (alphaTable m poly n).getD 0 0 = 1 := by
    rw [alphaTable_getD m poly hpos]
    rfl
  have hhead := foldl_mulLinear_head hprim hlo hhi hn hm (rootSet n m t) (fun z hz => (mem_rootSet.mp hz).1) 0 []
  simp only [Nat.add_zero, rootSet_sum_mod hn hm, Nat.zero_mod, hone] at hhead
  exact hhead

/-! ## The invariant -/

/-- What the search for the generator has established when it answers (R123). -/
theorem findGenerator_some {m poly n k t g : Nat} (h : findGenerator m poly n k = some (t, g)) :
    (rootSet n m t).length = n - k ∧
      g = coeffMask (generatorCoeffs (alphaTable m poly n) (indexTable (alphaTable m poly n) n) n (rootSet n m t)) := by
  unfold findGenerator at h
  simp only at h
  split at h
  · cases h
  · split at h
    · simp only [Option.some.injEq, Prod.mk.injEq] at h
      obtain ⟨rfl, rfl⟩ := h
      exact ⟨‹_›, rfl⟩
    · cases h

/-- What the six checks of `BCH.BEGIN` have established when it accepts (R122). -/
theorem bchGenerator_some {n k poly t g : Nat} (h : bchGenerator n k poly = some (t, g)) :
    4 ≤ poly ∧ n = 2 ^ deg poly - 1 ∧ n ≤ 31 ∧ 1 ≤ k ∧ k < n ∧ primitive (deg poly) poly n = true ∧
      findGenerator (deg poly) poly n k = some (t, g) := by
  unfold bchGenerator at h
  split at h
  · rename_i hok
    simp only [bchParamsOk, Bool.and_eq_true, decide_eq_true_eq, beq_iff_eq] at hok
    obtain ⟨⟨⟨⟨⟨hpoly, hn⟩, hmax⟩, hk⟩, hkn⟩, hprim⟩ := hok
    exact ⟨hpoly, hn, hmax, hk, hkn, hprim, h⟩
  · cases h

/-- An accepted `BCH.BEGIN` leaves the unit on a code (R31 (b), R122, R123). -/
theorem bchCodeOk_bchUnitOf {n k t g : Nat} {poly : Word} (h : bchGenerator n k poly.toNat = some (t, g)) :
    BchCodeOk (bchUnitOf n k poly g) := by
  obtain ⟨hpoly, hn, hmax, hk, hkn, hprim, hfind⟩ := bchGenerator_some h
  obtain ⟨hroots, rfl⟩ := findGenerator_some hfind
  obtain ⟨hlo, hhi⟩ := (Nat.log2_eq_iff (by omega : poly.toNat ≠ 0)).mp rfl
  have hm : 1 ≤ deg poly.toNat := (Nat.le_log2 (by omega)).mpr (by omega)
  obtain ⟨hlen, hlast⟩ := generatorCoeffs_monic (alphaTable (deg poly.toNat) poly.toNat n)
    (indexTable (alphaTable (deg poly.toNat) poly.toNat n) n) n (rootSet n (deg poly.toNat) t)
  exact
    { length_eq := hn
      one_le_k  := hk
      k_lt_n    := hkn
      n_le      := hmax
      gen_deg   := deg_coeffMask (hlen.trans (by rw [hroots]; rfl)) hlast
      gen_zero  := coeffMask_testBit_zero (generatorCoeffs_head hprim hlo hhi hn hm) }

/-- `BCH.BEGIN` leaves a code, and no other effect touches the unit (R31 (b), R34). -/
theorem Effect.bchOk {i : Instr} {s u : State} (h : Effect i s u) (hs : BchOk s) : BchOk u := by
  intro hv
  cases h with
  | bchBegin t g hg => exact bchCodeOk_bchUnitOf hg
  | _ => exact hs hv

/-- Settles O14: only `BCH.BEGIN` changes the code, and it accepts legal codes alone. -/
theorem bchCodeStaysLegal : Obligations.BchCodeStaysLegal := by
  intro s t
  refine step_keeps (fun s k pc pending seen draws hs => hs) Effect.bchOk (fun b ha hs => hs) (fun s hv => ?_)
  cases hv

end Sys2Proof.Machine
end

section
/-! The bytes that commands store (R62), the host's accesses between commands (R52), and the step on a command word
(R57, R70). -/

namespace Sys2Proof.Machine

/-! ## The bytes a command stores -/

/-- `CONV.ENCODE` writes `ceil(r*nbits/8)` bytes of `OUT` (R107). -/
theorem convEncoded_output_length (c : Cfg) (r : ConvRate) (st : Nat) {nbits : Nat} {m : Memory} {bytes : List Byte}
    (hread : Memory.readBytes m 0 (ceilDiv nbits 8) = some bytes) :
    (pack (convOut c r st (bitsOf bytes nbits))).length = ceilDiv (convDenominator r * nbits) 8 := by
  obtain ⟨hlen, -⟩ := readBytes_eq_some_iff.mp hread
  have hbits : (bitsOf bytes nbits).length = nbits := bitsOf_length (by rw [hlen]; exact (ceilDiv_eight nbits).1)
  rw [pack_length, convOut_length, hbits]

/-- No effect writes `IN` (R62). -/
theorem Effect.inBuf_eq {i : Instr} {s u : State} (h : Effect i s u) : u.inBuf = s.inBuf := by
  cases h <;> rfl

/-- Of the effects only that of `CONV.ENCODE` writes `OUT` (R62). -/
theorem Effect.outBuf_eq {i : Instr} {s u : State} (h : Effect i s u) (hi : i.mnemonic ≠ "CONV.ENCODE") :
    u.outBuf = s.outBuf := by
  cases h with
  | convEncode => exact absurd rfl hi
  | _ => rfl

/-- Of the effects only that of `FHSS.ENCODE` writes `FRAME` (R62). -/
theorem Effect.frameBuf_eq {i : Instr} {s u : State} (h : Effect i s u) (hi : i.mnemonic ≠ "FHSS.ENCODE") :
    u.frameBuf = s.frameBuf := by
  cases h with
  | fhssEncode => exact absurd rfl hi
  | _ => rfl

/-- `CONV.ENCODE` leaves the bytes of `OUT` from `ceil(r*nbits/8)` on (R62, R107). -/
theorem Effect.outBuf_read_above {nbits a : Nat} {r : ConvRate} {s u : State} (h : Effect (.convEncode nbits) s u)
    (hr : s.conv.rate = some r) (ha : ceilDiv (convDenominator r * nbits) 8 ≤ a) :
    Memory.read u.outBuf a = Memory.read s.outBuf a := by
  cases h with
  | convEncode r' bytes hr' hn hread =>
    obtain rfl : r' = r := Option.some.inj (hr'.symm.trans hr)
    exact read_writeBytes_above _ _ (by rwa [Nat.zero_add, convEncoded_output_length _ _ _ hread])

/-- Settles O17: an error kind stores nothing, and each effect stores where R62 lets it. -/
theorem commandsTouchTheirBytes : Obligations.CommandsTouchTheirBytes := by
  intro i s t h
  obtain ⟨k, -, rfl⟩ | ⟨u, hu, rfl⟩ := exec_next h
  · exact ⟨fun _ => rfl, fun _ _ => rfl, fun _ _ => rfl, fun _ _ _ _ _ _ => rfl⟩
  · refine ⟨fun a => ?_, fun hi a => ?_, fun hi a => ?_, fun nbits r a hi hr ha => ?_⟩
    · exact congrArg (Memory.read · a) hu.inBuf_eq
    · exact congrArg (Memory.read · a) (hu.outBuf_eq hi)
    · exact congrArg (Memory.read · a) (hu.frameBuf_eq hi)
    · subst hi
      exact hu.outBuf_read_above hr ha

/-! ## The host's accesses -/

/-- A write of one byte is read back (R51). -/
theorem read_writeBytes_single_same (m : Memory) (a : Nat) (b : Byte) :
    Memory.read (Memory.writeBytes m a [b]) a = some b :=
  read_writeBytes_inside m a [b] (i := 0) Nat.one_pos

/-- A write of one byte leaves every other byte (R51). -/
theorem read_writeBytes_single_other (m : Memory) {a x : Nat} (b : Byte) (h : x ≠ a) :
    Memory.read (Memory.writeBytes m a [b]) x = Memory.read m x := by
  obtain hlt | hgt := Nat.lt_or_gt_of_ne h
  · exact read_writeBytes_below m [b] hlt
  · exact read_writeBytes_above m [b] hgt

/-- The host may write any byte of `IN` (R52). -/
theorem hostWrite_inBuf {a : Nat} (b : Byte) (s : State) (h : a < inBytes) :
    hostWrite (.byte .inBuf a) b s = .next { s with inBuf := Memory.writeBytes s.inBuf a [b] } := if_pos h

/-- The host has no other write (R52, R233 (c)). -/
theorem hostWrite_refused {loc : Loc} (b : Byte) (s : State) (h : ∀ a, a < inBytes → loc ≠ .byte .inBuf a) :
    hostWrite loc b s = .refused .noHostMove := by
  cases loc with
  | byte sp a =>
    cases sp with
    | inBuf => exact if_neg fun ha => h a ha rfl
    | outBuf => rfl
    | frameBuf => rfl
  | res i => rfl
  | status => rfl

/-- The byte a host read finds where the spec gives it a value (R37, R38). -/
theorem visibleByte_eq_some {s : State} {sp : Space} {a : Nat} {b : Byte}
    (hvalid : sp = .frameBuf → s.frame.valid = true) (hb : s.byteAt sp a = some b) : visibleByte s sp a = some b := by
  cases sp with
  | inBuf => exact hb
  | outBuf => exact hb
  | frameBuf => exact (if_pos (hvalid rfl)).trans hb

/-- A host read of a byte with a value answers that value (R52). -/
theorem hostRead_byte {s : State} {sp : Space} {a : Nat} {b : Byte} (ha : a < sp.size)
    (hvis : visibleByte s sp a = some b) :
    hostRead (.byte sp a) s = .next (noteSeen (.byte sp a) (b.setWidth 32) s) := by
  simp only [hostRead, if_pos ha, readByte, hvis]

/-- There is no byte outside a buffer to read (R52, R233 (c)). -/
theorem hostRead_byte_outside {sp : Space} {a : Nat} (s : State) (h : sp.size ≤ a) :
    hostRead (.byte sp a) s = .refused .noHostMove := if_neg (Nat.not_lt.mpr h)

/-- There are four result registers (R20). -/
theorem ResFile.read_eq_none {r : ResFile} {i : Nat} (h : 4 ≤ i) : r.read i = none := by
  obtain ⟨j, rfl⟩ := Nat.exists_eq_add_of_le' h
  rfl

/-- There is no result register from 4 on to read (R20, R233 (c)). -/
theorem hostRead_res_outside {i : Nat} (s : State) (h : 4 ≤ i) :
    hostRead (.res i) s = .refused .noHostMove := by
  simp only [hostRead, ResFile.read_eq_none h]

/-- Settles O24: access by access, and the step takes the pending one. -/
theorem hostAccesses : Obligations.HostAccesses := by
  intro s
  refine ⟨fun a b ha => ?_, fun loc b => hostWrite_refused b s, fun sp a => hostRead_byte_outside s,
    fun sp a b ha hvalid hb => hostRead_byte ha (visibleByte_eq_some hvalid hb), rfl, rfl, rfl, rfl,
    fun i => hostRead_res_outside s, rfl, rfl, rfl, rfl, fun loc rest => step_cons, fun loc b rest => step_cons⟩
  exact ⟨_, hostWrite_inBuf b s ha, rfl, read_writeBytes_single_same _ a b,
    fun x hx => read_writeBytes_single_other _ b hx⟩

/-! ## The step on a command word -/

/-- A step on a word that decodes runs the command (R57, R70). -/
theorem step_command {s : State} {w : CommandWord} {rest : List Event} {i : Instr}
    (hp : s.pending = .command w :: rest) (hd : decode w = .ok i) : step s = exec i { s with pending := rest } := by
  rw [step_cons hp]
  simp only [takeEvent, runWord, hd]

/-- What the decoder reads from a table row's word is the command that the word decodes to. -/
theorem decodeTableWord_eq_some_iff {nbits w : Nat} {i : Instr} :
    decodeTableWord nbits w = some i ↔ decode (tableWord nbits w) = .ok i := by
  unfold decodeTableWord
  cases decode (tableWord nbits w) <;> simp [Except.toOption]

/-- Settles O5: the step on a pending word, and the fetch helper as one such word. -/
theorem stepRunsDecodedCommand : Obligations.StepRunsDecodedCommand :=
  ⟨fun _ _ _ _ => step_command, fun s w _ hd =>
    step_command (withFetchWord_pending s 64 w) (decodeTableWord_eq_some_iff.mp hd)⟩

end Sys2Proof.Machine
end

section
/-! The decoder and the encoder (R70 to R76): the words of each command, the round trip, the table of R73, and the step
on a word that is no command's. -/

namespace Sys2Proof

/-! ## The words of each command -/

/-- The format of each command (R70 to R72): its operands as the contents of the fields it uses, and the others 0. -/
inductive WordOf : Instr → CommandWord → Prop
  | convBegin (rate : BitVec 8) : WordOf (.convBegin rate.toNat) (c64 0x10 rate 0 0 0)
  | convEncode (nbits : BitVec 32) : WordOf (.convEncode nbits.toNat) (c64 0x11 0 0 0 nbits)
  | bchBegin (n k : BitVec 8) (poly : Word) : WordOf (.bchBegin n.toNat k.toNat poly) (c64 0x20 n k 0 poly)
  | bchEncode (dataword : Word) : WordOf (.bchEncode dataword) (c64 0x21 0 0 0 dataword)
  | fhssBegin (bw cr hdrCount : BitVec 8) (grid : Grid) (id : BitVec 16) :
      WordOf (.fhssBegin bw.toNat cr.toNat hdrCount.toNat grid id.toNat)
        (c64 0x30 bw cr hdrCount (configImm grid id.toNat))
  | fhssConfig (bw cr hdrCount : BitVec 8) (grid : Grid) (id : BitVec 16) :
      WordOf (.fhssConfig bw.toNat cr.toNat hdrCount.toNat grid id.toNat)
        (c64 0x31 bw cr hdrCount (configImm grid id.toNat))
  | fhssEncode (len : BitVec 32) : WordOf (.fhssEncode len.toNat) (c64 0x32 0 0 0 len)
  | hopStart (centre : Word) : WordOf (.hopStart centre) (c64 0x40 0 0 0 centre)
  | hopStep : WordOf .hopStep (c64 0x41 0 0 0 0)
  | hopReset : WordOf .hopReset (c64 0x42 0 0 0 0)

/-- Every word is a word of the format (R70). -/
theorem exists_eq_c64 (w : CommandWord) : ∃ op a b c imm, w = c64 op a b c imm := ⟨_, _, _, _, _, (c64_fields w).symm⟩

/-! ### The decoder -/

theorem whenUnusedZero_eq_ok_iff {unusedZero : Bool} {i j : Instr} :
    whenUnusedZero unusedZero i = .ok j ↔ unusedZero = true ∧ i = j := by
  cases unusedZero <;> simp [whenUnusedZero]

theorem eq_ofNat_of_toNat_eq {n v : Nat} {x : BitVec n} (h : x.toNat = v) : x = BitVec.ofNat n v := by
  rw [← h, BitVec.ofNat_toNat, BitVec.setWidth_eq]

/-- The decoder accepts no other words (R74). -/
theorem wordOf_of_decode {w : CommandWord} {i : Instr} (h : decode w = .ok i) : WordOf i w := by
  obtain ⟨op, a, b, c, imm, rfl⟩ := exists_eq_c64 w
  simp only [decode, opField_c64, aField_c64, bField_c64, cField_c64, immField_c64] at h
  split at h
  case h_11 => cases h
  all_goals
    rename_i hop
    obtain rfl := eq_ofNat_of_toNat_eq hop
    obtain ⟨hzero, rfl⟩ := whenUnusedZero_eq_ok_iff.mp h
    simp only [Bool.and_eq_true, beq_iff_eq] at hzero
  case h_1 => obtain ⟨⟨rfl, rfl⟩, rfl⟩ := hzero; exact .convBegin a
  case h_2 => obtain ⟨⟨rfl, rfl⟩, rfl⟩ := hzero; exact .convEncode imm
  case h_3 => subst hzero; exact .bchBegin a b imm
  case h_4 => obtain ⟨⟨rfl, rfl⟩, rfl⟩ := hzero; exact .bchEncode imm
  case h_5 =>
    have hw := WordOf.fhssBegin a b c (gridPart imm) (idPart imm)
    rwa [configImm_parts imm hzero] at hw
  case h_6 =>
    have hw := WordOf.fhssConfig a b c (gridPart imm) (idPart imm)
    rwa [configImm_parts imm hzero] at hw
  case h_7 => obtain ⟨⟨rfl, rfl⟩, rfl⟩ := hzero; exact .fhssEncode imm
  case h_8 => obtain ⟨⟨rfl, rfl⟩, rfl⟩ := hzero; exact .hopStart imm
  case h_9 => obtain ⟨⟨⟨rfl, rfl⟩, rfl⟩, rfl⟩ := hzero; exact .hopStep
  case h_10 => obtain ⟨⟨⟨rfl, rfl⟩, rfl⟩, rfl⟩ := hzero; exact .hopReset

/-- The decoder accepts every word of a command as that command (R72). -/
theorem WordOf.decode_eq {w : CommandWord} {i : Instr} (h : WordOf i w) : decode w = .ok i := by
  cases h <;>
    simp [decode, opField_c64, aField_c64, bField_c64, cField_c64, immField_c64, reservedPart_configImm,
      gridPart_configImm, idPart_configImm, whenUnusedZero]

/-! ### The encoder -/

/-- The encoder writes the word of a command (R76). -/
theorem WordOf.encode_eq {w : CommandWord} {i : Instr} (h : WordOf i w) : encode i = w := by
  cases h <;> simp [encode]

/-- A command that has a word fits its fields (R70, R71). -/
theorem WordOf.wf {w : CommandWord} {i : Instr} (h : WordOf i w) : i.wf = true := by
  cases h <;>
    simp only [Instr.wf, fitsByteField, fitsImmField, fitsIdField, BitVec.isLt, decide_true, Bool.and_self]

theorem exists_toNat_eq {n v : Nat} (h : v < 2 ^ n) : ∃ x : BitVec n, x.toNat = v := ⟨BitVec.ofNatLT v h, rfl⟩

/-- The operands of a configuration command that fits its fields, as the contents of the fields. -/
theorem exists_config_fields {bw cr hdrCount id : Nat}
    (h : (fitsByteField bw && fitsByteField cr && fitsByteField hdrCount && fitsIdField id) = true) :
    ∃ (x y z : BitVec 8) (v : BitVec 16), x.toNat = bw ∧ y.toNat = cr ∧ z.toNat = hdrCount ∧ v.toNat = id := by
  simp only [fitsByteField, fitsIdField, Bool.and_eq_true, decide_eq_true_eq] at h
  obtain ⟨⟨⟨hbw, hcr⟩, hhdr⟩, hid⟩ := h
  exact ⟨BitVec.ofNatLT bw hbw, BitVec.ofNatLT cr hcr, BitVec.ofNatLT hdrCount hhdr, BitVec.ofNatLT id hid,
    rfl, rfl, rfl, rfl⟩

/-- A command that fits its fields has a word. -/
theorem exists_wordOf {i : Instr} (h : i.wf = true) : ∃ w, WordOf i w := by
  cases i with
  | convBegin rate =>
    obtain ⟨x, rfl⟩ := exists_toNat_eq (of_decide_eq_true h)
    exact ⟨_, .convBegin x⟩
  | convEncode nbits =>
    obtain ⟨x, rfl⟩ := exists_toNat_eq (of_decide_eq_true h)
    exact ⟨_, .convEncode x⟩
  | bchBegin n k poly =>
    obtain ⟨hn, hk⟩ := Bool.and_eq_true_iff.mp h
    obtain ⟨x, rfl⟩ := exists_toNat_eq (of_decide_eq_true hn)
    obtain ⟨y, rfl⟩ := exists_toNat_eq (of_decide_eq_true hk)
    exact ⟨_, .bchBegin x y poly⟩
  | bchEncode dataword => exact ⟨_, .bchEncode dataword⟩
  | fhssBegin bw cr hdrCount grid id =>
    obtain ⟨x, y, z, v, rfl, rfl, rfl, rfl⟩ := exists_config_fields h
    exact ⟨_, .fhssBegin x y z grid v⟩
  | fhssConfig bw cr hdrCount grid id =>
    obtain ⟨x, y, z, v, rfl, rfl, rfl, rfl⟩ := exists_config_fields h
    exact ⟨_, .fhssConfig x y z grid v⟩
  | fhssEncode len =>
    obtain ⟨x, rfl⟩ := exists_toNat_eq (of_decide_eq_true h)
    exact ⟨_, .fhssEncode x⟩
  | hopStart centre => exact ⟨_, .hopStart centre⟩
  | hopStep => exact ⟨_, .hopStep⟩
  | hopReset => exact ⟨_, .hopReset⟩

/-! ### The round trip -/

/-- Settles O1: a command that fits its fields has a word, which the encoder writes and the decoder accepts. -/
theorem decodeOfEncode : Obligations.DecodeOfEncode := by
  intro i hwf
  obtain ⟨w, hw⟩ := exists_wordOf hwf
  rw [hw.encode_eq, hw.decode_eq]

/-- Settles O2: an accepted word is the word of a command. -/
theorem encodeOfDecode : Obligations.EncodeOfDecode := fun _ _ h =>
  ⟨(wordOf_of_decode h).wf, (wordOf_of_decode h).encode_eq⟩

/-- Settles O4: the decoder evaluated on each printed word. -/
theorem printedWordsDecode : Obligations.PrintedWordsDecode :=
  ⟨rfl, rfl, rfl, rfl, rfl, rfl, rfl, rfl, rfl, rfl, rfl, rfl⟩

/-! ## The match and mask table (R73) -/

/-- The table of R73 by the fields of the format. -/
theorem commandTable_eq : commandTable =
    [⟨"CONV.BEGIN", c64 0x10 0 0 0 0, c64 0xFF 0 0xFF 0xFF 0xFFFFFFFF⟩,
     ⟨"CONV.ENCODE", c64 0x11 0 0 0 0, c64 0xFF 0xFF 0xFF 0xFF 0⟩,
     ⟨"BCH.BEGIN", c64 0x20 0 0 0 0, c64 0xFF 0 0 0xFF 0⟩,
     ⟨"BCH.ENCODE", c64 0x21 0 0 0 0, c64 0xFF 0xFF 0xFF 0xFF 0⟩,
     ⟨"FHSS.BEGIN", c64 0x30 0 0 0 0, c64 0xFF 0 0 0 0xFFFE0000⟩,
     ⟨"FHSS.CONFIG", c64 0x31 0 0 0 0, c64 0xFF 0 0 0 0xFFFE0000⟩,
     ⟨"FHSS.ENCODE", c64 0x32 0 0 0 0, c64 0xFF 0xFF 0xFF 0xFF 0⟩,
     ⟨"HOP.START", c64 0x40 0 0 0 0, c64 0xFF 0xFF 0xFF 0xFF 0⟩,
     ⟨"HOP.STEP", c64 0x41 0 0 0 0, c64 0xFF 0xFF 0xFF 0xFF 0xFFFFFFFF⟩,
     ⟨"HOP.RESET", c64 0x42 0 0 0 0, c64 0xFF 0xFF 0xFF 0xFF 0xFFFFFFFF⟩] := by decide

/-- A row is found by its mnemonic. -/
theorem row_eq_of_mnemonic_eq :
    ∀ row ∈ commandTable, ∀ row' ∈ commandTable, row.mnemonic = row'.mnemonic → row = row' := by decide

/-- Words of the format are equal field by field. -/
theorem c64_inj {op a b c op' a' b' c' : BitVec 8} {imm imm' : BitVec 32} :
    c64 op a b c imm = c64 op' a' b' c' imm' ↔ op = op' ∧ a = a' ∧ b = b' ∧ c = c' ∧ imm = imm' := by
  refine ⟨fun h => ⟨?_, ?_, ?_, ?_, ?_⟩, by rintro ⟨rfl, rfl, rfl, rfl, rfl⟩; rfl⟩
  · simpa only [opField_c64] using congrArg opField h
  · simpa only [aField_c64] using congrArg aField h
  · simpa only [bField_c64] using congrArg bField h
  · simpa only [cField_c64] using congrArg cField h
  · simpa only [immField_c64] using congrArg immField h

theorem byte_and_full (x : BitVec 8) : x &&& 0xFF = x := BitVec.and_allOnes

theorem imm_and_full (x : BitVec 32) : x &&& 0xFFFFFFFF = x := BitVec.and_allOnes

/-- The mask of a configuration command leaves of `imm` the bits that must be 0 (R71). -/
theorem reservedPart_eq_zero {imm : BitVec 32} (h : imm &&& 0xFFFE0000 = 0) : reservedPart imm = 0 := by
  have hmask : BitVec.extractLsb' 17 15 (0xFFFE0000 : BitVec 32) = BitVec.allOnes 15 := by decide
  have hpart := congrArg reservedPart h
  rwa [reservedPart, BitVec.extractLsb'_and, hmask, BitVec.and_allOnes] at hpart

/-- A word that matches a row is the word of a command with the row's mnemonic (R73). -/
theorem exists_wordOf_of_match {row : TableRow} {w : CommandWord} (hrow : row ∈ commandTable)
    (h : w &&& row.mask = row.pattern) : ∃ i, WordOf i w ∧ i.mnemonic = row.mnemonic := by
  obtain ⟨op, a, b, c, imm, rfl⟩ := exists_eq_c64 w
  rw [commandTable_eq] at hrow
  simp only [List.mem_cons, List.not_mem_nil, or_false] at hrow
  rcases hrow with rfl | rfl | rfl | rfl | rfl | rfl | rfl | rfl | rfl | rfl
  all_goals
    simp only [Laws.EncodingRow.c64_and, c64_inj, byte_and_full, imm_and_full] at h
  · obtain ⟨rfl, -, rfl, rfl, rfl⟩ := h; exact ⟨_, .convBegin a, rfl⟩
  · obtain ⟨rfl, rfl, rfl, rfl, -⟩ := h; exact ⟨_, .convEncode imm, rfl⟩
  · obtain ⟨rfl, -, -, rfl, -⟩ := h; exact ⟨_, .bchBegin a b imm, rfl⟩
  · obtain ⟨rfl, rfl, rfl, rfl, -⟩ := h; exact ⟨_, .bchEncode imm, rfl⟩
  · obtain ⟨rfl, -, -, -, himm⟩ := h
    rw [← configImm_parts imm (reservedPart_eq_zero himm)]
    exact ⟨_, .fhssBegin a b c _ _, rfl⟩
  · obtain ⟨rfl, -, -, -, himm⟩ := h
    rw [← configImm_parts imm (reservedPart_eq_zero himm)]
    exact ⟨_, .fhssConfig a b c _ _, rfl⟩
  · obtain ⟨rfl, rfl, rfl, rfl, -⟩ := h; exact ⟨_, .fhssEncode imm, rfl⟩
  · obtain ⟨rfl, rfl, rfl, rfl, -⟩ := h; exact ⟨_, .hopStart imm, rfl⟩
  · obtain ⟨rfl, rfl, rfl, rfl, rfl⟩ := h; exact ⟨_, .hopStep, rfl⟩
  · obtain ⟨rfl, rfl, rfl, rfl, rfl⟩ := h; exact ⟨_, .hopReset, rfl⟩

/-- Every command's word matches the row that carries its mnemonic (R73). -/
theorem encode_matches_row (i : Instr) : Laws.EncodingRow.Statement i := by
  cases i with
  | convBegin rate => exact Laws.EncodingRow.convBegin rate
  | convEncode nbits => exact Laws.EncodingRow.convEncode nbits
  | bchBegin n k poly => exact Laws.EncodingRow.bchBegin n k poly
  | bchEncode dataword => exact Laws.EncodingRow.bchEncode dataword
  | fhssBegin bw cr hdrCount grid id => exact Laws.EncodingRow.fhssBegin bw cr hdrCount grid id
  | fhssConfig bw cr hdrCount grid id => exact Laws.EncodingRow.fhssConfig bw cr hdrCount grid id
  | fhssEncode len => exact Laws.EncodingRow.fhssEncode len
  | hopStart centre => exact Laws.EncodingRow.hopStart centre
  | hopStep => exact Laws.EncodingRow.hopStep
  | hopReset => exact Laws.EncodingRow.hopReset

/-- A word that decodes matches the row that carries the command's mnemonic (R73). -/
theorem matches_row_of_decode {w : CommandWord} {i : Instr} (h : decode w = .ok i) :
    ∃ row ∈ commandTable, row.mnemonic = i.mnemonic ∧ w &&& row.mask = row.pattern := by
  obtain rfl := (wordOf_of_decode h).encode_eq
  exact encode_matches_row i

/-- A word that matches a row decodes to a command with the row's mnemonic (R73). -/
theorem decode_of_match {row : TableRow} {w : CommandWord} (hrow : row ∈ commandTable)
    (h : w &&& row.mask = row.pattern) : ∃ i, decode w = .ok i ∧ i.mnemonic = row.mnemonic := by
  obtain ⟨i, hi, hm⟩ := exists_wordOf_of_match hrow h
  exact ⟨i, hi.decode_eq, hm⟩

/-- Settles O3: decoding and matching agree row by row, and two rows matched by one word carry the mnemonic of the one
command it decodes to. -/
theorem decoderFollowsMaskTable : Obligations.DecoderFollowsMaskTable := by
  refine fun w => ⟨fun row hrow => ⟨fun ⟨i, hi, hm⟩ => ?_, decode_of_match hrow⟩, fun row hrow row' hrow' h h' => ?_⟩
  · obtain ⟨row', hrow', hm', hmatch⟩ := matches_row_of_decode hi
    obtain rfl := row_eq_of_mnemonic_eq row' hrow' row hrow (hm'.trans hm)
    exact hmatch
  · obtain ⟨i, hi, hm⟩ := decode_of_match hrow h
    obtain ⟨i', hi', hm'⟩ := decode_of_match hrow' h'
    obtain rfl : i = i' := Except.ok.inj (hi.symm.trans hi')
    exact row_eq_of_mnemonic_eq row hrow row' hrow' (hm.symm.trans hm')

end Sys2Proof

/-! ## A word that is no command's -/

namespace Sys2Proof.Machine

/-- The step on a word that the decoder refuses (R74, R226). -/
theorem step_illegal {s : State} {w : CommandWord} {rest : List Event} {x : DecodeError}
    (hp : s.pending = .command w :: rest) (hd : decode w = .error x) :
    step s = .next { s with pending := rest, kind := .commandInvalid, pc := s.pc + 1 } := by
  rw [step_cons hp]
  simp only [takeEvent, runWord, hd, raise_eq]

/-- Settles O6: a word that matches no row does not decode. -/
theorem illegalWordIsRefused : Obligations.IllegalWordIsRefused := by
  refine ⟨rfl, fun s w rest hno hp => ?_⟩
  cases hd : decode w with
  | ok i =>
    obtain ⟨row, hrow, -, hmatch⟩ := matches_row_of_decode hd
    exact absurd hmatch (hno row hrow)
  | error x => exact step_illegal hp hd

end Sys2Proof.Machine
end

section
/-! The raw header (R81, R171), and the frame as `FRAME` holds it (R87, R177). -/

namespace Sys2Proof.Machine

/-! ## The raw header -/

/-- A field in the bits below another one. -/
theorem shiftLeft_or_eq_add (a : Nat) {b k : Nat} (h : b < 2 ^ k) : a <<< k ||| b = a * 2 ^ k + b := by
  rw [← Nat.shiftLeft_add_eq_or_of_lt h, Nat.shiftLeft_eq]

/-- The second byte of the raw header: version 0, coding rate, grid, 1, and the top bit of the bandwidth (R81). -/
theorem headerByte1_toNat (cfg : FhssCfg) :
    (BitVec.ofNat 8 ((0 <<< 5) ||| (codingRateCode cfg.cr <<< 3) ||| (cfg.grid.code <<< 2) ||| (1 <<< 1)
      ||| ((cfg.bw >>> 3) &&& 1))).toNat = codingRateCode cfg.cr * 8 + cfg.grid.code * 4 + 2 + cfg.bw / 8 % 2 := by
  have htop : (cfg.bw >>> 3) &&& 1 = cfg.bw / 8 % 2 := by
    rw [Nat.and_one_is_mod]
    exact congrArg (· % 2) (Nat.shiftRight_eq_div_pow cfg.bw 3)
  rw [htop]
  obtain h | h := Nat.mod_two_eq_zero_or_one (cfg.bw / 8) <;> rw [h] <;> cases cfg.cr <;> cases cfg.grid <;> rfl

/-- The third byte of the raw header: the low bits of the bandwidth above the high bits of the sequence id (R81). -/
theorem headerByte2_toNat (bw : Nat) {id : Nat} (hid : id ≤ 511) :
    (BitVec.ofNat 8 (((bw &&& 7) <<< 5) ||| (id >>> 4))).toNat = bw % 8 * 32 + id / 16 := by
  have hbw : bw &&& 7 = bw % 8 := Nat.and_two_pow_sub_one_eq_mod bw 3
  have hhigh : id >>> 4 = id / 16 := Nat.shiftRight_eq_div_pow id 4
  rw [hbw, hhigh, shiftLeft_or_eq_add _ (by omega), BitVec.toNat_ofNat, Nat.mod_eq_of_lt] <;> omega

/-- The fourth byte of the raw header: the low bits of the sequence id, the replica index, two zeros (R81). -/
theorem headerByte3_toNat (id : Nat) {replica : Nat} (hreplica : replica < 4) :
    (BitVec.ofNat 8 (((id &&& 0xF) <<< 4) ||| (replica <<< 2))).toNat = id % 16 * 16 + replica * 4 := by
  have hlow : id &&& 0xF = id % 16 := Nat.and_two_pow_sub_one_eq_mod id 4
  have hshift : replica <<< 2 = replica * 4 := Nat.shiftLeft_eq replica 2
  rw [hlow, hshift, shiftLeft_or_eq_add _ (by omega), BitVec.toNat_ofNat, Nat.mod_eq_of_lt] <;> omega

/-- Settles O45: the fields byte by byte, and the fifth byte is their CRC-8 by definition. -/
theorem headerFieldsLaidOut : Obligations.HeaderFieldsLaidOut := by
  intro len cfg replica hlen hid hreplica
  refine ⟨_, _, _, _, rfl, ?_, headerByte1_toNat cfg, headerByte2_toNat cfg.bw hid,
    headerByte3_toNat cfg.hopSeqId hreplica⟩
  rw [BitVec.toNat_ofNat, Nat.mod_eq_of_lt hlen]

/-! ## The frame in `FRAME` -/

/-- The bytes the host has placed in `IN` are those that `MemRead` answers (R50). -/
theorem readBytes_of_inputIs {bytes : List Byte} {s : State} (h : inputIs bytes s) :
    Memory.readBytes s.inBuf 0 bytes.length = some bytes :=
  readBytes_eq_some_iff.mpr ⟨rfl, fun i hi => by rw [Nat.zero_add]; exact h i hi⟩

/-- What a successful `FHSS.ENCODE` of a written payload leaves (R145, R146). -/
theorem fhssEncode_ok {s t : State} {payload : List Byte} (hin : inputIs payload s)
    (h : exec (.fhssEncode payload.length) s = .next t) (hok : t.kind = .ok) :
    encodeCheck payload.length s = none ∧ t = done (encoded payload s) := by
  obtain ⟨k, hk, rfl⟩ | ⟨payload', hcheck, hread, rfl⟩ := execFhssEncode_next h
  · exact absurd hok (encodeCheck_ne_ok hk)
  · obtain rfl : payload = payload' := Option.some.inj ((readBytes_of_inputIs hin).symm.trans hread)
    exact ⟨hcheck, rfl⟩

/-- Zero bytes after a list of bytes change no bit (R12). -/
theorem bitAt_append_zeros (bytes : List Byte) (n i : Nat) :
    bitAt (bytes ++ List.replicate n 0x00) i = bitAt bytes i := by
  have hbyte : (bytes ++ List.replicate n (0x00 : Byte)).getD (i / 8) 0 = bytes.getD (i / 8) 0 := by
    by_cases h : i / 8 < bytes.length
    · rw [List.getD_append _ _ _ _ h]
    · have hge : bytes.length ≤ i / 8 := Nat.le_of_not_lt h
      rw [List.getD_append_right _ _ _ _ hge, List.getD_eq_default _ _ hge, List.getD_eq_getElem?_getD,
        List.getElem?_getD_replicate_default_eq]
  rw [bitAt, hbyte, bitAt]

/-- Bit `i` of the frame's image is frame bit `i`, 0 past the frame (R177). -/
theorem bitAt_frameImage (bits : List Bool) (i : Nat) : bitAt (frameImage bits) i = bits.getD i false := by
  rw [frameImage, bitAt_append_zeros, bitAt_pack]

/-- A bit of a buffer in the run of bytes that has been written. -/
theorem bit_writeBytes (m : Memory) (v : List Byte) {i : Nat} (h : i < 8 * v.length) :
    (Memory.read (Memory.writeBytes m 0 v) (i / 8)).map (fun b => b.getMsbD (i % 8)) = some (bitAt v i) := by
  have hbyte : i / 8 < v.length := by omega
  have hread := read_writeBytes_inside m 0 v hbyte
  rw [Nat.zero_add] at hread
  rw [hread, Option.map_some, bitAt, List.getD_eq_getElem _ _ hbyte]

/-- Settles O43: `FRAME` is written whole with the frame's image. -/
theorem frameStoredInBuffer : Obligations.FrameStoredInBuffer := by
  intro s t payload hin h hok i hi
  obtain ⟨hcheck, rfl⟩ := fhssEncode_ok hin h hok
  obtain ⟨-, -, -, hfits⟩ := encodeCheck_eq_none_iff.mp hcheck
  have hlen := encodeFrame_length s.CFG.toCfg s.cfg payload
  have himage := frameImage_length (bits := (encodeFrame s.CFG.toCfg s.cfg payload).1) (hlen ▸ hfits)
  have hbit : bufferBit (done (encoded payload s)) .frameBuf i =
      some ((encodeFrame s.CFG.toCfg s.cfg payload).1.getD i false) := by
    rw [← bitAt_frameImage]
    exact bit_writeBytes _ _ (by rw [himage]; exact hi)
  simp only [hbit, encoded_frame, ← hlen]
  split
  · rfl
  · rw [List.getD_eq_default _ _ (by omega)]

end Sys2Proof.Machine
end

section
/-! The frame's layout bit by bit (R80, R85, R86, R161, R163, R172, R173), and the stream it is made of (R155 to R157). -/

namespace Sys2Proof.Machine

/-! ## The FEC input (R155 to R157) -/

/-- A zero fed to the encoder doubles its state (R102). -/
theorem convNext_false (c : Cfg) (r : ConvRate) (s : Nat) :
    convNext c r s false = s * 2 % 2 ^ convStateBits c r := by
  rw [convNext, Bool.toNat_false, Nat.or_zero, Nat.and_two_pow_sub_one_eq_mod, Nat.shiftLeft_eq, Nat.pow_one]

/-- `n` zeros shift the state by `n` bits. -/
theorem convEnd_zeros (c : Cfg) (r : ConvRate) (n : Nat) {s : Nat} (h : s < 2 ^ convStateBits c r) :
    convEnd c r s (List.replicate n false) = s * 2 ^ n % 2 ^ convStateBits c r := by
  induction n generalizing s with
  | zero => rw [Nat.pow_zero, Nat.mul_one, Nat.mod_eq_of_lt h]; rfl
  | succ n ih =>
    calc convEnd c r s (List.replicate (n + 1) false)
        = convEnd c r (convNext c r s false) (List.replicate n false) := rfl
      _ = s * 2 % 2 ^ convStateBits c r * 2 ^ n % 2 ^ convStateBits c r := by
        rw [ih (convNext_lt c r s false), convNext_false]
      _ = s * 2 ^ (n + 1) % 2 ^ convStateBits c r := by
        rw [Nat.mod_mul_mod, Nat.mul_assoc, Nat.pow_succ, Nat.mul_comm 2]

/-- As many zeros as the state has bits take the encoder to state 0. -/
theorem convEnd_flush (c : Cfg) (r : ConvRate) {s : Nat} (h : s < 2 ^ convStateBits c r) :
    convEnd c r s (List.replicate (convStateBits c r) false) = 0 := by
  rw [convEnd_zeros c r _ h, Nat.mul_mod_left]

/-- The FEC input is the whitened payload, its CRC-16 high byte first, and six zeros (R155, R156). -/
theorem fecInput_eq (c : Cfg) (payload : List Byte) :
    fecInput c payload =
      (whiten c payload ++ payloadCrc (whiten c payload)).flatMap byteBits ++ List.replicate tailBits false := by
  have hlen : ((whiten c payload ++ payloadCrc (whiten c payload)).flatMap byteBits).length =
      8 * (payload.length + 2) := by
    rw [flatMap_byteBits_length, List.length_append, whiten_length]
    rfl
  rw [fecInput, bitsOf, fecBuffer, List.flatMap_append, fecInputBits, ← hlen, List.take_length_add_append]
  rfl

/-! ## Header blocks (R85, R172, R173) -/

/-- The `i`-th header block stands `i` block lengths from the start, and carries replica index `left - 1 - i` (R173). -/
theorem headerBlocks_block (c : Cfg) (cfg : FhssCfg) (len : Nat) {left i : Nat} (s : Nat) (h : i < left) :
    ((headerBlocks c cfg len left s).1.drop (i * hdrBlockBits c)).take (hdrBlockBits c) =
      (headerBlock c (headerRaw len cfg (left - 1 - i))).1 := by
  induction left generalizing i s with
  | zero => omega
  | succ left ih =>
    have hblk := headerBlock_length c (headerRaw len cfg left)
    simp only [headerBlocks]
    cases i with
    | zero => rw [Nat.zero_mul, List.drop_zero, List.take_left' hblk]; rfl
    | succ i =>
      rw [Nat.succ_mul, Nat.add_comm, ← List.drop_drop, List.drop_left' hblk, ih _ (by omega)]
      congr 3
      omega

/-- A header block begins with the guard zeros (R172). -/
theorem headerBlock_guard (c : Cfg) (raw : List Byte) {j : Nat} (h : j < c.hdrGuardBits) :
    (headerBlock c raw).1[j]? = some false := by
  simp only [headerBlock, List.append_assoc]
  rw [List.getElem?_append_left (by simpa using h), List.getElem?_replicate_of_lt h]

/-- After the guard zeros a header block has the coded bits in the order of `CFG.hdrPerm` (R85, R172). -/
theorem headerBlock_coded (c : Cfg) (raw : List Byte) {j : Nat} (h : j < hdrPermLen) :
    (headerBlock c raw).1[c.hdrGuardBits + j]? = some ((headerCoded c raw).1.getD (c.hdrPerm.getD j 0) false) := by
  simp only [headerBlock, List.append_assoc]
  rw [List.getElem?_append_right (by simp), List.length_replicate, Nat.add_sub_cancel_left,
    List.getElem?_append_left (by simpa using h), List.getElem?_map, List.getElem?_range h, Option.map_some]

/-- A header block ends with the sync word (R85, R172). -/
theorem headerBlock_sync (c : Cfg) (raw : List Byte) (j : Nat) :
    (headerBlock c raw).1[c.hdrGuardBits + 80 + j]? = c.syncWord[j]? := by
  simp only [headerBlock]
  rw [List.getElem?_append_right (by simp [hdrPermLen])]
  congr 1
  simp [hdrPermLen]

/-- The coded header has 80 bits (R170). -/
theorem headerCoded_length (c : Cfg) {raw : List Byte} (h : raw.length = 5) : (headerCoded c raw).1.length = 80 := by
  have hbits : (bitsOf raw hdrRawBits).length = 40 := bitsOf_length (by rw [h]; decide)
  simp only [headerCoded, convEncodeBits, convOut_length, hbits, convDenominator]

/-- What R9 asks of `CFG.hdrPerm` besides its distinct entries. -/
theorem cfgWf_hdrPerm {c : Cfg} (h : cfgWf c = true) :
    c.hdrPerm.length = hdrPermLen ∧ ∀ p ∈ c.hdrPerm, p < hdrPermLen := by
  simp only [cfgWf, Bool.and_eq_true, beq_iff_eq, List.all_eq_true, decide_eq_true_eq] at h
  obtain ⟨⟨⟨⟨⟨⟨⟨⟨⟨-, hlen⟩, hall⟩, -⟩, -⟩, -⟩, -⟩, -⟩, -⟩, -⟩ := h
  exact ⟨hlen, hall⟩

/-- Position `j` after the guard zeros carries the coded bit `hdrPerm[j]`, which there is (R85, R172). -/
theorem headerBlock_perm {c : Cfg} (hwf : cfgWf c = true) {raw : List Byte} (hraw : raw.length = 5) {j p : Nat}
    (hp : c.hdrPerm[j]? = some p) :
    j < 80 ∧ ∃ b, (headerCoded c raw).1[p]? = some b ∧ (headerBlock c raw).1[c.hdrGuardBits + j]? = some b := by
  obtain ⟨hlen, hall⟩ := cfgWf_hdrPerm hwf
  obtain ⟨hj, rfl⟩ := List.getElem?_eq_some_iff.mp hp
  have hlt : c.hdrPerm[j] < (headerCoded c raw).1.length := by
    rw [headerCoded_length c hraw]
    exact hall _ (List.getElem_mem hj)
  have hj80 : j < hdrPermLen := hlen ▸ hj
  refine ⟨hj80, _, List.getElem?_eq_getElem hlt, ?_⟩
  rw [headerBlock_coded c raw hj80, List.getD_eq_getElem _ _ hj, List.getD_eq_getElem _ _ hlt]

/-! ## Payload blocks (R86, R161, R163) -/

/-- After `j` full blocks of 50 bits, which take 48 bits of the stream each, the other blocks follow. -/
theorem guardBlocks_drop {count j : Nat} {bits : List Bool} (hj : j ≤ count) (hfull : 48 * j ≤ bits.length) :
    (guardBlocks count bits).drop (50 * j) = guardBlocks (count - j) (bits.drop (48 * j)) := by
  induction j generalizing count bits with
  | zero => rfl
  | succ j ih =>
    obtain ⟨count, rfl⟩ : ∃ k, count = k + 1 := ⟨count - 1, by omega⟩
    have hblk : (List.replicate guardBits false ++ bits.take fragBits).length = 50 := by
      simp only [List.length_append, List.length_replicate, List.length_take, guardBits, fragBits]
      omega
    rw [guardBlocks, Nat.mul_succ, Nat.add_comm, ← List.drop_drop, List.drop_left' hblk,
      ih (by omega) (by simp only [List.length_drop, fragBits]; omega), List.drop_drop, Nat.add_sub_add_right,
      Nat.mul_succ, Nat.add_comm (48 * j)]
    rfl

/-- The `j`-th block starts at bit `50 * j`. -/
theorem guardBlocks_getElem? {count j : Nat} {bits : List Bool} (hj : j < count) (hfull : 48 * j ≤ bits.length)
    (k : Nat) :
    (guardBlocks count bits)[50 * j + k]? = (guardBlocks (count - j - 1 + 1) (bits.drop (48 * j)))[k]? := by
  rw [← List.getElem?_drop, guardBlocks_drop (by omega) hfull, show count - j - 1 + 1 = count - j by omega]

/-- A block begins with two zeros (R86). -/
theorem guardBlocks_guard {count j : Nat} {bits : List Bool} (hj : j < count) (hfull : 48 * j ≤ bits.length) :
    (guardBlocks count bits)[50 * j]? = some false ∧ (guardBlocks count bits)[50 * j + 1]? = some false :=
  ⟨guardBlocks_getElem? hj hfull 0, guardBlocks_getElem? hj hfull 1⟩

/-- After the two zeros a block has its up to 48 bits (R163). -/
theorem guardBlocks_bit {count j q : Nat} {bits : List Bool} (hj : j < count) (hq : q < 48)
    (hbit : 48 * j + q < bits.length) :
    (guardBlocks count bits)[50 * j + 2 + q]? = bits[48 * j + q]? := by
  have hlen : q < ((bits.drop (48 * j)).take 48).length := by
    simp only [List.length_take, List.length_drop]
    omega
  rw [Nat.add_assoc, guardBlocks_getElem? hj (by omega), guardBlocks, List.append_assoc,
    List.getElem?_append_right (by simp [guardBits]), List.length_replicate, guardBits, Nat.add_sub_cancel_left,
    fragBits, List.getElem?_append_left hlen, List.getElem?_take_of_lt hq, List.getElem?_drop]

/-- Bit `k` of the interleaved stream is the bit that the order names, a free bit where it names none (R161, log 23). -/
theorem interleave_getElem?_eq (rootEven : Bool) (p : List Bool) {k : Nat} (h : k < p.length) :
    (interleave rootEven p)[k]? =
      let i := (interleaveOrder rootEven p.length).getD k 0
      some (p.getD i (Config.unstatedBit p i)) := by
  have hk : k < (interleaveOrder rootEven p.length).length := by rwa [interleaveOrder_length]
  rw [interleave, List.getElem?_map, List.getElem?_eq_getElem hk, Option.map_some, List.getD_eq_getElem _ _ hk]

/-- The `j`-th payload block begins with two zeros (R86, R163). -/
theorem payloadBlocks_guard (c : Cfg) {p : List Bool} {j : Nat} (h : j < payloadBlockCount p.length) :
    (payloadBlocks c p)[50 * j]? = some false ∧ (payloadBlocks c p)[50 * j + 1]? = some false := by
  have hcount := (payloadBlockCount_spec p.length).2
  exact guardBlocks_guard h (by rw [interleave_length]; omega)

/-- After the two zeros the `j`-th payload block has its bits of the stream in the interleaver's order (R161, R163). -/
theorem payloadBlocks_bit (c : Cfg) {p : List Bool} {j q : Nat} (hq : q < 48) (h : 48 * j + q < p.length) :
    (payloadBlocks c p)[50 * j + 2 + q]? =
      let i := (interleaveOrder c.ilvRootEven p.length).getD (48 * j + q) 0
      some (p.getD i (Config.unstatedBit p i)) := by
  have hcount := (payloadBlockCount_spec p.length).1
  rw [payloadBlocks, guardBlocks_bit (by omega) hq (by rwa [interleave_length]), interleave_getElem?_eq _ _ h]

/-! ## The frame -/

/-- The `i`-th header block in the frame (R80, R173). -/
theorem encodeFrame_headerBlock (c : Cfg) (cfg : FhssCfg) (payload : List Byte) {i : Nat} (h : i < cfg.hdrCount) :
    ((encodeFrame c cfg payload).1.drop (i * hdrBlockBits c)).take (hdrBlockBits c) =
      (headerBlock c (headerRaw payload.length cfg (cfg.hdrCount - 1 - i))).1 := by
  have hlen := headerBlocks_length c cfg payload.length cfg.hdrCount 0
  have hend : i * hdrBlockBits c + hdrBlockBits c ≤ cfg.hdrCount * hdrBlockBits c := by
    rw [← Nat.succ_mul]
    exact Nat.mul_le_mul_right _ h
  rw [← headerBlocks_block c cfg payload.length 0 h, encodeFrame, List.drop_append_of_le_length (by omega),
    List.take_append_of_le_length (by rw [List.length_drop]; omega)]

/-- Bit `j` of the `i`-th header block in the frame. -/
theorem encodeFrame_header_getElem? (c : Cfg) (cfg : FhssCfg) (payload : List Byte) {i j : Nat}
    (hi : i < cfg.hdrCount) (hj : j < hdrBlockBits c) :
    (encodeFrame c cfg payload).1[i * hdrBlockBits c + j]? =
      (headerBlock c (headerRaw payload.length cfg (cfg.hdrCount - 1 - i))).1[j]? := by
  rw [← encodeFrame_headerBlock c cfg payload hi, List.getElem?_take_of_lt hj, List.getElem?_drop]

/-- The payload blocks follow the header blocks (R80). -/
theorem encodeFrame_payload_getElem? (c : Cfg) (cfg : FhssCfg) (payload : List Byte) (k : Nat) :
    (encodeFrame c cfg payload).1[cfg.hdrCount * hdrBlockBits c + k]? =
      (payloadBlocks c (payloadStream c cfg payload))[k]? := by
  rw [encodeFrame, List.getElem?_append_right (by rw [headerBlocks_length]; omega), headerBlocks_length,
    Nat.add_sub_cancel_left]

/-- Settles O44: the header blocks one by one, each taken apart; then the payload blocks, each taken apart. -/
theorem frameLayout : Obligations.FrameLayout := by
  intro c cfg payload hwf frame stream base raw whitened crc16 input
  have hinput : fecInput c payload = input := fecInput_eq c payload
  have hflush : convEnd c .three 0 input = 0 := by
    simp only [input, convEnd, List.foldl_append]
    exact convEnd_flush c .three (convEnd_lt c .three (Nat.two_pow_pos _) _)
  have hheader := fun {i j : Nat} => encodeFrame_header_getElem? c cfg payload (i := i) (j := j)
  have hpayload := encodeFrame_payload_getElem? c cfg payload
  refine ⟨⟨?_, hflush⟩, fun i j hi hj => ?_, fun i j p hi hp => ?_, fun i j b hi hb => ?_,
    fun i hi => encodeFrame_headerBlock c cfg payload hi, fun j hj => ?_, fun j q hq hbit => ?_, ?_⟩
  · exact congrArg (fun bits => puncture c cfg.cr (convOut c .three 0 bits)) hinput
  · rw [hheader hi (by simp only [hdrBlockBits]; omega), headerBlock_guard c _ hj]
  · obtain ⟨hj, b, hb, hblk⟩ := headerBlock_perm hwf (headerRaw_length payload.length cfg (cfg.hdrCount - 1 - i)) hp
    refine ⟨b, hb, ?_⟩
    rw [Nat.add_assoc, hheader hi (by simp only [hdrBlockBits, hdrPermLen]; omega), hblk]
  · have hj : j < c.syncWord.length := (List.getElem?_eq_some_iff.mp hb).1
    rw [Nat.add_assoc, Nat.add_assoc, ← Nat.add_assoc c.hdrGuardBits,
      hheader hi (by simp only [hdrBlockBits, hdrPermLen, syncBits]; omega), headerBlock_sync, hb]
  · rw [Nat.add_assoc, hpayload, hpayload]
    exact payloadBlocks_guard c hj
  · rw [Nat.add_assoc, Nat.add_assoc, ← Nat.add_assoc (50 * j), hpayload, payloadBlocks_bit c hq hbit]
  · simp only [frame, encodeFrame, List.length_append, headerBlocks_length, payloadBlocks_length, ← Nat.add_assoc]
    rfl

end Sys2Proof.Machine
end

section
/-! The convolutional encoder: its state as a shift register (R102), the laws of `ConvEncodeBits` (R104), and where each
symbol stands in the output (R103, R108). -/

namespace Sys2Proof.Machine

/-! ## The shift register (R102) -/

/-- A well-formed `CFG` gives the encoder a state of at least one bit (R9, R100). -/
theorem convStateBits_pos {c : Cfg} (h : cfgWf c = true) (r : ConvRate) : 0 < convStateBits c r := by
  cases r with
  | two =>
    simp only [cfgWf, Bool.and_eq_true, decide_eq_true_eq] at h
    simp only [convStateBits]
    omega
  | three => exact Nat.zero_lt_succ 5

/-- A step of the encoder puts the input bit below the state, and keeps the low `w_r` bits. -/
theorem convNext_eq_bit_mod (c : Cfg) (r : ConvRate) (s : Nat) (b : Bool) :
    convNext c r s b = Nat.bit b s % 2 ^ convStateBits c r := by
  have hbit : s <<< 1 ||| b.toNat = Nat.bit b s := by
    rw [shiftLeft_or_eq_add s (Bool.toNat_lt b), Nat.bit_val, Nat.pow_one, Nat.mul_comm]
  rw [convNext, Nat.and_two_pow_sub_one_eq_mod, hbit]

/-- The newest bit stands in bit 0. -/
theorem convNext_testBit_zero {c : Cfg} {r : ConvRate} (hw : 0 < convStateBits c r) (s : Nat) (b : Bool) :
    (convNext c r s b).testBit 0 = b := by
  rw [convNext_eq_bit_mod, Nat.testBit_mod_two_pow, Nat.testBit_bit_zero, decide_eq_true hw, Bool.true_and]

/-- The older bits move up by one. -/
theorem convNext_testBit_succ {c : Cfg} {r : ConvRate} {j : Nat} (hj : j + 1 < convStateBits c r) (s : Nat) (b : Bool) :
    (convNext c r s b).testBit (j + 1) = s.testBit j := by
  rw [convNext_eq_bit_mod, Nat.testBit_mod_two_pow, Nat.testBit_bit_succ, decide_eq_true hj, Bool.true_and]

/-- Settles O30: the newest bit enters below, the older bits move up, and the mask drops the oldest. -/
theorem encoderStateIsShiftRegister : Obligations.EncoderStateIsShiftRegister := by
  intro c r s b hwf
  refine ⟨rfl, convNext_testBit_zero (convStateBits_pos hwf r) s b, fun j hj => convNext_testBit_succ hj s b,
    fun j hj => Nat.testBit_lt_two_pow ?_⟩
  exact (convNext_lt c r s b).trans_le (Nat.pow_le_pow_right Nat.two_pos hj)

/-- Bit `j` of the end state is the `j`-th last input bit. -/
theorem convEnd_testBit (c : Cfg) (r : ConvRate) (s : Nat) (bits : List Bool) {j : Nat} (hj : j < bits.length)
    (hw : j < convStateBits c r) : (convEnd c r s bits).testBit j = bits.getD (bits.length - 1 - j) false := by
  rw [← List.getD_reverse j hj]
  induction bits using List.reverseRecOn generalizing j with
  | nil => exact absurd hj (Nat.not_lt_zero j)
  | append_singleton bits b ih =>
    rw [convEnd, List.foldl_concat, List.reverse_concat']
    cases j with
    | zero => exact convNext_testBit_zero hw _ b
    | succ j =>
      rw [convNext_testBit_succ hw, List.getD_cons_succ]
      exact ih (by simpa using hj) (Nat.lt_of_succ_lt hw)

/-- As many input bits as the state has leave a `w_r`-bit state, whatever the encoder starts from. -/
theorem convEnd_lt_of_le_length {c : Cfg} {r : ConvRate} (hw : 0 < convStateBits c r) (s : Nat) {bits : List Bool}
    (h : convStateBits c r ≤ bits.length) : convEnd c r s bits < 2 ^ convStateBits c r := by
  cases bits with
  | nil => exact absurd hw (Nat.not_lt.mpr h)
  | cons b bits => exact convEnd_lt c r (convNext_lt c r s b) bits

/-- As many input bits as the state has push every bit of the start state out. -/
theorem convEnd_forgets_start {c : Cfg} {r : ConvRate} (hw : 0 < convStateBits c r) (s s' : Nat) {bits : List Bool}
    (h : convStateBits c r ≤ bits.length) : convEnd c r s bits = convEnd c r s' bits := by
  refine Nat.eq_of_testBit_eq fun j => ?_
  obtain hj | hj := Nat.lt_or_ge j (convStateBits c r)
  · rw [convEnd_testBit c r s bits (hj.trans_le h) hj, convEnd_testBit c r s' bits (hj.trans_le h) hj]
  · have hpow := Nat.pow_le_pow_right Nat.two_pos hj
    rw [Nat.testBit_lt_two_pow ((convEnd_lt_of_le_length hw s h).trans_le hpow),
      Nat.testBit_lt_two_pow ((convEnd_lt_of_le_length hw s' h).trans_le hpow)]

/-! ## The laws of `ConvEncodeBits` (R104) -/

theorem convEnd_append (c : Cfg) (r : ConvRate) (s : Nat) (x y : List Bool) :
    convEnd c r s (x ++ y) = convEnd c r (convEnd c r s x) y := List.foldl_append

theorem convOut_append (c : Cfg) (r : ConvRate) (s : Nat) (x y : List Bool) :
    convOut c r s (x ++ y) = convOut c r s x ++ convOut c r (convEnd c r s x) y := by
  induction x generalizing s with
  | nil => rfl
  | cons b x ih => simp only [List.cons_append, convOut, ih, List.append_assoc]; rfl

/-- Settles O31: concatenation, the state from the last input bits, the flush by zeros, the empty input. -/
theorem encoderLaws : Obligations.EncoderLaws := by
  intro c r hwf
  have hw := convStateBits_pos hwf r
  refine ⟨?_, fun s bits hlen => ⟨convEnd_lt_of_le_length hw s hlen, fun j hj => ?_⟩, fun s => ?_, fun s => rfl⟩
  · rintro s x y _ _ _ _ ⟨⟩ ⟨⟩
    exact Prod.ext (convOut_append c r s x y) (convEnd_append c r s x y)
  · exact convEnd_testBit c r s bits (hj.trans_le hlen) hj
  · have hzeros : convStateBits c r ≤ (List.replicate (convStateBits c r) false).length := List.length_replicate.ge
    exact (convEnd_forgets_start hw s 0 hzeros).trans (convEnd_flush c r (Nat.two_pow_pos _))

/-! ## The positions of a symbol's bits (R103, R108) -/

/-- Bit `j` of a symbol as it is sent, most significant first (R103). -/
theorem symbolBits_getElem? {n j : Nat} (h : j < n) (v : Nat) :
    (symbolBits n v)[j]? = some (v.testBit (n - 1 - j)) := by
  rw [symbolBits, List.getElem?_map, List.getElem?_range h, Option.map_some]

/-- The symbol of input bit `i` stands at `r*i` in the output, and is looked up in the state before that bit. -/
theorem convOut_getElem? (c : Cfg) (r : ConvRate) (s : Nat) {bits : List Bool} {i j : Nat} {b : Bool}
    (hi : bits[i]? = some b) (hj : j < convDenominator r) :
    (convOut c r s bits)[convDenominator r * i + j]? =
      some ((convSymbol c r (convEnd c r s (bits.take i)) b).testBit (convDenominator r - 1 - j)) := by
  obtain ⟨hlt, rfl⟩ := List.getElem?_eq_some_iff.mp hi
  have hlen : (convOut c r s (bits.take i)).length = convDenominator r * i := by
    rw [convOut_length, List.length_take_of_le hlt.le]
  have hsplit : convOut c r s bits = convOut c r s (bits.take i) ++
      convOut c r (convEnd c r s (bits.take i)) (bits[i] :: bits.drop (i + 1)) := by
    rw [← convOut_append, List.cons_getElem_drop_succ, List.take_append_drop]
  rw [hsplit, List.getElem?_append_right (by omega), hlen, Nat.add_sub_cancel_left, convOut,
    List.getElem?_append_left (by rwa [symbolBits_length]), symbolBits_getElem? hj]

end Sys2Proof.Machine
end

section
/-! The commands of the `CONV` unit: what they leave (R105, R107), `OUT` bit by bit (R108), and `CONV.ENCODE` twice
(R109, R110). -/

namespace Sys2Proof.Machine

/-! ## What the commands leave -/

/-- Settles O27: the operand is a rate, and the flag copies that there is one. -/
theorem convBeginSelectsRate : Obligations.ConvBeginSelectsRate := by
  intro s r
  refine ⟨done { s with conv := ⟨some r, 0⟩ }, ?_, rfl, status_getLsbD_flags _ 3⟩
  cases r <;> rfl

/-- `CONV.ENCODE` completes once begun, with at most 2048 bits and its input written (R107). -/
theorem convEncode_completes {s : State} {r : ConvRate} {nbits : Nat} {bytes : List Byte} (hr : s.conv.rate = some r)
    (hn : nbits ≤ 8 * inBytes) (hlen : bytes.length = ceilDiv nbits 8) (hin : inputIs bytes s) :
    exec (.convEncode nbits) s = .next (done (convEncoded r nbits bytes s)) := by
  have hread := readBytes_of_inputIs hin
  rw [hlen] at hread
  simp only [exec, execConvEncode, hr, hread, if_neg (Nat.not_lt.mpr hn)]
  rfl

/-- A `CONV.ENCODE` that ends with `Ok` had at most 2048 bits to code, and leaves them coded (R107). -/
theorem convEncode_ok {s t : State} {r : ConvRate} {nbits : Nat} {bytes : List Byte} (hr : s.conv.rate = some r)
    (hlen : bytes.length = ceilDiv nbits 8) (hin : inputIs bytes s) (h : exec (.convEncode nbits) s = .next t)
    (hok : t.kind = .ok) : nbits ≤ 8 * inBytes ∧ t = done (convEncoded r nbits bytes s) := by
  have hn : nbits ≤ 8 * inBytes := by
    obtain ⟨-, rfl⟩ | ⟨-, -, rfl⟩ | ⟨-, -, -, hn, -⟩ := execConvEncode_next h
    · cases hok
    · cases hok
    · exact hn
  exact ⟨hn, Host.Outcome.next.inj (h.symm.trans (convEncode_completes hr hn hlen hin))⟩

/-- A result register holds a value below `2^32` (R20). -/
theorem toWord_toNat {v : Nat} (h : v < 2 ^ 32) : (toWord v).toNat = v := by
  rw [toWord, BitVec.toNat_ofNat, Nat.mod_eq_of_lt h]

/-- Settles O28: the counts of at most 2048 bits at rate 3 fit their registers. -/
theorem convEncodeCompletes : Obligations.ConvEncodeCompletes := by
  intro s r nbits bytes hr hn hlen hin
  have hbits : convDenominator r * nbits ≤ 3 * 2048 := Nat.mul_le_mul (by cases r <;> decide) hn
  have hbytes : ceilDiv (convDenominator r * nbits) 8 ≤ 768 := ceilDiv_eight_le hbits
  exact ⟨_, convEncode_completes hr hn hlen hin, rfl, toWord_toNat (by omega), toWord_toNat (by omega)⟩

/-! ## `OUT` bit by bit -/

/-- The bytes read for `n` bits hold them. -/
theorem bitsOf_length_of_ceilDiv {bytes : List Byte} {n : Nat} (h : bytes.length = ceilDiv n 8) :
    (bitsOf bytes n).length = n := bitsOf_length (h ▸ (ceilDiv_eight n).1)

/-- The first `i` of the first `n` bits (R12). -/
theorem bitsOf_take (bytes : List Byte) {i n : Nat} (h : i ≤ n) : (bitsOf bytes n).take i = bitsOf bytes i := by
  rw [bitsOf, List.take_take, Nat.min_eq_left h, bitsOf]

/-- Bit `i` of `OUT` after a `CONV.ENCODE` is bit `i` of the encoder's output (R107). -/
theorem convEncoded_bufferBit {s : State} {r : ConvRate} {nbits : Nat} {bytes : List Byte}
    (hlen : bytes.length = ceilDiv nbits 8) {i : Nat} (hi : i < convDenominator r * nbits) :
    bufferBit (done (convEncoded r nbits bytes s)) .outBuf i =
      some ((convOut s.CFG.toCfg r s.conv.state (bitsOf bytes nbits)).getD i false) := by
  rw [← bitAt_pack]
  refine bit_writeBytes _ _ ?_
  rw [pack_length, convOut_length, bitsOf_length_of_ceilDiv hlen]
  exact hi.trans_le (ceilDiv_eight _).1

/-- Settles O32: the symbol of input bit `i` stands at `r*i` in the encoder's output. -/
theorem convOutputPositions : Obligations.ConvOutputPositions := by
  intro s t r nbits bytes hr hlen hin h hok i j hi hj
  obtain ⟨-, rfl⟩ := convEncode_ok hr hlen hin h hok
  have hbit : (bitsOf bytes nbits)[i]? = some (bitAt bytes i) := bitsOf_getElem? (hlen ▸ (ceilDiv_eight nbits).1) hi
  have hpos : convDenominator r * i + j < convDenominator r * nbits :=
    calc convDenominator r * i + j < convDenominator r * (i + 1) := Nat.add_lt_add_left hj _
      _ ≤ convDenominator r * nbits := Nat.mul_le_mul_left _ hi
  rw [convEncoded_bufferBit hlen hpos, List.getD_eq_getElem?_getD, convOut_getElem? _ r _ hbit hj, bitsOf_take _ hi.le,
    Option.getD_some]

/-! ## `CONV.ENCODE` twice -/

/-- Settles O33: the second `CONV.ENCODE` goes on from the end state of the first, so the outputs concatenate. -/
theorem twoEncodesEqualOne : Obligations.TwoEncodesEqualOne := by
  intro s t u v z t' r nx ny bx byy bz hr hbx hinx hx hokx hcfgu hconvu hbyy hiny hy hoky hcfgz hconvz hbz hbits hinz hz
    hokz
  obtain ⟨-, rfl⟩ := convEncode_ok hr hbx hinx hx hokx
  obtain ⟨-, rfl⟩ := convEncode_ok (congrArg ConvUnit.rate hconvu) hbyy hiny hy hoky
  obtain ⟨-, rfl⟩ := convEncode_ok (hconvz ▸ hr) hbz hinz hz hokz
  have hlenx : (convOut s.CFG.toCfg r s.conv.state (bitsOf bx nx)).length = convDenominator r * nx := by
    rw [convOut_length, bitsOf_length_of_ceilDiv hbx]
  refine ⟨?_, fun i hi => ?_, fun i hi => ?_⟩
  · simp only [hcfgz, hconvz, hbits, convEnd_append, hcfgu, hconvu]
  · have hi' : i < convDenominator r * (nx + ny) := by rw [Nat.mul_add]; omega
    rw [convEncoded_bufferBit hbz hi', convEncoded_bufferBit hbx hi, hcfgz, hconvz, hbits, convOut_append,
      List.getD_append _ _ _ _ (hlenx ▸ hi)]
  · have hi' : convDenominator r * nx + i < convDenominator r * (nx + ny) := by rw [Nat.mul_add]; omega
    rw [convEncoded_bufferBit hbz hi', convEncoded_bufferBit hbyy hi, hcfgz, hconvz, hbits, convOut_append,
      List.getD_append_right _ _ _ _ (by omega), hlenx, Nat.add_sub_cancel_left, hcfgu, hconvu]

/-- Settles O34: the first pass leaves `IN` and the rate, and the end state of a pass does not depend on its start. -/
theorem secondPassTailBites : Obligations.SecondPassTailBites := by
  intro s t r n bytes hr hw hlen hin h hok
  obtain ⟨hn, rfl⟩ := convEncode_ok hr hlen hin h hok
  have hend := convEnd_forgets_start (convStateBits_pos s.CFG.isWf r)
    (convEnd s.CFG.toCfg r s.conv.state (bitsOf bytes n)) s.conv.state (bits := bitsOf bytes n)
    (by rwa [bitsOf_length_of_ceilDiv hlen])
  refine ⟨_, convEncode_completes rfl hn hlen hin, rfl, congrArg (ConvUnit.mk (some r)) hend, fun i hi => ?_⟩
  rw [convEncoded_bufferBit hlen hi]
  simp only [hend]

end Sys2Proof.Machine
end

section
/-! Bit masks as polynomials over GF(2) (R14): the polynomial a mask stands for, its residue modulo another mask, and
`pmod` as the one mask of small degree with the same residue. -/

namespace Sys2Proof.Machine

open Polynomial

/-! ## The polynomial of a mask -/

/-- The polynomial over GF(2) that a mask stands for: bit `i` is the coefficient of `x^i` (R14). -/
noncomputable def gf2Poly (a : Nat) : (ZMod 2)[X] :=
  ∑ i ∈ Finset.range (deg a + 1), if a.testBit i then X ^ i else 0

theorem testBit_above_deg {a i : Nat} (h : deg a < i) : a.testBit i = false :=
  Nat.testBit_lt_two_pow (Nat.lt_of_lt_of_le Nat.lt_log2_self (Nat.pow_le_pow_right (by decide) h))

@[simp] theorem coeff_gf2Poly (a i : Nat) : (gf2Poly a).coeff i = if a.testBit i then 1 else 0 := by
  have hterm : ∀ j, (if a.testBit j then (X ^ j : (ZMod 2)[X]) else 0).coeff i =
      if i = j then (if a.testBit i then 1 else 0) else 0 := by
    intro j
    rw [apply_ite (coeff · i), coeff_X_pow, coeff_zero]
    by_cases h : i = j <;> simp [h]
  simp only [gf2Poly, finsetSum_coeff, hterm, Finset.sum_ite_eq, Finset.mem_range]
  by_cases h : i < deg a + 1
  · rw [if_pos h]
  · rw [if_neg h, testBit_above_deg (by omega), if_neg (by decide)]

@[simp] theorem gf2Poly_zero : gf2Poly 0 = 0 := by
  ext i
  simp

@[simp] theorem gf2Poly_xor (a b : Nat) : gf2Poly (a ^^^ b) = gf2Poly a + gf2Poly b := by
  ext i
  rw [coeff_add, coeff_gf2Poly, coeff_gf2Poly, coeff_gf2Poly, Nat.testBit_xor]
  cases a.testBit i <;> cases b.testBit i <;> decide

@[simp] theorem gf2Poly_two_pow (k : Nat) : gf2Poly (2 ^ k) = X ^ k := by
  ext i
  simp [coeff_X_pow, Nat.testBit_two_pow, eq_comm]

@[simp] theorem gf2Poly_one : gf2Poly 1 = 1 := by simpa using gf2Poly_two_pow 0

@[simp] theorem gf2Poly_shiftLeft (a k : Nat) : gf2Poly (a <<< k) = gf2Poly a * X ^ k := by
  ext i
  rw [coeff_mul_X_pow', coeff_gf2Poly, coeff_gf2Poly, Nat.testBit_shiftLeft]
  by_cases h : k ≤ i <;> simp [h]

theorem gf2Poly_injective : Function.Injective gf2Poly := by
  intro a b h
  refine Nat.eq_of_testBit_eq fun i => ?_
  have hcoeff := congrArg (coeff · i) h
  simp only [coeff_gf2Poly] at hcoeff
  revert hcoeff
  cases a.testBit i <;> cases b.testBit i <;> simp

@[simp] theorem gf2Poly_eq_zero_iff {a : Nat} : gf2Poly a = 0 ↔ a = 0 := gf2Poly_injective.eq_iff' gf2Poly_zero

/-- Every polynomial over GF(2) has a mask. -/
theorem gf2Poly_surjective : Function.Surjective gf2Poly := by
  intro p
  induction p using Polynomial.induction_on' with
  | add p q hp hq =>
    obtain ⟨a, rfl⟩ := hp
    obtain ⟨b, rfl⟩ := hq
    exact ⟨a ^^^ b, gf2Poly_xor a b⟩
  | monomial k c =>
    obtain rfl | rfl : c = 0 ∨ c = 1 := by revert c; decide
    · exact ⟨0, by simp⟩
    · exact ⟨2 ^ k, by rw [gf2Poly_two_pow, X_pow_eq_monomial]⟩

theorem degree_gf2Poly_lt {a d : Nat} (h : a < 2 ^ d) : (gf2Poly a).degree < d := by
  refine (degree_lt_iff_coeff_zero _ _).mpr fun i hi => ?_
  rw [coeff_gf2Poly, Nat.testBit_lt_two_pow (Nat.lt_of_lt_of_le h (Nat.pow_le_pow_right (by decide) hi)),
    if_neg (by decide)]

theorem ne_zero_of_testBit {a i : Nat} (h : a.testBit i = true) : a ≠ 0 := by
  rintro rfl
  simp at h

theorem testBit_deg {a : Nat} (h : a ≠ 0) : a.testBit (deg a) = true := Nat.testBit_log2 h

theorem le_degree_gf2Poly {g : Nat} (hg : g ≠ 0) : (deg g : WithBot ℕ) ≤ (gf2Poly g).degree :=
  le_degree_of_ne_zero (by rw [coeff_gf2Poly, if_pos (testBit_deg hg)]; exact one_ne_zero)

/-! ## Residues -/

/-- The class of the polynomial of `a` modulo that of `g`. -/
noncomputable def residue (g a : Nat) : AdjoinRoot (gf2Poly g) := AdjoinRoot.mk (gf2Poly g) (gf2Poly a)

@[simp] theorem residue_zero (g : Nat) : residue g 0 = 0 := by simp [residue]

@[simp] theorem residue_one (g : Nat) : residue g 1 = 1 := by simp [residue]

@[simp] theorem residue_xor (g a b : Nat) : residue g (a ^^^ b) = residue g a + residue g b := by simp [residue]

@[simp] theorem residue_shiftLeft (g a k : Nat) :
    residue g (a <<< k) = residue g a * AdjoinRoot.root (gf2Poly g) ^ k := by simp [residue]

@[simp] theorem residue_two_pow (g k : Nat) : residue g (2 ^ k) = AdjoinRoot.root (gf2Poly g) ^ k := by simp [residue]

@[simp] theorem residue_self (g : Nat) : residue g g = 0 := AdjoinRoot.mk_self

theorem residue_eq_zero_iff {g a : Nat} : residue g a = 0 ↔ gf2Poly g ∣ gf2Poly a := AdjoinRoot.mk_eq_zero

/-- Masks below the degree of `g` with equal residues are equal. -/
theorem eq_of_residue_eq {g a b : Nat} (hg : g ≠ 0) (ha : a < 2 ^ deg g) (hb : b < 2 ^ deg g)
    (h : residue g a = residue g b) : a = b := by
  have hdvd : gf2Poly g ∣ gf2Poly (a ^^^ b) := by
    rw [gf2Poly_xor, ← CharTwo.sub_eq_add]
    exact AdjoinRoot.mk_eq_mk.mp h
  have hdeg : (gf2Poly (a ^^^ b)).degree < (gf2Poly g).degree :=
    (degree_gf2Poly_lt (Nat.xor_lt_two_pow ha hb)).trans_le (le_degree_gf2Poly hg)
  exact Nat.xor_eq_zero_iff.mp (gf2Poly_eq_zero_iff.mp (eq_zero_of_dvd_of_degree_lt hdvd hdeg))

/-! ## `pmod` -/

/-- Masks that agree in bit `d` cancel there. -/
theorem xor_lt_of_top {a b d : Nat} (ha : a < 2 ^ (d + 1)) (hb : b < 2 ^ (d + 1)) (hbit : a.testBit d = b.testBit d) :
    a ^^^ b < 2 ^ d := by
  refine Nat.lt_pow_two_of_testBit _ fun i hi => ?_
  obtain rfl | hi := Nat.eq_or_lt_of_le hi
  · rw [Nat.testBit_xor, hbit, Bool.xor_self]
  · exact Nat.testBit_lt_two_pow ((Nat.xor_lt_two_pow ha hb).trans_le (Nat.pow_le_pow_right (by decide) hi))

theorem lt_two_pow_deg_succ (a : Nat) : a < 2 ^ (deg a + 1) := Nat.lt_log2_self

/-- A shifted mask is below the power of two above its new degree. -/
theorem shiftLeft_lt {a d k : Nat} (h : a < 2 ^ d) : a <<< k < 2 ^ (d + k) := by
  rw [Nat.shiftLeft_eq, Nat.pow_add]
  exact Nat.mul_lt_mul_of_pos_right h (Nat.two_pow_pos k)

/-- One round of the division clears the top bit (R14). -/
theorem xor_shifted_lt {a g : Nat} (ha : a ≠ 0) (hg : g ≠ 0) (h : deg g ≤ deg a) :
    a ^^^ (g <<< (deg a - deg g)) < 2 ^ deg a := by
  refine xor_lt_of_top (lt_two_pow_deg_succ a) ?_ ?_
  · have := shiftLeft_lt (k := deg a - deg g) (lt_two_pow_deg_succ g)
    rwa [show deg g + 1 + (deg a - deg g) = deg a + 1 by omega] at this
  · rw [testBit_deg ha, Nat.testBit_shiftLeft, Nat.sub_sub_self h, testBit_deg hg, decide_eq_true (Nat.sub_le _ _),
      Bool.and_self]

theorem residue_pmodLoop (g fuel a : Nat) : residue g (pmodLoop g fuel a) = residue g a := by
  induction fuel generalizing a with
  | zero => rfl
  | succ fuel ih =>
    rw [pmodLoop]
    split
    · rfl
    · simp [ih]

/-- Enough rounds end below the degree of `g` (R14, log 15). -/
theorem pmodLoop_lt {g fuel a : Nat} (hg : g ≠ 0) (h : a < 2 ^ fuel) : pmodLoop g fuel a < 2 ^ deg g := by
  induction fuel generalizing a with
  | zero =>
    have := Nat.two_pow_pos (deg g)
    rw [pmodLoop]
    omega
  | succ fuel ih =>
    rw [pmodLoop]
    split
    · rename_i hend
      obtain rfl | hlt := hend
      · exact Nat.two_pow_pos _
      · exact (lt_two_pow_deg_succ a).trans_le (Nat.pow_le_pow_right (by decide) hlt)
    · rename_i hgo
      obtain ⟨ha, hdeg⟩ := not_or.mp hgo
      refine ih ((xor_shifted_lt ha hg (by omega)).trans_le (Nat.pow_le_pow_right (by decide) ?_))
      exact Nat.lt_succ_iff.mp ((Nat.log2_lt ha).mpr h)

@[simp] theorem residue_pmod (g a : Nat) : residue g (pmod a g) = residue g a := residue_pmodLoop _ _ _

theorem pmod_lt {g : Nat} (hg : g ≠ 0) (a : Nat) : pmod a g < 2 ^ deg g := pmodLoop_lt hg (lt_two_pow_deg_succ a)

/-- `pmod` is the one mask below the degree of `g` with the residue of `a`. -/
theorem pmod_unique {g a r : Nat} (hg : g ≠ 0) (hr : r < 2 ^ deg g) (h : residue g a = residue g r) : pmod a g = r :=
  eq_of_residue_eq hg (pmod_lt hg a) hr ((residue_pmod g a).trans h)

theorem pmod_xor {g : Nat} (hg : g ≠ 0) (a b : Nat) : pmod (a ^^^ b) g = pmod a g ^^^ pmod b g :=
  pmod_unique hg (Nat.xor_lt_two_pow (pmod_lt hg a) (pmod_lt hg b)) (by simp)

theorem pmod_of_lt {g a : Nat} (hg : g ≠ 0) (h : a < 2 ^ deg g) : pmod a g = a := pmod_unique hg h rfl

theorem pmod_eq_zero_iff {g a : Nat} (hg : g ≠ 0) : pmod a g = 0 ↔ residue g a = 0 := by
  constructor
  · intro h
    rw [← residue_pmod, h, residue_zero]
  · intro h
    exact pmod_unique hg (Nat.two_pow_pos _) (by rw [h, residue_zero])

end Sys2Proof.Machine
end

section
/-! Systematic encoding (R130): the division bit by bit (R131), the laws of the code (R133), and `BCH.ENCODE`. -/

namespace Sys2Proof.Machine

open Polynomial

/-! ## The division bit by bit (R131) -/

theorem residue_divideFrom (g top count r : Nat) : residue g (divideFrom g top count r) = residue g r := by
  induction count generalizing r with
  | zero => rfl
  | succ count ih =>
    rw [divideFrom, ih]
    split <;> simp

/-- Each round clears its bit, so what is left is below `2^top`. -/
theorem divideFrom_lt {g top : Nat} (hg : g ≠ 0) (hdeg : deg g = top) {count r : Nat} (hr : r < 2 ^ (top + count)) :
    divideFrom g top count r < 2 ^ top := by
  induction count generalizing r with
  | zero => exact hr
  | succ count ih =>
    refine ih ?_
    split
    · rename_i hbit
      refine xor_lt_of_top hr ?_ ?_
      · have := shiftLeft_lt (k := count) (lt_two_pow_deg_succ g)
        rwa [hdeg, Nat.add_right_comm] at this
      · rw [hbit, Nat.testBit_shiftLeft, Nat.add_sub_cancel, ← hdeg, testBit_deg hg]
        simp
    · rename_i hbit
      simpa using xor_lt_of_top hr (Nat.two_pow_pos _) (by simpa using hbit)

/-- Settles O37: both divisions keep the residue and end below the degree of `g`, where it has one mask only. -/
theorem divisionBitByBit : Obligations.DivisionBitByBit := by
  intro n k g d _ hg hdeg hd
  have hr : d <<< (n - k) < 2 ^ (n - k + k) := by
    rw [Nat.add_comm]
    exact shiftLeft_lt hd
  refine ⟨(pmod_unique hg ?_ (residue_divideFrom _ _ _ _).symm).symm, ?_⟩
  · rw [hdeg]
    exact divideFrom_lt hg hdeg hr
  · rw [← hdeg]
    exact pmod_lt hg _

/-! ## Parity is the value at 1 -/

/-- `parity` in GF(2) is the value of the polynomial at 1. -/
theorem parity_eq_eval_one (v : Nat) : ((parity v).toNat : ZMod 2) = (gf2Poly v).eval 1 := by
  have hfold : ∀ n, (((List.range n).foldl (fun p i => p ^^ v.testBit i) false).toNat : ZMod 2) =
      ∑ i ∈ Finset.range n, if v.testBit i then 1 else 0 := by
    intro n
    induction n with
    | zero => simp
    | succ n ih =>
      rw [Finset.sum_range_succ, ← ih, List.range_succ, List.foldl_append, List.foldl_cons, List.foldl_nil]
      cases (List.range n).foldl (fun p i => p ^^ v.testBit i) false <;> cases v.testBit n <;> decide
  rw [parity, hfold, gf2Poly, eval_finsetSum]
  refine Finset.sum_congr rfl fun i _ => ?_
  split <;> simp

/-- Two bits with one value in GF(2) are equal. -/
theorem bool_eq_of_natCast_eq {b c : Bool} (h : (b.toNat : ZMod 2) = c.toNat) : b = c := by
  revert b c
  decide

theorem parity_xor (a b : Nat) : parity (a ^^^ b) = (parity a ^^ parity b) := by
  refine bool_eq_of_natCast_eq ?_
  have hsum : ∀ p q : Bool, ((p ^^ q).toNat : ZMod 2) = p.toNat + q.toNat := by decide
  rw [hsum, parity_eq_eval_one, parity_eq_eval_one, parity_eq_eval_one, gf2Poly_xor, eval_add]

theorem parity_shiftLeft (a k : Nat) : parity (a <<< k) = parity a :=
  bool_eq_of_natCast_eq (by simp [parity_eq_eval_one])

theorem parity_toNat (b : Bool) : parity b.toNat = b := by cases b <;> rfl

/-! ## The codeword and its parity bit -/

/-- A shifted mask and one below it share no bit. -/
theorem shiftLeft_or_eq_xor (a : Nat) {b k : Nat} (h : b < 2 ^ k) : a <<< k ||| b = a <<< k ^^^ b := by
  refine Nat.eq_of_testBit_eq fun i => ?_
  rw [Nat.testBit_or, Nat.testBit_xor, Nat.testBit_shiftLeft]
  by_cases hi : k ≤ i
  · rw [Nat.testBit_lt_two_pow (h.trans_le (Nat.pow_le_pow_right (by decide) hi)), Bool.or_false, Bool.xor_false]
  · simp [hi]

theorem bool_toNat_lt (b : Bool) : b.toNat < 2 ^ 1 := Bool.toNat_lt b

/-- `E(d)`: the codeword of the low `k` bits, shifted, with its parity below (R130). -/
theorem bchEncode_eq_xor (n k g d : Nat) : bchEncode n k g d =
    bchCodeword n k g (d % 2 ^ k) <<< 1 ^^^ (parity (bchCodeword n k g (d % 2 ^ k))).toNat := by
  rw [← shiftLeft_or_eq_xor _ (bool_toNat_lt _), bchEncode, Nat.and_two_pow_sub_one_eq_mod]

theorem bchEncode_eq_add (n k g d : Nat) : bchEncode n k g d =
    bchCodeword n k g (d % 2 ^ k) * 2 + (parity (bchCodeword n k g (d % 2 ^ k))).toNat := by
  rw [bchEncode_eq_xor, ← shiftLeft_or_eq_xor _ (bool_toNat_lt _), shiftLeft_or_eq_add _ (bool_toNat_lt _), pow_one]

@[simp] theorem bchEncode_shiftRight_one (n k g d : Nat) : bchEncode n k g d >>> 1 = bchCodeword n k g (d % 2 ^ k) := by
  have := Bool.toNat_lt (parity (bchCodeword n k g (d % 2 ^ k)))
  rw [bchEncode_eq_add, Nat.shiftRight_eq_div_pow]
  omega

theorem bchEncode_mod_two (n k g d : Nat) :
    bchEncode n k g d % 2 = (parity (bchCodeword n k g (d % 2 ^ k))).toNat := by
  have := Bool.toNat_lt (parity (bchCodeword n k g (d % 2 ^ k)))
  rw [bchEncode_eq_add]
  omega

/-- The parity bit makes the whole word even (R133 (d)). -/
theorem parity_bchEncode (n k g d : Nat) : parity (bchEncode n k g d) = false := by
  rw [bchEncode_eq_xor, parity_xor, parity_shiftLeft, parity_toNat, Bool.xor_self]

section
variable {n k g : Nat} (hg : g ≠ 0) (hdeg : deg g = n - k)

include hg

theorem bchCheck_xor (d d' : Nat) : bchCheck n k g (d ^^^ d') = bchCheck n k g d ^^^ bchCheck n k g d' := by
  rw [bchCheck, Nat.shiftLeft_xor_distrib, pmod_xor hg]
  rfl

include hdeg

theorem bchCheck_lt (d : Nat) : bchCheck n k g d < 2 ^ (n - k) := hdeg ▸ pmod_lt hg _

theorem bchCodeword_eq_xor (d : Nat) : bchCodeword n k g d = d <<< (n - k) ^^^ bchCheck n k g d :=
  shiftLeft_or_eq_xor d (bchCheck_lt hg hdeg d)

theorem bchCodeword_eq_add (d : Nat) : bchCodeword n k g d = d * 2 ^ (n - k) + bchCheck n k g d :=
  shiftLeft_or_eq_add d (bchCheck_lt hg hdeg d)

theorem bchCodeword_shiftRight (d : Nat) : bchCodeword n k g d >>> (n - k) = d := by
  rw [bchCodeword_eq_add hg hdeg, Nat.shiftRight_eq_div_pow, Nat.mul_comm, Nat.mul_add_div (Nat.two_pow_pos _),
    Nat.div_eq_of_lt (bchCheck_lt hg hdeg d), Nat.add_zero]

theorem bchCodeword_mod (d : Nat) : bchCodeword n k g d % 2 ^ (n - k) = bchCheck n k g d := by
  rw [bchCodeword_eq_add hg hdeg, Nat.mul_add_mod', Nat.mod_eq_of_lt (bchCheck_lt hg hdeg d)]

theorem bchCodeword_lt (hkn : k ≤ n) {d : Nat} (hd : d < 2 ^ k) : bchCodeword n k g d < 2 ^ n := by
  have hcheck := (bchCheck_lt hg hdeg d).trans_le (Nat.pow_le_pow_right (by decide) (Nat.sub_le n k))
  have hdata := shiftLeft_lt (k := n - k) hd
  rw [Nat.add_sub_cancel' hkn] at hdata
  exact Nat.or_lt_two_pow hdata hcheck

/-- The check bits are what the data leave modulo the generator, so the codeword leaves 0 (R133 (c)). -/
theorem pmod_bchCodeword (d : Nat) : pmod (bchCodeword n k g d) g = 0 := by
  have hcheck : pmod (bchCheck n k g d) g = bchCheck n k g d := pmod_of_lt hg (pmod_lt hg _)
  rw [bchCodeword_eq_xor hg hdeg, pmod_xor hg, hcheck, bchCheck, Nat.xor_self]

theorem bchCodeword_xor (d d' : Nat) :
    bchCodeword n k g (d ^^^ d') = bchCodeword n k g d ^^^ bchCodeword n k g d' := by
  simp only [bchCodeword_eq_xor hg hdeg, bchCheck_xor hg, Nat.shiftLeft_xor_distrib]
  ac_rfl

theorem bchEncode_lt (hkn : k ≤ n) (d : Nat) : bchEncode n k g d < 2 ^ (n + 1) := by
  have hword := bchCodeword_lt hg hdeg hkn (Nat.mod_lt d (Nat.two_pow_pos k))
  have hparity := Bool.toNat_lt (parity (bchCodeword n k g (d % 2 ^ k)))
  rw [bchEncode_eq_add, Nat.pow_succ]
  omega

/-- The data bits stand on top (R133 (b)). -/
theorem bchEncode_shiftRight (d : Nat) : bchEncode n k g d >>> (n - k + 1) = d % 2 ^ k := by
  rw [Nat.add_comm, Nat.shiftRight_add, bchEncode_shiftRight_one, bchCodeword_shiftRight hg hdeg]

/-- The code is linear (R133 (a)). -/
theorem bchEncode_xor (d d' : Nat) : bchEncode n k g (d ^^^ d') = bchEncode n k g d ^^^ bchEncode n k g d' := by
  have htoNat : ∀ p q : Bool, (p ^^ q).toNat = p.toNat ^^^ q.toNat := by decide
  simp only [bchEncode_eq_xor, Nat.xor_mod_two_pow, bchCodeword_xor hg hdeg,
    parity_xor, htoNat, Nat.shiftLeft_xor_distrib]
  ac_rfl

end

/-! ## A flipped data bit (R133 (e)) -/

/-- A generator with constant term 1 and positive degree divides no power of `x`. -/
theorem residue_two_pow_ne_zero {g : Nat} (hbit : g.testBit 0 = true) (hdeg : 1 ≤ deg g) (e : Nat) :
    residue g (2 ^ e) ≠ 0 := by
  have hg : g ≠ 0 := ne_zero_of_testBit hbit
  have hsplit : g = (g / 2) <<< 1 ^^^ 1 := by
    rw [← shiftLeft_or_eq_xor _ (by decide), shiftLeft_or_eq_add _ (by decide)]
    rw [Nat.testBit_zero, decide_eq_true_eq] at hbit
    omega
  have hunit : IsUnit (AdjoinRoot.root (gf2Poly g)) := by
    refine IsUnit.of_mul_eq_one (-residue g (g / 2)) ?_
    have hself := residue_self g
    nth_rw 3 [hsplit] at hself
    rw [residue_xor, residue_shiftLeft, residue_one, pow_one] at hself
    linear_combination -hself
  rw [residue_two_pow]
  intro hzero
  have hone : residue g 1 = residue g 0 := by
    rw [residue_one, residue_zero, ← isUnit_zero_iff.mp (hzero ▸ hunit.pow e)]
  have hpos : 1 < 2 ^ deg g := Nat.one_lt_two_pow (by omega)
  exact absurd (eq_of_residue_eq hg hpos (Nat.two_pow_pos _) hone) (by decide)

/-- One data bit alone has a check bit (R133 (e)). -/
theorem bchCheck_two_pow_ne_zero {n k g : Nat} (hbit : g.testBit 0 = true) (hdeg : deg g = n - k) (hkn : k < n)
    (i : Nat) : bchCheck n k g (2 ^ i) ≠ 0 := by
  have hg : g ≠ 0 := ne_zero_of_testBit hbit
  rw [bchCheck, Nat.shiftLeft_eq, ← Nat.pow_add, Ne, pmod_eq_zero_iff hg]
  exact residue_two_pow_ne_zero hbit (by omega) _

/-! ## What is claimed -/

theorem BchCodeOk.gen_ne_zero {b : BchUnit} (h : BchCodeOk b) : b.gen ≠ 0 := ne_zero_of_testBit h.gen_zero

/-- Settles O38: the code is linear because `pmod` is, and a power of `x` is no multiple of the generator. -/
theorem bchCodeLaws : Obligations.BchCodeLaws := by
  intro b hb
  have hg := hb.gen_ne_zero
  have hlin := bchEncode_xor hg hb.gen_deg
  refine ⟨?_, hlin, bchEncode_shiftRight hg hb.gen_deg, fun d => ?_, parity_bchEncode _ _ _, fun i d hi => ?_⟩
  · simpa using hlin 0 0
  · rw [bchEncode_shiftRight_one, pmod_bchCodeword hg hb.gen_deg]
  · have hpow : 2 ^ i % 2 ^ b.k = 2 ^ i := Nat.mod_eq_of_lt (Nat.pow_lt_pow_right (by decide) hi)
    rw [bchEncode_shiftRight_one, bchEncode_shiftRight_one, bchCodeword_mod hg hb.gen_deg,
      bchCodeword_mod hg hb.gen_deg, Nat.xor_mod_two_pow, hpow, bchCheck_xor hg]
    intro heq
    exact bchCheck_two_pow_ne_zero hb.gen_zero hb.gen_deg hb.k_lt_n i
      (Nat.xor_right_injective (heq.symm.trans (Nat.xor_zero _).symm))

/-- Settles O36: the codeword and its parity bit have `n + 1 ≤ 32` bits, so `RES[0]` holds them whole. -/
theorem bchEncodeCompletes : Obligations.BchEncodeCompletes := by
  intro s dataword hvalid hok
  have hb := hok hvalid
  have hg := hb.gen_ne_zero
  have hlt := bchEncode_lt hg hb.gen_deg hb.k_lt_n.le dataword.toNat
  have hres : (toWord (bchEncode s.bch.n s.bch.k s.bch.gen dataword.toNat)).toNat = _ :=
    toWord_toNat (hlt.trans_le (Nat.pow_le_pow_right (by decide) (Nat.succ_le_succ hb.n_le)))
  have hhalf : bchEncode s.bch.n s.bch.k s.bch.gen dataword.toNat / 2 = _ :=
    bchEncode_shiftRight_one s.bch.n s.bch.k s.bch.gen dataword.toNat
  refine ⟨_, if_pos hvalid, rfl, ?_⟩
  simp only [hres, hhalf]
  refine ⟨hlt, ?_, ?_, bchEncode_mod_two _ _ _ _⟩
  · rw [← Nat.shiftRight_eq_div_pow, bchEncode_shiftRight hg hb.gen_deg]
  · rw [bchCodeword_mod hg hb.gen_deg, bchCheck, Nat.shiftLeft_eq]

end Sys2Proof.Machine
end

section
/-! The field of a primitive polynomial (R121) and the generator with the roots of R123. The field is GF(2)[x] modulo
the polynomial, `alpha` the class of `x`; the model's tables and its product are the field's, so the list of R123's
coefficients is a product of factors `x - alpha^z`. Squaring permutes the factors, so the coefficients are 0 or 1. -/

namespace Sys2Proof.Machine

open Polynomial

/-! ## The powers of `alpha` in the field -/

/-- `alpha`, the class of `x` modulo the field polynomial (R121). -/
noncomputable abbrev alpha (poly : Nat) : AdjoinRoot (gf2Poly poly) := AdjoinRoot.root (gf2Poly poly)

theorem residue_alphaStep (m poly v : Nat) : residue poly (alphaStep m poly v) = residue poly v * alpha poly := by
  unfold alphaStep
  split <;> simp

theorem residue_alphaLeft (m poly i v : Nat) :
    residue poly (alphaLeft m poly i v) = residue poly v * alpha poly ^ i := by
  induction i generalizing v with
  | zero => simp [alphaLeft]
  | succ i ih => rw [alphaLeft, ih, residue_alphaStep, pow_succ', mul_assoc]

/-- `poly` passes the test of R121 for the field of `n + 1 = 2^m` elements. -/
structure FieldPoly (poly n : Nat) : Prop where
  two_le    : 2 ≤ poly
  length_eq : n = 2 ^ deg poly - 1
  primitive : primitive (deg poly) poly n = true

/-- The table of the powers of `alpha` (R121). -/
abbrev powers (poly n : Nat) : List Nat := alphaTable (deg poly) poly n

/-- Multiplication through the tables (R121). -/
abbrev fieldMul (poly n : Nat) : Nat → Nat → Nat := gfMul (powers poly n) (indexTable (powers poly n) n) n

/-- A table entry is that power of `alpha` in the field. -/
theorem residue_powers (poly : Nat) {n i : Nat} (hi : i < n) :
    residue poly ((powers poly n).getD i 0) = alpha poly ^ i := by
  rw [alphaTable_getD _ _ hi, residue_alphaLeft, residue_one, one_mul]

namespace FieldPoly

variable {poly n : Nat} (hp : FieldPoly poly n)

include hp

theorem ne_zero : poly ≠ 0 := by
  have := hp.two_le
  omega

theorem pow_deg_le : 2 ^ deg poly ≤ poly := Nat.log2_self_le hp.ne_zero

theorem deg_pos : 1 ≤ deg poly := (Nat.le_log2 hp.ne_zero).mpr hp.two_le

theorem length_lt : n < 2 ^ deg poly := by
  have := hp.length_eq
  have := Nat.two_pow_pos (deg poly)
  omega

theorem length_pos : 0 < n := by
  have := hp.length_eq
  have := Nat.one_lt_two_pow (n := deg poly) (by have := hp.deg_pos; omega)
  omega

theorem lt_iff {v : Nat} : v < 2 ^ deg poly ↔ v ≤ n := by
  have := hp.length_eq
  have := hp.length_lt
  omega

theorem one_lt : 1 < 2 ^ deg poly := hp.lt_iff.mpr hp.length_pos

/-- Residues tell elements of the field apart. -/
theorem residue_inj {a b : Nat} (ha : a < 2 ^ deg poly) (hb : b < 2 ^ deg poly) :
    residue poly a = residue poly b ↔ a = b :=
  ⟨eq_of_residue_eq hp.ne_zero ha hb, congrArg _⟩

theorem powers_getD_lt (i : Nat) : (powers poly n).getD i 0 < 2 ^ deg poly := by
  by_cases hi : i < n
  · rw [alphaTable_getD _ _ hi]
    exact alphaLeft_lt hp.pow_deg_le (lt_two_pow_deg_succ poly) i hp.one_lt
  · rw [List.getD_eq_default _ _ (by simpa using hi)]
    exact Nat.two_pow_pos _

theorem powers_getD_ne_zero {i : Nat} (hi : i < n) : (powers poly n).getD i 0 ≠ 0 := by
  rw [alphaTable_getD _ _ hi]
  exact alphaLeft_ne_zero hp.primitive hi.le

/-- A table entry is what `x^i` leaves modulo the field polynomial (R121). -/
theorem powers_getElem? {i : Nat} (hi : i < n) : (powers poly n)[i]? = some (pmod (2 ^ i) poly) := by
  have hentry : pmod (2 ^ i) poly = (powers poly n).getD i 0 :=
    pmod_unique hp.ne_zero (hp.powers_getD_lt i) (by rw [residue_two_pow, residue_powers poly hi])
  rw [hentry, alphaTable_getD _ _ hi]
  exact alphaPowers_getElem? _ _ n 1 i hi

/-- Every nonzero element stands in the table: `n` distinct ones do, and there are no more. -/
theorem mem_powers {v : Nat} (h1 : 1 ≤ v) (hv : v ≤ n) : v ∈ powers poly n := by
  have hrange : powers poly n ⊆ List.range' 1 n := by
    intro x hx
    obtain ⟨i, hi, rfl⟩ := List.mem_iff_getElem.mp hx
    rw [alphaTable_length] at hi
    have hne := hp.powers_getD_ne_zero hi
    have hle := hp.lt_iff.mp (hp.powers_getD_lt i)
    rw [List.getD_eq_getElem _ _ (by simpa using hi)] at hne hle
    rw [List.mem_range'_1]
    omega
  have hperm := ((alphaTable_nodup hp.primitive).subperm hrange).perm_of_length_le (by simp)
  exact hperm.mem_iff.mpr (List.mem_range'_1.mpr (by omega))

/-- `indexOf` gives the exponent of every nonzero element (R121). -/
theorem powers_indexTable {v d : Nat} (h1 : 1 ≤ v) (hv : v ≤ n) :
    (powers poly n).getD ((indexTable (powers poly n) n).getD (v - 1) d) 0 = v := by
  have hindex : (indexTable (powers poly n) n).getD (v - 1) d = (powers poly n).idxOf v := by
    rw [indexTable, List.getD_eq_getElem _ _ (by rw [List.length_map, List.length_range]; omega), List.getElem_map,
      List.getElem_range, Nat.sub_add_cancel h1]
  rw [hindex, List.getD_eq_getElem _ _ (List.idxOf_lt_length_iff.mpr (hp.mem_powers h1 hv)), List.getElem_idxOf]

theorem exists_powers_eq {v : Nat} (h1 : 1 ≤ v) (hv : v ≤ n) : ∃ i, i < n ∧ (powers poly n).getD i 0 = v := by
  obtain ⟨i, hi, rfl⟩ := List.mem_iff_getElem.mp (hp.mem_powers h1 hv)
  exact ⟨i, by simpa using hi, List.getD_eq_getElem _ _ hi⟩

/-! ## The field -/

/-- The powers of `alpha` come back to 1 (R121). -/
theorem alpha_pow_length : alpha poly ^ n = 1 := by
  have hprim := hp.primitive
  simp only [Machine.primitive, Bool.and_eq_true, beq_iff_eq] at hprim
  have hback := residue_alphaLeft (deg poly) poly n 1
  rw [hprim.2, residue_one, one_mul] at hback
  exact hback.symm

theorem alpha_pow_mod (i : Nat) : alpha poly ^ (i % n) = alpha poly ^ i := by
  conv_rhs => rw [← Nat.div_add_mod i n, pow_add, pow_mul, hp.alpha_pow_length, one_pow, one_mul]

/-- The first `n` powers of `alpha` are distinct. -/
theorem alpha_pow_inj {i j : Nat} (hi : i < n) (hj : j < n) (h : alpha poly ^ i = alpha poly ^ j) : i = j := by
  rw [← residue_powers poly hi, ← residue_powers poly hj,
    hp.residue_inj (hp.powers_getD_lt i) (hp.powers_getD_lt j)] at h
  rw [List.getD_eq_getElem _ _ (by simpa using hi), List.getD_eq_getElem _ _ (by simpa using hj)] at h
  exact (alphaTable_nodup hp.primitive).getElem_inj_iff.mp h

theorem nontrivial : Nontrivial (AdjoinRoot (gf2Poly poly)) := by
  refine ⟨1, 0, fun h => ?_⟩
  rw [← residue_one, ← residue_zero, hp.residue_inj hp.one_lt (Nat.two_pow_pos _)] at h
  cases h

theorem charP : CharP (AdjoinRoot (gf2Poly poly)) 2 :=
  have := hp.nontrivial
  charP_of_injective_algebraMap (algebraMap (ZMod 2) _).injective 2

/-- Every nonzero element is a power of `alpha`. -/
theorem exists_alpha_pow {x : AdjoinRoot (gf2Poly poly)} (hx : x ≠ 0) : ∃ i, x = alpha poly ^ i := by
  obtain ⟨p, rfl⟩ := AdjoinRoot.mk_surjective x
  obtain ⟨a, rfl⟩ := gf2Poly_surjective p
  have hpmod : residue poly (pmod a poly) = AdjoinRoot.mk (gf2Poly poly) (gf2Poly a) := residue_pmod poly a
  have hne : pmod a poly ≠ 0 := by
    intro hzero
    rw [hzero, residue_zero] at hpmod
    exact hx hpmod.symm
  obtain ⟨i, hi, hval⟩ := hp.exists_powers_eq (Nat.pos_of_ne_zero hne) (hp.lt_iff.mp (pmod_lt hp.ne_zero a))
  exact ⟨i, by rw [← hpmod, ← hval, residue_powers poly hi]⟩

/-- The residues have no zero divisors: a product of powers of `alpha` is one. -/
theorem isDomain : IsDomain (AdjoinRoot (gf2Poly poly)) := by
  have := hp.nontrivial
  have hunit : IsUnit (alpha poly) := IsUnit.of_pow_eq_one hp.alpha_pow_length hp.length_pos.ne'
  have : NoZeroDivisors (AdjoinRoot (gf2Poly poly)) := by
    refine ⟨fun {x y} hxy => ?_⟩
    by_contra hne
    obtain ⟨hx, hy⟩ := not_or.mp hne
    obtain ⟨i, rfl⟩ := hp.exists_alpha_pow hx
    obtain ⟨j, rfl⟩ := hp.exists_alpha_pow hy
    rw [← pow_add] at hxy
    exact (hunit.pow (i + j)).ne_zero hxy
  exact NoZeroDivisors.to_isDomain _

/-- The product through the tables is the product in the field (R121). -/
theorem residue_fieldMul {a b : Nat} (ha : a < 2 ^ deg poly) (hb : b < 2 ^ deg poly) :
    residue poly (fieldMul poly n a b) = residue poly a * residue poly b := by
  by_cases hzero : a = 0 ∨ b = 0
  · rw [fieldMul, gfMul, if_pos hzero, residue_zero]
    obtain rfl | rfl := hzero <;> simp
  · obtain ⟨ha0, hb0⟩ := not_or.mp hzero
    obtain ⟨i, hi, rfl⟩ := hp.exists_powers_eq (Nat.pos_of_ne_zero ha0) (hp.lt_iff.mp ha)
    obtain ⟨j, hj, rfl⟩ := hp.exists_powers_eq (Nat.pos_of_ne_zero hb0) (hp.lt_iff.mp hb)
    rw [fieldMul, gfMul_alpha hp.primitive hp.pow_deg_le (lt_two_pow_deg_succ poly) hp.length_eq hp.deg_pos hi hj,
      residue_powers poly (Nat.mod_lt _ hp.length_pos), residue_powers poly hi, residue_powers poly hj,
      hp.alpha_pow_mod, pow_add]

theorem fieldMul_lt (a b : Nat) : fieldMul poly n a b < 2 ^ deg poly := by
  rw [fieldMul, gfMul]
  split
  · exact Nat.two_pow_pos _
  · exact hp.powers_getD_lt _

end FieldPoly

/-! ## Lists of field elements as polynomials -/

/-- The polynomial over the field with the coefficients of a list, from the constant upwards (R123). -/
noncomputable def listPoly (poly : Nat) : List Nat → (AdjoinRoot (gf2Poly poly))[X]
  | [] => 0
  | p :: ps => C (residue poly p) + X * listPoly poly ps

theorem coeff_listPoly (poly : Nat) (ps : List Nat) (i : Nat) :
    (listPoly poly ps).coeff i = residue poly (ps.getD i 0) := by
  induction ps generalizing i with
  | nil => simp [listPoly]
  | cons p ps ih =>
    cases i with
    | zero => simp [listPoly]
    | succ i => simp [listPoly, coeff_C_succ, ih]

theorem coeffMask_testBit (ps : List Nat) (i : Nat) : (coeffMask ps).testBit i = decide (ps.getD i 0 = 1) := by
  induction ps generalizing i with
  | nil => simp [coeffMask]
  | cons p ps ih =>
    have hbit : (if p = 1 then 1 else 0) = (decide (p = 1)).toNat := by
      by_cases h : p = 1 <;> simp [h]
    rw [coeffMask, hbit, Nat.add_comm]
    cases i with
    | zero =>
      rw [Nat.testBit_zero, Nat.mul_add_mod, List.getD_cons_zero]
      cases decide (p = 1) <;> rfl
    | succ i =>
      rw [Nat.testBit_succ, show (2 * coeffMask ps + (decide (p = 1)).toNat) / 2 = coeffMask ps by
        have := Bool.toNat_lt (decide (p = 1)); omega, ih]
      rfl

/-- A list of 0 and 1 is the polynomial of its mask. -/
theorem map_gf2Poly_coeffMask {poly : Nat} {ps : List Nat} (h : ∀ i, ps.getD i 0 = 0 ∨ ps.getD i 0 = 1) :
    (gf2Poly (coeffMask ps)).map (AdjoinRoot.of (gf2Poly poly)) = listPoly poly ps := by
  ext i
  rw [coeff_map, coeff_gf2Poly, coeffMask_testBit, coeff_listPoly]
  obtain hi | hi := h i
  · rw [hi, residue_zero]
    exact map_zero _
  · rw [hi, residue_one]
    exact map_one _

/-! ## The generator as a product (R123) -/

/-- `valueAtPower` is the value at `alpha^z`. -/
theorem residue_valueAtPower (poly g z : Nat) :
    residue poly (valueAtPower poly g z) = ((gf2Poly g).map (AdjoinRoot.of (gf2Poly poly))).eval (alpha poly ^ z) := by
  have hfold : ∀ count, residue poly (((List.range count).filter g.testBit).foldl (fun v i => v ^^^ 2 ^ (z * i)) 0) =
      ∑ i ∈ Finset.range count, if g.testBit i then (alpha poly ^ z) ^ i else 0 := by
    intro count
    induction count with
    | zero => simp
    | succ count ih =>
      rw [Finset.sum_range_succ, ← ih, List.range_succ, List.filter_append, List.foldl_append]
      cases hbit : g.testBit count <;> simp [hbit, ← pow_mul]
  rw [valueAtPower, residue_pmod, hfold, gf2Poly.eq_def g, Polynomial.map_sum, eval_finsetSum]
  refine Finset.sum_congr rfl fun i _ => ?_
  split <;> simp

/-- The product of the factors `x - alpha^z`. -/
noncomputable def rootPoly (poly : Nat) (zs : List Nat) : (AdjoinRoot (gf2Poly poly))[X] :=
  (zs.map fun z => X - C (alpha poly ^ z)).prod

theorem rootPoly_perm {poly : Nat} {zs zs' : List Nat} (h : zs.Perm zs') : rootPoly poly zs = rootPoly poly zs' :=
  (h.map _).prod_eq

theorem eval_rootPoly {poly z : Nat} {zs : List Nat} (h : z ∈ zs) : (rootPoly poly zs).eval (alpha poly ^ z) = 0 := by
  have hdvd : X - C (alpha poly ^ z) ∣ rootPoly poly zs := List.dvd_prod (List.mem_map_of_mem h)
  exact dvd_iff_isRoot.mp hdvd

/-- Doubling permutes the exponents of the roots, since `n` is odd. -/
theorem rootSet_map_double_perm {n m t : Nat} (hn : n = 2 ^ m - 1) (hm : 1 ≤ m) :
    ((rootSet n m t).map (2 * · % n)).Perm (rootSet n m t) := by
  have hcop : Nat.gcd n 2 = 1 := by
    refine Nat.coprime_two_right.mpr ?_
    rw [hn]
    exact Nat.Even.sub_odd Nat.one_le_two_pow (Nat.even_pow.mpr ⟨even_two, by omega⟩) odd_one
  have hnodup : ((rootSet n m t).map (2 * · % n)).Nodup :=
    (List.nodup_map_iff_inj_on (rootSet_nodup n m t)).mpr fun x hx y hy h =>
      Nat.ModEq.eq_of_lt_of_lt (Nat.ModEq.cancel_left_of_coprime hcop h) (mem_rootSet.mp hx).1 (mem_rootSet.mp hy).1
  refine (hnodup.subperm fun z hz => ?_).perm_of_length_le (by simp)
  obtain ⟨y, hy, rfl⟩ := List.mem_map.mp hz
  exact rootSet_double hn hy

/-- The coefficients of `g_t` (R123). -/
abbrev rootCoeffs (poly n t : Nat) : List Nat :=
  generatorCoeffs (powers poly n) (indexTable (powers poly n) n) n (rootSet n (deg poly) t)

namespace FieldPoly

variable {poly n : Nat} (hp : FieldPoly poly n)

include hp

theorem mulLinear_lt {root below : Nat} {ps : List Nat} (hbelow : below < 2 ^ deg poly)
    (hps : ∀ p ∈ ps, p < 2 ^ deg poly) : ∀ p ∈ mulLinear (fieldMul poly n) root below ps, p < 2 ^ deg poly := by
  induction ps generalizing below with
  | nil => simpa [mulLinear] using hbelow
  | cons p ps ih =>
    rw [List.forall_mem_cons] at hps
    rw [mulLinear, List.forall_mem_cons]
    exact ⟨Nat.xor_lt_two_pow hbelow (hp.fieldMul_lt root p), ih hps.1 hps.2⟩

/-- `mulLinear` multiplies by `x - root`, which is `x + root` here (R123). -/
theorem listPoly_mulLinear {root below : Nat} {ps : List Nat} (hroot : root < 2 ^ deg poly)
    (hps : ∀ p ∈ ps, p < 2 ^ deg poly) :
    listPoly poly (mulLinear (fieldMul poly n) root below ps) =
      C (residue poly below) + (X - C (residue poly root)) * listPoly poly ps := by
  have := hp.charP
  induction ps generalizing below with
  | nil => simp [mulLinear, listPoly]
  | cons p ps ih =>
    rw [List.forall_mem_cons] at hps
    rw [mulLinear, listPoly, ih hps.2, residue_xor, hp.residue_fieldMul hroot hps.1, listPoly, CharTwo.sub_eq_add,
      C_add, C_mul]
    ring

/-- The coefficients that R123 computes are those of the product over the roots, and elements of the field. -/
theorem listPoly_generatorCoeffs {zs : List Nat} (hzs : ∀ z ∈ zs, z < n) :
    (∀ p ∈ generatorCoeffs (powers poly n) (indexTable (powers poly n) n) n zs, p < 2 ^ deg poly) ∧
      listPoly poly (generatorCoeffs (powers poly n) (indexTable (powers poly n) n) n zs) = rootPoly poly zs := by
  unfold generatorCoeffs
  induction zs using List.reverseRecOn with
  | nil => exact ⟨by simpa using hp.one_lt, by simp [listPoly, rootPoly]⟩
  | append_singleton zs z ih =>
    obtain ⟨hlt, heq⟩ := ih fun y hy => hzs y (List.mem_append_left _ hy)
    rw [List.foldl_append, List.foldl_cons, List.foldl_nil]
    refine ⟨hp.mulLinear_lt (Nat.two_pow_pos _) hlt, ?_⟩
    rw [hp.listPoly_mulLinear (hp.powers_getD_lt z) hlt, heq, residue_powers poly (hzs z (by simp)), residue_zero, C_0,
      zero_add, mul_comm]
    simp [rootPoly]

theorem listPoly_rootCoeffs (t : Nat) :
    listPoly poly (rootCoeffs poly n t) = rootPoly poly (rootSet n (deg poly) t) :=
  (hp.listPoly_generatorCoeffs fun _ hz => (mem_rootSet.mp hz).1).2

/-- Squaring the coefficients leaves the product over the roots: it doubles the exponents. -/
theorem map_frobenius_rootPoly [CharP (AdjoinRoot (gf2Poly poly)) 2] (t : Nat) :
    (rootPoly poly (rootSet n (deg poly) t)).map (frobenius _ 2) = rootPoly poly (rootSet n (deg poly) t) := by
  conv_rhs => rw [← rootPoly_perm (rootSet_map_double_perm hp.length_eq hp.deg_pos)]
  rw [rootPoly, rootPoly, Polynomial.map_list_prod, List.map_map, List.map_map]
  refine congrArg List.prod (List.map_congr_left fun z _ => ?_)
  simp only [Function.comp_apply, Polynomial.map_sub, map_X, map_C, frobenius_def, hp.alpha_pow_mod, ← pow_mul,
    Nat.mul_comm z 2]

/-- Every coefficient of `g_t` is 0 or 1: it is its own square (R123). -/
theorem rootCoeffs_zero_or_one (t i : Nat) :
    (rootCoeffs poly n t).getD i 0 = 0 ∨ (rootCoeffs poly n t).getD i 0 = 1 := by
  have := hp.charP
  have := hp.isDomain
  have hlt : (rootCoeffs poly n t).getD i 0 < 2 ^ deg poly := by
    by_cases hi : i < (rootCoeffs poly n t).length
    · rw [List.getD_eq_getElem _ _ hi]
      exact (hp.listPoly_generatorCoeffs fun _ hz => (mem_rootSet.mp hz).1).1 _ (List.getElem_mem hi)
    · rw [List.getD_eq_default _ _ (Nat.not_lt.mp hi)]
      exact Nat.two_pow_pos _
  have hsquare : residue poly ((rootCoeffs poly n t).getD i 0) ^ 2 = residue poly ((rootCoeffs poly n t).getD i 0) := by
    have hcoeff := congrArg (coeff · i) (hp.map_frobenius_rootPoly t)
    simpa only [coeff_map, frobenius_def, ← hp.listPoly_rootCoeffs, coeff_listPoly] using hcoeff
  rw [sq] at hsquare
  obtain hzero | hone := IsIdempotentElem.iff_eq_zero_or_one.mp hsquare
  · exact .inl ((hp.residue_inj hlt (Nat.two_pow_pos _)).mp (hzero.trans (residue_zero poly).symm))
  · exact .inr ((hp.residue_inj hlt hp.one_lt).mp (hone.trans (residue_one poly).symm))

/-- The generator over the field is the product over its roots (R123). -/
theorem map_generator (t : Nat) :
    (gf2Poly (coeffMask (rootCoeffs poly n t))).map (AdjoinRoot.of (gf2Poly poly)) =
      rootPoly poly (rootSet n (deg poly) t) :=
  (map_gf2Poly_coeffMask (hp.rootCoeffs_zero_or_one t)).trans (hp.listPoly_rootCoeffs t)

/-! ## What the generator is -/

/-- The generator vanishes at `alpha^z` for every root `z` (R123). -/
theorem valueAtPower_generator {t z : Nat} (hz : z ∈ rootSet n (deg poly) t) :
    valueAtPower poly (coeffMask (rootCoeffs poly n t)) z = 0 := by
  have hlt : valueAtPower poly (coeffMask (rootCoeffs poly n t)) z < 2 ^ deg poly := pmod_lt hp.ne_zero _
  rw [← hp.residue_inj hlt (Nat.two_pow_pos _), residue_valueAtPower, hp.map_generator, eval_rootPoly hz, residue_zero]

/-- The product over distinct roots divides `x^n - 1`, whose roots are the powers of `alpha`. -/
theorem rootPoly_dvd (t : Nat) : rootPoly poly (rootSet n (deg poly) t) ∣ X ^ n - 1 := by
  have := hp.isDomain
  have hne : (X ^ n - 1 : (AdjoinRoot (gf2Poly poly))[X]) ≠ 0 := X_pow_sub_C_ne_zero hp.length_pos 1
  have hnodup : ((rootSet n (deg poly) t).map (alpha poly ^ ·)).Nodup :=
    (List.nodup_map_iff_inj_on (rootSet_nodup _ _ _)).mpr fun x hx y hy h =>
      hp.alpha_pow_inj (mem_rootSet.mp hx).1 (mem_rootSet.mp hy).1 h
  have hroots : (((rootSet n (deg poly) t).map (alpha poly ^ ·) : List _) : Multiset _) ≤
      (X ^ n - 1 : (AdjoinRoot (gf2Poly poly))[X]).roots := by
    refine (Multiset.le_iff_subset (Multiset.coe_nodup.mpr hnodup)).mpr fun x hx => ?_
    obtain ⟨z, -, rfl⟩ := List.mem_map.mp (Multiset.mem_coe.mp hx)
    rw [mem_roots hne, IsRoot, eval_sub, eval_pow, eval_X, eval_one, ← pow_mul, mul_comm, pow_mul,
      hp.alpha_pow_length, one_pow, sub_self]
  have hdvd := (Multiset.prod_X_sub_C_dvd_iff_le_roots hne _).mpr hroots
  rwa [Multiset.map_coe, Multiset.prod_coe, List.map_map] at hdvd

/-- The generator divides `x^n + 1` (R123). -/
theorem pmod_generator (t : Nat) (hg : coeffMask (rootCoeffs poly n t) ≠ 0) :
    pmod (2 ^ n ^^^ 1) (coeffMask (rootCoeffs poly n t)) = 0 := by
  have := hp.nontrivial
  have hmonic : (gf2Poly (coeffMask (rootCoeffs poly n t))).Monic := by
    have hone : ∀ c : ZMod 2, c ≠ 0 → c = 1 := by decide
    exact hone _ (leadingCoeff_ne_zero.mpr (gf2Poly_eq_zero_iff.not.mpr hg))
  rw [pmod_eq_zero_iff hg, residue_eq_zero_iff, gf2Poly_xor, gf2Poly_two_pow, gf2Poly_one, ← CharTwo.sub_eq_add]
  refine (map_dvd_map (AdjoinRoot.of (gf2Poly poly)) (RingHom.injective _) hmonic).mp ?_
  rw [hp.map_generator, Polynomial.map_sub, Polynomial.map_pow, map_X, Polynomial.map_one]
  exact hp.rootPoly_dvd t

end FieldPoly

/-! ## `BCH.BEGIN` -/

/-- The roots are the union of the cosets of 1 to `2t` (R123). -/
theorem mem_rootSet_iff_coset {n m t z : Nat} (hn : n = 2 ^ m - 1) (hm : 1 ≤ m) :
    z ∈ rootSet n m t ↔ ∃ i j, 1 ≤ i ∧ i ≤ 2 * t ∧ z = i * 2 ^ j % n := by
  have hpos : 0 < n := by
    have := Nat.one_lt_two_pow (n := m) (by omega)
    omega
  constructor
  · intro hz
    obtain ⟨-, i, hi, j, -, rfl⟩ := mem_rootSet.mp hz
    exact ⟨i + 1, j, by omega, by omega, rfl⟩
  · rintro ⟨i, j, h1, hi, rfl⟩
    induction j with
    | zero => exact mem_rootSet.mpr ⟨Nat.mod_lt _ hpos, i - 1, by omega, 0, by omega, by rw [Nat.sub_add_cancel h1]⟩
    | succ j ih =>
      have hdouble := rootSet_double hn ih
      rwa [Nat.mul_mod_mod, Nat.mul_left_comm, ← Nat.pow_succ'] at hdouble

/-- The search answers with the least `t` whose root set reaches `n - k` roots, if it has just so many (R123). -/
theorem findGenerator_eq {poly n k t : Nat} (ht : 1 ≤ t) (htn : 2 * t < n)
    (hroots : (rootSet n (deg poly) t).length = n - k)
    (hleast : ∀ t', 1 ≤ t' → t' < t → (rootSet n (deg poly) t').length < n - k) :
    findGenerator (deg poly) poly n k = some (t, coeffMask (rootCoeffs poly n t)) := by
  have hfind : (List.range' 1 ((n - 1) / 2)).find? (fun t => decide (n - k ≤ (rootSet n (deg poly) t).length)) =
      some t := by
    refine List.find?_range'_eq_some.mpr ⟨decide_eq_true hroots.ge, List.mem_range'_1.mpr (by omega), ?_⟩
    intro t' h1 hlt
    rw [Bool.not_eq_true', decide_eq_false_iff_not, Nat.not_le]
    exact hleast t' h1 hlt
  simp only [findGenerator, hfind, if_pos hroots]

/-- Settles O35: the generator is the product over the roots in the field of `poly`, and its coefficients are bits. -/
theorem bchBeginBuildsCode : Obligations.BchBeginBuildsCode := by
  intro s n k t poly hpoly hn hmax hk hkn hprim ht htn hroots hleast
  have hp : FieldPoly poly.toNat n := ⟨by omega, hn, hprim⟩
  have hgen : bchGenerator n k poly.toNat = some (t, coeffMask (rootCoeffs poly.toNat n t)) := by
    rw [bchGenerator, if_pos, findGenerator_eq ht htn hroots hleast]
    simp [bchParamsOk, hpoly, ← hn, bchMaxN, hmax, hk, hkn, hprim]
  have hcode := bchCodeOk_bchUnitOf hgen
  have hg : coeffMask (rootCoeffs poly.toNat n t) ≠ 0 := hcode.gen_ne_zero
  have hfits : coeffMask (rootCoeffs poly.toNat n t) < 2 ^ 32 := by
    have hdeg : deg (coeffMask (rootCoeffs poly.toNat n t)) = n - k := hcode.gen_deg
    have hlt := lt_two_pow_deg_succ (coeffMask (rootCoeffs poly.toNat n t))
    exact hlt.trans_le (Nat.pow_le_pow_right (by decide) (by omega))
  have hexec : exec (.bchBegin n k poly) s = .next (done { s with
      bch := bchUnitOf n k poly (coeffMask (rootCoeffs poly.toNat n t))
      res := { s.res with r0 := toWord (coeffMask (rootCoeffs poly.toNat n t)), r1 := toWord t } }) := by
    simp only [exec, execBchBegin, hgen]
    rfl
  exact ⟨_, _, hexec, rfl, alphaTable_length _ _ n, by simp [bchUnitOf, indexTable], fun i => hp.powers_getElem?,
    fun v => hp.powers_indexTable, fun z => mem_rootSet_iff_coset hn hp.deg_pos, fun z => hp.valueAtPower_generator,
    toWord_toNat hfits, toWord_toNat (by omega), hcode, hp.pmod_generator t hg⟩

end Sys2Proof.Machine
end

section
/-! Whitening (R150 to R152) and puncturing (R158, R159). -/

namespace Sys2Proof.Machine

/-! ## The nibble swap -/

/-- The nibble swap moves every bit by four places (R150). -/
theorem swapNibbles_getElem (u : Byte) {i : Nat} (h : i < 8) : (swapNibbles u)[i] = u.getLsbD ((i + 4) % 8) := by
  simp only [swapNibbles, BitVec.getElem_or, BitVec.getElem_shiftLeft, BitVec.getElem_ushiftRight]
  interval_cases i <;> simp

/-- Swapping twice gives the byte back. -/
theorem swapNibbles_swapNibbles (u : Byte) : swapNibbles (swapNibbles u) = u := by
  ext i hi
  have hlt : (i + 4) % 8 < 8 := Nat.mod_lt _ (by decide)
  rw [swapNibbles_getElem _ hi, BitVec.getLsbD_eq_getElem hlt, swapNibbles_getElem _ hlt,
    show ((i + 4) % 8 + 4) % 8 = i by omega, BitVec.getLsbD_eq_getElem hi]

/-- The swap is linear. -/
theorem swapNibbles_xor (u v : Byte) : swapNibbles (u ^^^ v) = swapNibbles u ^^^ swapNibbles v := by
  ext i hi
  simp only [BitVec.getElem_xor, swapNibbles_getElem _ hi, BitVec.getLsbD_xor]

/-! ## Whitening -/

theorem dewhitenFrom_whitenFrom (c : Cfg) (l : Byte) (xs : List Byte) : dewhitenFrom c l (whitenFrom c l xs) = xs := by
  induction xs generalizing l with
  | nil => rfl
  | cons x xs ih =>
    rw [whitenFrom, dewhitenFrom, ih, swapNibbles_swapNibbles, BitVec.xor_assoc, BitVec.xor_self, BitVec.xor_zero]

/-- Settles O48: byte by byte, the swap undoes itself and so does the LFSR value. -/
theorem whiteningRoundTrip : Obligations.WhiteningRoundTrip := fun c bytes => dewhitenFrom_whitenFrom c whitenSeed bytes

/-- Byte `i` is whitened with the `i`-th LFSR value, which no data reaches (R150). -/
theorem whitenFrom_getElem? (c : Cfg) (l : Byte) (xs : List Byte) (i : Nat) :
    (whitenFrom c l xs)[i]? = xs[i]?.map fun x => swapNibbles (x ^^^ (whitenNext c)^[i] l) := by
  induction xs generalizing l i with
  | nil => rfl
  | cons x xs ih =>
    cases i with
    | zero => rfl
    | succ i => exact ih (whitenNext c l) i

/-- The LFSR values of two whitened lists cancel. -/
theorem zipWith_xor_whitenFrom (c : Cfg) (l : Byte) (xs ys : List Byte) :
    List.zipWith (· ^^^ ·) (whitenFrom c l xs) (whitenFrom c l ys) =
      List.zipWith (fun x y => swapNibbles (x ^^^ y)) xs ys := by
  induction xs generalizing l ys with
  | nil => rfl
  | cons x xs ih =>
    cases ys with
    | nil => rfl
    | cons y ys =>
      have hcancel : x ^^^ l ^^^ (y ^^^ l) = x ^^^ y := by
        rw [BitVec.xor_comm y l, ← BitVec.xor_assoc, BitVec.xor_assoc x, BitVec.xor_self, BitVec.xor_zero]
      simp only [whitenFrom, List.zipWith_cons_cons, ih, ← swapNibbles_xor, hcancel]

theorem whitenFrom_take (c : Cfg) (l : Byte) (xs : List Byte) (n : Nat) :
    whitenFrom c l (xs.take n) = (whitenFrom c l xs).take n := by
  induction n generalizing l xs with
  | zero => rfl
  | succ n ih =>
    cases xs with
    | nil => rfl
    | cons x xs => exact congrArg _ (ih (whitenNext c l) xs)

/-- Settles O49: each law is one of the loop, from any LFSR value. -/
theorem whiteningLaws : Obligations.WhiteningLaws := by
  refine fun c => ⟨whiten_length c, fun b i x hx => ?_, fun a b _ => zipWith_xor_whitenFrom c whitenSeed a b,
    whitenFrom_take c whitenSeed⟩
  rw [whiten, whitenFrom_getElem?, hx]
  rfl

/-! ## Puncturing -/

/-- A list with its positions is the positions with their entries. -/
theorem zipIdx_eq_map_range (bits : List Bool) :
    bits.zipIdx = (List.range bits.length).map fun i => (bits.getD i false, i) := by
  refine List.ext_getElem (by simp) fun i hi _ => ?_
  have hlt : i < bits.length := by simpa using hi
  simp [hlt]

/-- Bit `i` of the stream is kept exactly where the repeated pattern has a 1 (R158). -/
theorem puncture_eq_filter {c : Cfg} {cr : CodingRate} {pat : List Bool} (h : punct c cr = some pat)
    (bits : List Bool) :
    puncture c cr bits =
      ((List.range bits.length).filter fun i => pat[i % pat.length]? == some true).map fun i => bits.getD i false := by
  have hbit : ∀ i, pat.getD (i % pat.length) false = (pat[i % pat.length]? == some true) := fun i => by
    rw [List.getD_eq_getElem?_getD]
    cases pat[i % pat.length]? with
    | none => rfl
    | some b => cases b <;> rfl
  simp only [puncture, h, hbit, zipIdx_eq_map_range, List.filter_map, List.map_map]
  rfl

/-- The kept bits stay in order (R158). -/
theorem puncture_sublist (c : Cfg) (cr : CodingRate) (bits : List Bool) : (puncture c cr bits).Sublist bits := by
  unfold puncture
  split
  · exact List.Sublist.refl bits
  · refine (List.filter_sublist.map Prod.fst).trans ?_
    rw [List.zipIdx_map_fst]

/-- The patterns of a well-formed `CFG` (R9). -/
theorem cfgWf_punct {c : Cfg} (h : cfgWf c = true) :
    punctWf 5 6 c.punct5_6 = true ∧ punctWf 2 3 c.punct2_3 = true ∧ punctWf 1 2 c.punct1_2 = true := by
  simp only [cfgWf, Bool.and_eq_true] at h
  obtain ⟨⟨⟨⟨⟨⟨⟨⟨⟨⟨⟨⟨-, h56⟩, h23⟩, h12⟩, -⟩, -⟩, -⟩, -⟩, -⟩, -⟩, -⟩, -⟩, -⟩ := h
  exact ⟨h56, h23, h12⟩

/-- Whole windows keep `b` bits of `3*a` (R9, R159). -/
theorem puncture_length_of_windows {c : Cfg} {cr : CodingRate} {pat bits : List Bool} {a b : Nat}
    (hpat : punct c cr = some pat) (hwf : punctWf a b pat = true) (hbits : bits.length % pat.length = 0) :
    3 * a * (puncture c cr bits).length = b * bits.length := by
  simp only [punctWf, Bool.and_eq_true, beq_iff_eq] at hwf
  obtain ⟨⟨-, hlen⟩, hcount⟩ := hwf
  have hwindow : 3 * a * pat.count true = b * pat.length := by
    rw [hcount, Nat.mul_left_comm, Nat.mul_div_cancel' (Nat.dvd_of_mod_eq_zero hlen)]
  have hstream : bits.length / pat.length * pat.length = bits.length :=
    Nat.div_mul_cancel (Nat.dvd_of_mod_eq_zero hbits)
  have hkept : (puncture c cr bits).length = bits.length / pat.length * pat.count true := by
    simp [puncture_length, expandedBits, hpat, hbits]
  rw [hkept, Nat.mul_left_comm, hwindow, Nat.mul_left_comm, hstream]

/-- A pattern that keeps a bit of a stream of 66 bits keeps one of its first 66 positions. -/
theorem keepsShortest_of_one_le {pat : List Bool}
    (h : 1 ≤ (66 / pat.length) * pat.count true + (pat.take (66 % pat.length)).count true) :
    keepsShortest pat = true := by
  suffices hcount : 0 < (pat.take 66).count true by
    simpa [keepsShortest] using List.count_pos_iff.mp hcount
  obtain hlong | hshort := Nat.lt_or_ge 66 pat.length
  · rw [Nat.div_eq_of_lt hlong, Nat.mod_eq_of_lt hlong] at h
    omega
  · have hrest := (List.take_sublist (66 % pat.length) pat).count_le true
    rw [List.take_of_length_le hshort]
    refine Nat.pos_of_ne_zero fun hzero => ?_
    rw [hzero] at h hrest
    omega

/-- The patterns keep a bit of every payload's stream exactly where they keep one of the shortest stream (R31 (f),
log 13). -/
theorem cfgKeepsPayload_iff (c : Cfg) :
    cfgKeepsPayload c = true ↔ ∀ cr len, 1 ≤ expandedBits c cr (24 * len + 66) := by
  refine ⟨one_le_expandedBits, fun h => ?_⟩
  simp only [cfgKeepsPayload, Bool.and_eq_true]
  exact ⟨⟨keepsShortest_of_one_le (h .r5_6 0), keepsShortest_of_one_le (h .r2_3 0)⟩,
    keepsShortest_of_one_le (h .r1_2 0)⟩

theorem keepsShortest_of_head {pat : List Bool} (h : pat.head? = some true) : keepsShortest pat = true := by
  obtain ⟨rest, rfl⟩ := List.head?_eq_some_iff.mp h
  rfl

/-- Settles O50: the kept positions, their number, the whole windows, and the patterns that keep every payload. -/
theorem puncturedLength : Obligations.PuncturedLength := by
  refine ⟨fun c cr bits hwf => ?_, fun c _ => ⟨cfgKeepsPayload_iff c, fun ⟨h56, h23, h12⟩ => ?_⟩⟩
  · obtain ⟨h56, h23, h12⟩ := cfgWf_punct hwf
    refine ⟨puncture_length c cr bits, fun pat hpat => puncture_eq_filter hpat bits, puncture_sublist c cr bits, ?_, ?_,
      ?_, ?_⟩ <;> rintro rfl
    · rfl
    · exact puncture_length_of_windows rfl h56
    · exact puncture_length_of_windows rfl h23
    · exact puncture_length_of_windows rfl h12
  · simp only [cfgKeepsPayload, keepsShortest_of_head h56, keepsShortest_of_head h23, keepsShortest_of_head h12,
      Bool.and_self]

end Sys2Proof.Machine
end

section
/-! The interleaver's order is a permutation (R161, R162). It lists the positions below `n` by their residue modulo
`stepV` (a sweep), then by their residue modulo `step` (a column), then by size, and every round sends the first
position that is not sent yet. -/

namespace Sys2Proof.Machine

/-- The positions still to be sent when the loop of R161 stands at `pos`, `stIdx` and `stInit`. -/
def unsent (n step stepV pos stIdx stInit : Nat) : Finset Nat :=
  (Finset.range n).filter fun q =>
    stInit < q % step % stepV ∨ (q % step % stepV = stInit ∧ (stIdx < q % step ∨ (q % step = stIdx ∧ pos ≤ q)))

theorem mem_unsent {n step stepV pos stIdx stInit q : Nat} :
    q ∈ unsent n step stepV pos stIdx stInit ↔ q < n ∧
      (stInit < q % step % stepV ∨
        (q % step % stepV = stInit ∧ (stIdx < q % step ∨ (q % step = stIdx ∧ pos ≤ q)))) := by
  rw [unsent, Finset.mem_filter, Finset.mem_range]

theorem card_unsent_le (n step stepV pos stIdx stInit : Nat) : (unsent n step stepV pos stIdx stInit).card ≤ n :=
  (Finset.card_filter_le _ _).trans (Finset.card_range n).le

/-- Where the loop stands: at a position of the stream, in the column `stIdx` of the sweep `stInit`. -/
structure IlvAt (n step stepV pos stIdx stInit : Nat) : Prop where
  inStream : pos < n
  column   : pos % step = stIdx
  sweep    : stIdx % stepV = stInit

section
variable {n step stepV pos stIdx stInit : Nat} (hat : IlvAt n step stepV pos stIdx stInit)
include hat

/-- The position the loop stands at is still to be sent. -/
theorem IlvAt.pos_mem : pos ∈ unsent n step stepV pos stIdx stInit := by
  obtain ⟨hpos, rfl, rfl⟩ := hat
  exact mem_unsent.mpr ⟨hpos, .inr ⟨rfl, .inr ⟨rfl, Nat.le_refl pos⟩⟩⟩

/-- How another position lies to `pos`: a step or more further down its column, or `stepV` columns or more further in
its sweep. -/
theorem IlvAt.apart (q : Nat) :
    (q = pos → q % step = stIdx ∧ q % step % stepV = stInit) ∧
    (q % step = stIdx → pos < q → pos + step ≤ q) ∧
    (q % step % stepV = stInit → stIdx < q % step → stIdx + stepV ≤ q % step) := by
  obtain ⟨-, rfl, rfl⟩ := hat
  exact ⟨fun h => by simp [h], fun hcol => Nat.ModEq.add_le_of_lt hcol.symm,
    fun hsweep => Nat.ModEq.add_le_of_lt hsweep.symm⟩

/-- With `pos` sent, its column goes on one step further down. -/
theorem IlvAt.erase_eq_down (hstep : 0 < step) :
    (unsent n step stepV pos stIdx stInit).erase pos = unsent n step stepV (pos + step) stIdx stInit := by
  ext q
  obtain ⟨hself, hdown, -⟩ := hat.apart q
  rw [Finset.mem_erase, mem_unsent, mem_unsent]
  omega

/-- With the last position of a column sent, the sweep goes on `stepV` columns further. -/
theorem IlvAt.erase_eq_across (hstepV : 0 < stepV) (hend : n ≤ pos + step) :
    (unsent n step stepV pos stIdx stInit).erase pos = unsent n step stepV (stIdx + stepV) (stIdx + stepV) stInit := by
  ext q
  obtain ⟨hself, hdown, hacross⟩ := hat.apart q
  have hle := Nat.mod_le q step
  rw [Finset.mem_erase, mem_unsent, mem_unsent]
  omega

/-- With the last position of a sweep sent, the next sweep begins. -/
theorem IlvAt.erase_eq_next_sweep (hstep : 0 < step) (hend : n ≤ pos + step) (hlast : step ≤ stIdx + stepV) :
    (unsent n step stepV pos stIdx stInit).erase pos = unsent n step stepV (stInit + 1) (stInit + 1) (stInit + 1) := by
  ext q
  obtain ⟨hself, hdown, hacross⟩ := hat.apart q
  have hle := Nat.mod_le q step
  have hleV := Nat.mod_le (q % step) stepV
  have hlt := Nat.mod_lt q hstep
  rw [Finset.mem_erase, mem_unsent, mem_unsent]
  omega

end

/-- The loop sends every position still to be sent, when it has at least as many rounds left. -/
theorem mem_ilvLoop {n step stepV : Nat} (hstepV : 0 < stepV) (hle : stepV ≤ step) (hn : step ≤ n)
    {rounds pos stIdx stInit q : Nat} (hat : IlvAt n step stepV pos stIdx stInit)
    (hrounds : (unsent n step stepV pos stIdx stInit).card ≤ rounds) (hq : q ∈ unsent n step stepV pos stIdx stInit) :
    q ∈ ilvLoop n step stepV rounds pos stIdx stInit := by
  induction rounds generalizing pos stIdx stInit with
  | zero =>
    rw [Finset.card_eq_zero.mp (Nat.le_zero.mp hrounds)] at hq
    exact absurd hq (Finset.notMem_empty q)
  | succ rounds ih =>
    have hrest : ((unsent n step stepV pos stIdx stInit).erase pos).card ≤ rounds := by
      rw [Finset.card_erase_of_mem hat.pos_mem]
      omega
    have hstep : 0 < step := hstepV.trans_le hle
    rw [ilvLoop, List.mem_cons, or_iff_not_imp_left]
    intro hne
    have hq' := Finset.mem_erase.mpr ⟨hne, hq⟩
    split
    · rename_i hdown
      rw [hat.erase_eq_down hstep] at hrest hq'
      exact ih ⟨hdown, by rw [Nat.add_mod_right, hat.column], hat.sweep⟩ hrest hq'
    · rename_i hend
      split
      · rename_i hacross
        rw [hat.erase_eq_across hstepV (by omega)] at hrest hq'
        exact ih ⟨by omega, Nat.mod_eq_of_lt hacross, by rw [Nat.add_mod_right, hat.sweep]⟩ hrest hq'
      · rename_i hlast
        rw [hat.erase_eq_next_sweep hstep (by omega) (by omega)] at hrest hq'
        have hsweep : stInit + 1 < stepV := by
          have := (mem_unsent.mp hq').2
          have := Nat.mod_lt (q % step) hstepV
          omega
        exact ih ⟨by omega, Nat.mod_eq_of_lt (by omega), Nat.mod_eq_of_lt hsweep⟩ hrest hq'

/-- As many numbers as the positions below `n`, with each of these among them, are these in some order. -/
theorem perm_range_of_mem {l : List Nat} {n : Nat} (hlen : l.length = n) (h : ∀ q, q < n → q ∈ l) :
    l.Perm (List.range n) := by
  have hsub : List.range n ⊆ l := fun q hq => h q (List.mem_range.mp hq)
  exact ((List.nodup_range.subperm hsub).perm_of_length_le (by rw [hlen, List.length_range])).symm

/-- From 9 bits on the root is at least 2 and its double fits the stream, rounded up or not. -/
theorem ilvRoot_bounds (rootEven : Bool) {n : Nat} (h : 9 ≤ n) :
    2 ≤ ilvRoot rootEven n ∧ 2 * ilvRoot rootEven n ≤ n := by
  obtain ⟨hreach, hleast⟩ := ceilSqrt_spec n
  have hroot : ceilSqrt n ≤ ilvRoot rootEven n ∧ ilvRoot rootEven n ≤ ceilSqrt n + 1 := by
    unfold ilvRoot
    split <;> omega
  generalize ceilSqrt n = c at *
  have hthree : 3 ≤ c := by
    by_contra hlt
    have := Nat.mul_le_mul (show c ≤ 2 by omega) (show c ≤ 2 by omega)
    omega
  have hdouble : 2 * (c + 1) ≤ n := by
    obtain ⟨d, rfl⟩ : ∃ d, c = d + 1 := ⟨c - 1, by omega⟩
    have hd := hleast d (Nat.lt_succ_self d)
    obtain rfl | hfour : d = 2 ∨ 3 ≤ d := by omega
    · omega
    · nlinarith
  omega

/-- The orders of fewer than 9 bits, one by one (R162, log 23). -/
theorem interleaveOrder_perm_short :
    ∀ n < 9, ∀ rootEven : Bool, (7 ≤ n ∨ (1 ≤ n ∧ rootEven = false)) →
      (interleaveOrder rootEven n).Perm (List.range n) := by decide

/-- From 9 bits on the loop starts every column inside the stream, and so sends every position (R161). -/
theorem interleaveOrder_perm_long (rootEven : Bool) {n : Nat} (h : 9 ≤ n) :
    (interleaveOrder rootEven n).Perm (List.range n) := by
  obtain ⟨htwo, hfits⟩ := ilvRoot_bounds rootEven h
  refine perm_range_of_mem (interleaveOrder_length rootEven n) fun q hq => ?_
  have hat : IlvAt n (2 * ilvRoot rootEven n) (ilvRoot rootEven n / 2) 0 0 0 :=
    ⟨by omega, Nat.zero_mod _, Nat.zero_mod _⟩
  exact mem_ilvLoop (by omega) (by omega) hfits hat (card_unsent_le ..) (mem_unsent.mpr ⟨hq, by omega⟩)

/-- Settles O51: short streams one by one, and long ones by what is still to be sent. -/
theorem interleaverPermutes : Obligations.InterleaverPermutes := by
  intro rootEven n h
  obtain hshort | hlong := Nat.lt_or_ge n 9
  · exact interleaveOrder_perm_short n hshort rootEven h
  · exact interleaveOrder_perm_long rootEven hlong

end Sys2Proof.Machine
end

section
/-! The commands of the `FHSS` unit: what `FHSS.BEGIN` and `FHSS.CONFIG` leave (R141 to R144), the header's tail-biting
(R170, R172), and what `FHSS.ENCODE` leaves (R145, R175 to R178) and depends on (R148). -/

namespace Sys2Proof.Machine

/-! ## Configuration -/

@[simp] theorem codingRateOfCode_codingRateCode (rate : CodingRate) :
    codingRateOfCode (codingRateCode rate) = some rate := by
  cases rate <;> rfl

/-- `ValidateConfig` accepts operands that pass each of its checks (R142). -/
theorem validateConfig_of_legal {c : Cfg} {bw hdrCount id channels : Nat} {grid : Grid} {rate : CodingRate}
    {e : HopEntry} (hbw : chanCount c bw = some channels) (hlo : 1 ≤ hdrCount) (hhi : hdrCount ≤ 4)
    (he : hopEntry c (channels / gridChannels c grid) = some e) (hid : id ≤ 511) (hlimit : id < e.idLimit) :
    validateConfig c bw (codingRateCode rate) hdrCount grid id =
      .ok (hopParams rate e (channels / gridChannels c grid) id) := by
  have hhdr : ¬ (hdrCount < hdrCountMin ∨ hdrCount > hdrCountMax) := by
    simp only [hdrCountMin, hdrCountMax]
    omega
  have hseq : ¬ (id > hopSeqIdMax ∨ id ≥ e.idLimit) := by
    simp only [hopSeqIdMax]
    omega
  simp only [validateConfig, codingRateOfCode_codingRateCode, hbw, if_neg hhdr, gridSize, he, if_neg hseq]

/-- The mask that a legal identifier selects is in the table (R192, R193). -/
theorem hopParams_poly {c : GoodCfg} {nGrid id : Nat} {e : HopEntry} (he : hopEntry c.toCfg nGrid = some e)
    (hid : id < e.idLimit) (rate : CodingRate) :
    e.polys[id / 2 ^ e.w]? = some (hopParams rate e nGrid id).poly := by
  obtain ⟨-, -, -, -, hpolys, -⟩ := hopEntry_wf c he
  have hindex := polyIndex_lt hpolys hid
  rw [hopParams, ← Nat.shiftRight_eq_div_pow, List.getD_eq_getElem _ _ hindex, List.getElem?_eq_getElem hindex]

/-- Settles O39: `ValidateConfig` accepts, and the mask it takes is in the table. -/
theorem fhssBeginCompletes : Obligations.FhssBeginCompletes := by
  rintro s bw _ hdrCount grid id rate channels e rfl hbw hlo hhi he hid hlimit
  refine ⟨_, hopParams_poly he hlimit rate, ?_⟩
  simp only [exec, execFhssBegin, validateConfig_of_legal hbw hlo hhi he hid hlimit]
  rfl

/-- Once begun, beginning again changes nothing that a configuration does not (R141). -/
theorem fhssBegin_eq_fhssConfig {s : State} (hb : s.begun = true) (bw cr hdrCount : Nat) (grid : Grid) (id : Nat) :
    exec (.fhssBegin bw cr hdrCount grid id) s = exec (.fhssConfig bw cr hdrCount grid id) s := by
  have hsame : { s with begun := true } = s := by rw [← hb]
  simp only [exec, execFhssBegin, execFhssConfig, if_pos hb, hsame]

/-- Settles O40: once begun, `FHSS.CONFIG` does what `FHSS.BEGIN` does, and that is O39. -/
theorem fhssConfigCompletes : Obligations.FhssConfigCompletes := by
  refine ⟨fun s bw cr hdrCount grid id rate channels e hb hcr hbw hlo hhi he hid hlimit => ?_,
    fun s bw cr hdrCount grid id hb => fhssBegin_eq_fhssConfig hb bw cr hdrCount grid id⟩
  obtain ⟨p, hp, hexec⟩ := fhssBeginCompletes s bw cr hdrCount grid id rate channels e hcr hbw hlo hhi he hid hlimit
  refine ⟨p, hp, ?_⟩
  rw [← fhssBegin_eq_fhssConfig hb, hexec, hb]

/-! ## The header's tail-biting -/

/-- `CFG.convStateBits[2]` is smaller than the header's 40 bits (R9). -/
theorem cfgWf_convStateBits2_le {c : Cfg} (h : cfgWf c = true) : c.convStateBits2 ≤ 39 := by
  simp only [cfgWf, Bool.and_eq_true, decide_eq_true_eq] at h
  omega

/-- Two passes over the same bits differ only in the symbols of the first `w_r` bits, whatever states they start
from. -/
theorem convOut_drop_eq {c : Cfg} {r : ConvRate} (hw : 0 < convStateBits c r) (s s' : Nat) {bits : List Bool}
    (h : convStateBits c r ≤ bits.length) :
    (convOut c r s bits).drop (convDenominator r * convStateBits c r) =
      (convOut c r s' bits).drop (convDenominator r * convStateBits c r) := by
  have hfirst : (bits.take (convStateBits c r)).length = convStateBits c r := List.length_take_of_le h
  have hrest : ∀ st, (convOut c r st bits).drop (convDenominator r * convStateBits c r) =
      convOut c r (convEnd c r st (bits.take (convStateBits c r))) (bits.drop (convStateBits c r)) := fun st => by
    conv_lhs => rw [← List.take_append_drop (convStateBits c r) bits, convOut_append]
    exact List.drop_left' (by rw [convOut_length, hfirst])
  rw [hrest, hrest, convEnd_forgets_start hw s s' hfirst.ge]

/-- The raw header's 40 bits push every bit of a start state out. -/
theorem convStateBits_le_headerBits {c : Cfg} (hwf : cfgWf c = true) {raw : List Byte} (hraw : raw.length = 5) :
    convStateBits c .two ≤ (bitsOf raw hdrRawBits).length := by
  have hbits : (bitsOf raw hdrRawBits).length = 40 := bitsOf_length (by rw [hraw]; decide)
  have hw : convStateBits c .two ≤ 39 := cfgWf_convStateBits2_le hwf
  omega

/-- The second pass over a header ends where the first did (R170). -/
theorem headerCoded_end {c : Cfg} (hwf : cfgWf c = true) {raw : List Byte} (hraw : raw.length = 5) :
    (headerCoded c raw).2 = convEnd c .two 0 (bitsOf raw 40) :=
  convEnd_forgets_start (convStateBits_pos hwf .two) _ _ (convStateBits_le_headerBits hwf hraw)

/-- Settles O46: both passes code the same 40 bits, which are more than the state's. -/
theorem headerTailBites : Obligations.HeaderTailBites := fun _ _ hwf hraw =>
  ⟨rfl, headerCoded_end hwf hraw, headerCoded_length _ hraw,
    convOut_drop_eq (convStateBits_pos hwf .two) _ _ (convStateBits_le_headerBits hwf hraw)⟩

/-! ## What `FHSS.ENCODE` leaves -/

/-- The encoder is left where the last header, that of replica 0, leaves it (R145, R173). -/
theorem headerBlocks_end (c : Cfg) (cfg : FhssCfg) (len : Nat) {left : Nat} (h : 1 ≤ left) (s : Nat) :
    (headerBlocks c cfg len left s).2 = (headerCoded c (headerRaw len cfg 0)).2 := by
  induction left, h using Nat.le_induction generalizing s with
  | base => rfl
  | succ left _ ih => exact ih _

/-- Every hop carries a bit: there are no more hops than bits (R175, R176). -/
theorem frameHopCount_le (c : Cfg) (cfg : FhssCfg) (len : Nat) :
    frameHopCount c cfg len ≤ frameBitLength c cfg len := by
  have hheaders : cfg.hdrCount ≤ cfg.hdrCount * hdrBlockBits c :=
    Nat.le_mul_of_pos_right _ (by simp only [hdrBlockBits, hdrPermLen]; omega)
  simp only [frameHopCount, frameBitLength, guardBits]
  omega

/-- The expanded bits are bits of the frame (R176). -/
theorem frameExpandedBits_le (c : Cfg) (cfg : FhssCfg) (len : Nat) :
    frameExpandedBits c cfg len ≤ frameBitLength c cfg len := by
  simp only [frameBitLength]
  omega

/-- The counts of a frame that fits `FRAME` fit the result registers (R178). -/
theorem encoded_res_toNat {s : State} {payload : List Byte}
    (hfits : frameBitLength s.CFG.toCfg s.cfg payload.length ≤ 8 * frameMaxBytes) :
    (encoded payload s).res.r0.toNat = (encoded payload s).frame.bitLength ∧
    (encoded payload s).res.r1.toNat = (encoded payload s).frame.hopCount ∧
    (encoded payload s).res.r2.toNat = ceilDiv (encoded payload s).frame.bitLength 8 ∧
    (encoded payload s).res.r3.toNat = frameExpandedBits s.CFG.toCfg s.cfg payload.length := by
  have hroom : 8 * frameMaxBytes < 2 ^ 32 := by decide
  have hbytes : frameMaxBytes < 2 ^ 32 := by decide
  exact ⟨toWord_toNat (hfits.trans_lt hroom), toWord_toNat (((frameHopCount_le ..).trans hfits).trans_lt hroom),
    toWord_toNat ((ceilDiv_eight_le hfits).trans_lt hbytes),
    toWord_toNat (((frameExpandedBits_le ..).trans hfits).trans_lt hroom)⟩

/-- `FHSS.ENCODE` completes when its checks pass and the payload is written (R145, R146). -/
theorem fhssEncode_completes {s : State} {payload : List Byte} (hcheck : encodeCheck payload.length s = none)
    (hin : inputIs payload s) : exec (.fhssEncode payload.length) s = .next (done (encoded payload s)) := by
  simp only [exec, execFhssEncode, hcheck, readBytes_of_inputIs hin]
  rfl

/-- The image of a frame that passes the length check fills `FRAME` (R177). -/
theorem encodedImage_length {c : Cfg} {cfg : FhssCfg} {payload : List Byte}
    (hfits : frameBitLength c cfg payload.length ≤ 8 * frameMaxBytes) :
    (frameImage (encodeFrame c cfg payload).1).length = frameMaxBytes :=
  frameImage_length (by rwa [encodeFrame_length])

/-- Settles O41: what it leaves is `encoded`, whose parts fit where they are put. -/
theorem fhssEncodeCompletes : Obligations.FhssEncodeCompletes := by
  intro s payload hb hidle hlen hfits hin
  have hcheck : encodeCheck payload.length s = none := encodeCheck_eq_none_iff.mpr ⟨hb, hidle, hlen, hfits⟩
  obtain ⟨hr0, hr1, hr2, hr3⟩ := encoded_res_toNat hfits
  refine ⟨_, fhssEncode_completes hcheck hin, rfl, encodedImage_length hfits, hr0, hr1, hr2, hr3, fun hhdr => ?_⟩
  exact (headerBlocks_end _ _ _ hhdr 0).trans (headerCoded_end s.CFG.isWf (headerRaw_length ..))

/-- Settles O42: the counts from the payload's length are those of the streams. -/
theorem frameCountsMatchFrame : Obligations.FrameCountsMatchFrame := by
  intro s t payload hin h hok
  obtain ⟨hcheck, rfl⟩ := fhssEncode_ok hin h hok
  obtain ⟨-, -, -, hfits⟩ := encodeCheck_eq_none_iff.mp hcheck
  obtain ⟨hr0, hr1, -, hr3⟩ := encoded_res_toNat hfits
  rw [payloadStream_length]
  exact ⟨rfl, rfl, (encodeFrame_length ..).symm, hr0, hr1, hr3, one_le_frameExpandedBits s.CFG s.cfg payload.length,
    (frameOk_encoded hcheck).payload⟩

/-! ## What `FHSS.ENCODE` depends on -/

/-- `MemRead` of two buffers that agree on the bytes read (R50). -/
theorem readBytes_congr {m m' : Memory} {a n : Nat}
    (h : ∀ i, i < n → Memory.read m (a + i) = Memory.read m' (a + i)) :
    Memory.readBytes m a n = Memory.readBytes m' a n := by
  induction n generalizing a with
  | zero => rfl
  | succ n ih =>
    have hfirst : Memory.read m a = Memory.read m' a := h 0 (Nat.succ_pos n)
    have hrest := ih (a := a + 1) fun i hi => by simpa [Nat.add_assoc, Nat.add_comm 1 i] using h (i + 1) (by omega)
    rw [Memory.readBytes, Memory.readBytes, hfirst, hrest]

/-- What an `FHSS.ENCODE` that ends with `Ok` leaves, from the payload it reads (R145, R146). -/
theorem fhssEncode_ok_reads {s t : State} {len : Nat} (h : exec (.fhssEncode len) s = .next t) (hok : t.kind = .ok) :
    ∃ payload, Memory.readBytes s.inBuf 0 len = some payload ∧
      encodeCheck payload.length s = none ∧ t = done (encoded payload s) := by
  obtain ⟨k, hk, rfl⟩ | ⟨payload, hcheck, hread, rfl⟩ := execFhssEncode_next h
  · exact absurd hok (encodeCheck_ne_ok hk)
  · obtain ⟨rfl, -⟩ := readBytes_eq_some_iff.mp hread
    exact ⟨payload, hread, hcheck, rfl⟩

/-- A byte of `FRAME` after a successful `FHSS.ENCODE` is that byte of the frame's image (R177). -/
theorem encoded_byteAt_frameBuf {s : State} {payload : List Byte} (hcheck : encodeCheck payload.length s = none)
    {a : Nat} (ha : a < frameMaxBytes) :
    (done (encoded payload s)).byteAt .frameBuf a = (frameImage (encodeFrame s.CFG.toCfg s.cfg payload).1)[a]? := by
  obtain ⟨-, -, -, hfits⟩ := encodeCheck_eq_none_iff.mp hcheck
  have hlen := encodedImage_length hfits
  have hread := read_writeBytes s.frameBuf 0 a (frameImage (encodeFrame s.CFG.toCfg s.cfg payload).1)
  rwa [if_neg (Nat.not_lt_zero a), if_pos (by omega), Nat.sub_zero] at hread

/-- Settles O47: both runs read one payload, and what they leave is a function of it, `cfg` and `CFG`. -/
theorem encodeIsPure : Obligations.EncodeIsPure := by
  intro s s' t t' len hCFG hcfg hin h hok h' hok'
  obtain ⟨payload, hread, hcheck, rfl⟩ := fhssEncode_ok_reads h hok
  obtain ⟨payload', hread', hcheck', rfl⟩ := fhssEncode_ok_reads h' hok'
  have hsame : Memory.readBytes s.inBuf 0 len = Memory.readBytes s'.inBuf 0 len :=
    readBytes_congr fun i hi => by rw [Nat.zero_add]; exact hin i hi
  obtain rfl : payload = payload' := Option.some.inj (hread.symm.trans (hsame.trans hread'))
  refine ⟨?_, ?_, ?_, fun a ha => ?_⟩
  · simp only [encoded_frame, hCFG, hcfg]
  · simp only [encoded_res, hCFG, hcfg]
  · simp only [encoded_conv, hCFG, hcfg]
  · rw [encoded_byteAt_frameBuf hcheck ha, encoded_byteAt_frameBuf hcheck' ha, hCFG, hcfg]

end Sys2Proof.Machine
end

section
/-! The laws of the hop generator: the LFSR's one cycle (R198, R200), candidates (R201), and the hops as the candidates
in range of that cycle (R199, R202). -/

namespace Sys2Proof.Machine

open Function (minimalPeriod IsPeriodicPt)

/-! ## The cycle of the LFSR (R198, R200) -/

/-- `LfsrNext` under one mask, as a map of register values (R198). -/
abbrev lfsrClock (poly state : Nat) : Nat := lfsrNext state poly

theorem lfsrIter_eq_iterate (poly n state : Nat) : lfsrIter poly n state = (lfsrClock poly)^[n] state := by
  induction n generalizing state with
  | zero => rfl
  | succ n ih => exact ih _

/-- What the test of R193 looks at: the register is 1 at the last look and at none before. -/
theorem lfsrFirstOneAfter_iff {poly n state : Nat} :
    lfsrFirstOneAfter poly n state = true ↔
      (lfsrClock poly)^[n] state = 1 ∧ ∀ m, m < n → (lfsrClock poly)^[m] state ≠ 1 := by
  induction n generalizing state with
  | zero => simp [lfsrFirstOneAfter]
  | succ n ih =>
    rw [lfsrFirstOneAfter, Bool.and_eq_true, ih, bne_iff_ne, Nat.forall_lt_succ_left]
    exact and_left_comm

section
variable {w poly : Nat} (hp : lfsrFullPeriod w poly = true)
include hp

theorem one_lt_two_pow_of_fullPeriod : 1 < 2 ^ w := by
  simp only [lfsrFullPeriod, Bool.and_eq_true, decide_eq_true_eq] at hp
  exact Nat.one_lt_two_pow (by omega)

/-- The cycle of state 1 has length `2^w - 1`: that is what the test of R193 establishes. -/
theorem minimalPeriod_one : minimalPeriod (lfsrClock poly) 1 = 2 ^ w - 1 := by
  have htwo := one_lt_two_pow_of_fullPeriod hp
  simp only [lfsrFullPeriod, Bool.and_eq_true] at hp
  obtain ⟨hlast, hbefore⟩ := lfsrFirstOneAfter_iff.mp hp.2
  have hsucc : 2 ^ w - 1 = 2 ^ w - 2 + 1 := by omega
  have hreturn : IsPeriodicPt (lfsrClock poly) (2 ^ w - 1) 1 := by rw [hsucc]; exact hlast
  refine le_antisymm (hreturn.minimalPeriod_le (by omega)) (Nat.le_of_not_lt fun hshort => ?_)
  obtain ⟨m, hm⟩ := Nat.exists_eq_succ_of_ne_zero (hreturn.minimalPeriod_pos (by omega)).ne'
  refine hbefore m (by omega) ?_
  have hperiod := Function.iterate_minimalPeriod (f := lfsrClock poly) (x := 1)
  rwa [hm] at hperiod

/-- Clocks keep the register a nonzero `w`-bit value (R200 (a)). -/
theorem iterate_lfsrClock_mem (n : Nat) {s : Nat} (hs : s ∈ Finset.Ico 1 (2 ^ w)) :
    (lfsrClock poly)^[n] s ∈ Finset.Ico 1 (2 ^ w) := by
  obtain ⟨hpos, hlt⟩ := Finset.mem_Ico.mp hs
  rw [← lfsrIter_eq_iterate]
  exact Finset.mem_Ico.mpr (lfsrIter_nonzero_fits hp n hpos hlt)

/-- A cycle as long as there are nonzero states has every one of them. -/
theorem exists_iterate_eq_of_minimalPeriod {s x : Nat} (hs : s ∈ Finset.Ico 1 (2 ^ w))
    (hperiod : minimalPeriod (lfsrClock poly) s = 2 ^ w - 1) (hx : x ∈ Finset.Ico 1 (2 ^ w)) :
    ∃ n, n < 2 ^ w - 1 ∧ (lfsrClock poly)^[n] s = x := by
  have hinj : Set.InjOn ((lfsrClock poly)^[·] s) (Finset.range (2 ^ w - 1)) := by
    rw [Finset.coe_range, ← hperiod]
    exact Function.iterate_injOn_Iio_minimalPeriod
  have hsurj := Finset.surjOn_of_injOn_of_card_le _ (fun n _ => iterate_lfsrClock_mem hp n hs) hinj
    (by rw [Nat.card_Ico, Finset.card_range])
  obtain ⟨n, hn, hnx⟩ := hsurj hx
  exact ⟨n, Finset.mem_range.mp hn, hnx⟩

/-- Every nonzero state is on the cycle of state 1, so its own cycle is as long (R200 (c)). -/
theorem minimalPeriod_lfsrClock {s : Nat} (hs : s ∈ Finset.Ico 1 (2 ^ w)) :
    minimalPeriod (lfsrClock poly) s = 2 ^ w - 1 := by
  have htwo := one_lt_two_pow_of_fullPeriod hp
  have hone := minimalPeriod_one hp
  obtain ⟨n, -, rfl⟩ := exists_iterate_eq_of_minimalPeriod hp (Finset.mem_Ico.mpr ⟨le_rfl, htwo⟩) hone hs
  have hcyclic : 1 ∈ Function.periodicPts (lfsrClock poly) :=
    Function.minimalPeriod_pos_iff_mem_periodicPts.mp (by omega)
  rw [Function.minimalPeriod_apply_iterate hcyclic, hone]

/-- `2^w - 1` clocks return to the start (R200 (c)). -/
theorem iterate_lfsrClock_period {s : Nat} (hs : s ∈ Finset.Ico 1 (2 ^ w)) : (lfsrClock poly)^[2 ^ w - 1] s = s := by
  rw [← minimalPeriod_lfsrClock hp hs]
  exact Function.iterate_minimalPeriod

/-- Every `w`-bit state comes back, 0 by staying, so two states with the same next state are one (R200 (a)). -/
theorem lfsrClock_injOn : Set.InjOn (lfsrClock poly) (Set.Iio (2 ^ w)) := by
  have htwo := one_lt_two_pow_of_fullPeriod hp
  have hsucc : Nat.succ (2 ^ w - 2) = 2 ^ w - 1 := by omega
  have hback : ∀ s, s < 2 ^ w → (lfsrClock poly)^[2 ^ w - 2] (lfsrClock poly s) = s := fun s hs => by
    rw [← Function.iterate_succ_apply, hsucc]
    obtain rfl | hpos := Nat.eq_zero_or_pos s
    · exact Function.iterate_fixed rfl _
    · exact iterate_lfsrClock_period hp (Finset.mem_Ico.mpr ⟨hpos, hs⟩)
  intro s hs s' hs' heq
  rw [← hback s hs, heq, hback s' hs']

end

/-- Settles O56: a mask of full period gives every nonzero state the same cycle length, the number of these states. -/
theorem lfsrCycles : Obligations.LfsrCycles := by
  intro w poly hp
  refine ⟨rfl, fun s hpos hlt => lfsrNext_nonzero_fits hp hpos hlt,
    fun s s' hs hs' heq => lfsrClock_injOn hp hs hs' heq, fun s hpos hlt => ?_⟩
  have hs : s ∈ Finset.Ico 1 (2 ^ w) := Finset.mem_Ico.mpr ⟨hpos, hlt⟩
  simp only [lfsrIter_eq_iterate]
  exact ⟨iterate_lfsrClock_period hp hs, fun x hxpos hxlt =>
    exists_iterate_eq_of_minimalPeriod hp hs (minimalPeriod_lfsrClock hp hs) (Finset.mem_Ico.mpr ⟨hxpos, hxlt⟩)⟩

/-! ## Candidates (R197, R201) -/

/-- No candidate is 0: the exclusive-or is 0 only where the seed itself is taken (R197). -/
theorem hopCandidate_pos {seed s : Nat} (hs : 0 < s) : 0 < hopCandidate seed s := by
  unfold hopCandidate
  split
  · omega
  · exact Nat.pos_of_ne_zero fun h => ‹¬ seed = s› (Nat.xor_eq_zero_iff.mp h)

theorem hopCandidate_lt {w seed s : Nat} (hseed : seed < 2 ^ w) (hs : s < 2 ^ w) : hopCandidate seed s < 2 ^ w := by
  unfold hopCandidate
  split
  · exact hseed
  · exact Nat.xor_lt_two_pow hseed hs

/-- On the nonzero states the map to candidates undoes itself (R201 (b)). -/
theorem hopCandidate_hopCandidate {seed s : Nat} (hs : 0 < s) : hopCandidate seed (hopCandidate seed s) = s := by
  by_cases h : seed = s
  · subst h
    simp [hopCandidate]
  · have hmixed : seed ≠ seed ^^^ s := fun heq =>
      hs.ne' (Nat.xor_right_inj.mp (heq.symm.trans (Nat.xor_zero seed).symm))
    rw [hopCandidate, hopCandidate, if_neg h, if_neg hmixed, Nat.xor_xor_cancel_left]

theorem hopCandidate_injOn {seed : Nat} : Set.InjOn (hopCandidate seed) (Set.Ioi 0) := fun s hs s' hs' heq => by
  rw [← hopCandidate_hopCandidate (seed := seed) hs, heq, hopCandidate_hopCandidate hs']

/-- What `HopNext` answers is in the grid (R201 (a)). -/
theorem hopNext_range {w poly seed nGrid s st hopv : Nat} (hp : lfsrFullPeriod w poly = true) (hpos : 0 < s)
    (hlt : s < 2 ^ w) (h : hopNext w s poly seed nGrid = some (st, hopv)) : 1 ≤ hopv ∧ hopv ≤ nGrid := by
  obtain ⟨n, -, rfl, rfl, hle, -⟩ := hopSearch_some h
  exact ⟨hopCandidate_pos (lfsrIter_nonzero_fits hp (n + 1) hpos hlt).1, hle⟩

/-- Settles O57: the map to candidates is its own inverse, and the retry loop ends on a candidate in range. -/
theorem hopCandidatesOnce : Obligations.HopCandidatesOnce := by
  refine ⟨fun w seed hseed => ⟨fun s hpos hlt => ⟨hopCandidate_pos hpos, hopCandidate_lt hseed hlt⟩,
    fun s s' hpos _ hpos' _ heq => hopCandidate_injOn hpos hpos' heq, fun v hpos hlt =>
      ⟨_, hopCandidate_pos hpos, hopCandidate_lt hseed hlt, hopCandidate_hopCandidate hpos⟩⟩,
    fun w poly seed nGrid s st hopv hp _ hpos hlt h => hopNext_range hp hpos hlt h⟩

/-! ## Hops (R197, R199, R202) -/

/-- The candidates of the next `n` clocks. -/
def candidates (poly seed n state : Nat) : List Nat :=
  (List.iterate (lfsrClock poly) (lfsrClock poly state) n).map (hopCandidate seed)

/-- Those of them that are in range: the hops of the next `n` clocks (R197). -/
def hopsOfClocks (poly seed nGrid n state : Nat) : List Nat := (candidates poly seed n state).filter (· ≤ nGrid)

@[simp] theorem candidates_succ (poly seed n state : Nat) :
    candidates poly seed (n + 1) state =
      hopCandidate seed (lfsrNext state poly) :: candidates poly seed n (lfsrNext state poly) := rfl

@[simp] theorem candidates_length (poly seed n state : Nat) : (candidates poly seed n state).length = n := by
  simp [candidates]

theorem hopsOfClocks_succ_of_le {poly seed nGrid state : Nat} (n : Nat)
    (h : hopCandidate seed (lfsrNext state poly) ≤ nGrid) :
    hopsOfClocks poly seed nGrid (n + 1) state =
      hopCandidate seed (lfsrNext state poly) :: hopsOfClocks poly seed nGrid n (lfsrNext state poly) := by
  simp [hopsOfClocks, h]

theorem hopsOfClocks_succ_of_gt {poly seed nGrid state : Nat} (n : Nat)
    (h : nGrid < hopCandidate seed (lfsrNext state poly)) :
    hopsOfClocks poly seed nGrid (n + 1) state = hopsOfClocks poly seed nGrid n (lfsrNext state poly) := by
  simp [hopsOfClocks, h]

/-- The retry loop gives up only when no candidate of its clocks is in range (R197). -/
theorem hopSearch_eq_none_iff {poly seed nGrid fuel state : Nat} :
    hopSearch poly seed nGrid fuel state = none ↔ ∀ v ∈ candidates poly seed fuel state, nGrid < v := by
  induction fuel generalizing state with
  | zero => simp [hopSearch, candidates]
  | succ fuel ih =>
    rw [hopSearch, candidates_succ, List.forall_mem_cons, ← ih]
    split
    · simp [Nat.not_lt.mpr ‹_›]
    · simp [Nat.lt_of_not_le ‹_›]

/-- A larger bound on its clocks leaves what the retry loop answers (R199). -/
theorem hopSearch_mono {poly seed nGrid fuel fuel' state : Nat} {r : Nat × Nat} (hle : fuel ≤ fuel')
    (h : hopSearch poly seed nGrid fuel state = some r) : hopSearch poly seed nGrid fuel' state = some r := by
  induction fuel generalizing fuel' state with
  | zero => cases h
  | succ fuel ih =>
    obtain ⟨fuel', rfl⟩ : ∃ n, fuel' = n + 1 := Nat.exists_eq_succ_of_ne_zero (Nat.ne_zero_of_lt hle)
    unfold hopSearch at h ⊢
    split at h
    · rwa [if_pos ‹_›]
    · rw [if_neg ‹_›]
      exact ih (Nat.le_of_succ_le_succ hle) h

section
variable {w poly seed nGrid : Nat} (hp : lfsrFullPeriod w poly = true) (hseed : seed < 2 ^ w)
include hp

/-- No candidate comes twice within a cycle (R201 (b)). -/
theorem candidates_nodup {n s : Nat} (hn : n ≤ 2 ^ w - 1) (hs : s ∈ Finset.Ico 1 (2 ^ w)) :
    (candidates poly seed n s).Nodup := by
  have hnext := iterate_lfsrClock_mem hp 1 hs
  have hstates : Set.InjOn ((lfsrClock poly)^[·] (lfsrClock poly s)) (Set.Iio (2 ^ w - 1)) := by
    rw [← minimalPeriod_lfsrClock hp hnext]
    exact Function.iterate_injOn_Iio_minimalPeriod
  rw [candidates, ← List.range_map_iterate, List.map_map]
  refine List.nodup_range.map_on fun i hi j hj heq => ?_
  rw [List.mem_range] at hi hj
  have hpos : ∀ k, 0 < (lfsrClock poly)^[k] (lfsrClock poly s) := fun k =>
    (Finset.mem_Ico.mp (iterate_lfsrClock_mem hp k hnext)).1
  exact hstates (Set.mem_Iio.mpr (by omega)) (Set.mem_Iio.mpr (by omega)) (hopCandidate_injOn (hpos i) (hpos j) heq)

/-- A candidate in range is the next hop (R197). -/
theorem hopNext_of_le {s : Nat} (hcand : hopCandidate seed (lfsrNext s poly) ≤ nGrid) :
    hopNext w s poly seed nGrid = some (lfsrNext s poly, hopCandidate seed (lfsrNext s poly)) := by
  have htwo := one_lt_two_pow_of_fullPeriod hp
  rw [hopNext, show 2 ^ w - 1 = 2 ^ w - 2 + 1 by omega, hopSearch, if_pos hcand]

include hseed

/-- Every candidate is a nonzero `w`-bit value (R201 (b)). -/
theorem candidates_mem {n s v : Nat} (hs : s ∈ Finset.Ico 1 (2 ^ w)) (hv : v ∈ candidates poly seed n s) :
    1 ≤ v ∧ v < 2 ^ w := by
  obtain ⟨st, hst, rfl⟩ := List.mem_map.mp hv
  obtain ⟨m, -, rfl⟩ := List.mem_iterate.mp hst
  obtain ⟨hpos, hlt⟩ := Finset.mem_Ico.mp (iterate_lfsrClock_mem hp m (iterate_lfsrClock_mem hp 1 hs))
  exact ⟨hopCandidate_pos hpos, hopCandidate_lt hseed hlt⟩

/-- The candidates of a cycle are the nonzero `w`-bit values, each once (R201 (b)). -/
theorem candidates_perm {s : Nat} (hs : s ∈ Finset.Ico 1 (2 ^ w)) :
    (candidates poly seed (2 ^ w - 1) s).Perm (List.range' 1 (2 ^ w - 1)) := by
  have hsub : candidates poly seed (2 ^ w - 1) s ⊆ List.range' 1 (2 ^ w - 1) := fun v hv => by
    have := candidates_mem hp hseed hs hv
    exact List.mem_range'_1.mpr (by omega)
  exact ((candidates_nodup hp le_rfl hs).subperm hsub).perm_of_length_le (by simp)

/-- The hops of a cycle are the grid positions, each once (R202). -/
theorem hopsOfClocks_perm {s : Nat} (hgrid : nGrid ≤ 2 ^ w - 1) (hs : s ∈ Finset.Ico 1 (2 ^ w)) :
    (hopsOfClocks poly seed nGrid (2 ^ w - 1) s).Perm (List.range' 1 nGrid) := by
  have hfilter : ((List.range' 1 (2 ^ w - 1)).filter (· ≤ nGrid)).Perm (List.range' 1 nGrid) := by
    rw [List.perm_ext_iff_of_nodup ((List.nodup_range' 1).filter _) List.nodup_range']
    intro v
    rw [List.mem_filter, List.mem_range'_1, List.mem_range'_1, decide_eq_true_iff]
    omega
  exact ((candidates_perm hp hseed hs).filter _).trans hfilter

/-- The retry loop ends within `2^w - nGrid` clocks: only `2^w - 1 - nGrid` candidates are out of range (R199). -/
theorem hopSearch_ends {s : Nat} (hlo : 1 ≤ nGrid) (hgrid : nGrid ≤ 2 ^ w - 1) (hs : s ∈ Finset.Ico 1 (2 ^ w)) :
    ∃ r, hopSearch poly seed nGrid (2 ^ w - nGrid) s = some r := by
  refine Option.ne_none_iff_exists'.mp fun hnone => ?_
  have hout := hopSearch_eq_none_iff.mp hnone
  have hsub : candidates poly seed (2 ^ w - nGrid) s ⊆ List.range' (nGrid + 1) (2 ^ w - 1 - nGrid) := fun v hv => by
    have := candidates_mem hp hseed hs hv
    have := hout v hv
    exact List.mem_range'_1.mpr (by omega)
  have hcount := ((candidates_nodup hp (by omega) hs).subperm hsub).length_le
  rw [candidates_length, List.length_range'] at hcount
  omega

/-- `HopNext` answers what the retry loop finds within that bound (R199). -/
theorem hopNext_ends {s : Nat} (hlo : 1 ≤ nGrid) (hgrid : nGrid ≤ 2 ^ w - 1) (hs : s ∈ Finset.Ico 1 (2 ^ w)) :
    ∃ r, hopSearch poly seed nGrid (2 ^ w - nGrid) s = some r ∧ hopNext w s poly seed nGrid = some r := by
  obtain ⟨r, hr⟩ := hopSearch_ends hp hseed hlo hgrid hs
  exact ⟨r, hr, hopSearch_mono (by omega) hr⟩

/-- After a candidate out of range the next hop is that of the next state (R197). -/
theorem hopNext_of_gt (hlo : 1 ≤ nGrid) (hgrid : nGrid ≤ 2 ^ w - 1) {s : Nat} (hs : s ∈ Finset.Ico 1 (2 ^ w))
    (hcand : nGrid < hopCandidate seed (lfsrNext s poly)) :
    hopNext w s poly seed nGrid = hopNext w (lfsrNext s poly) poly seed nGrid := by
  obtain ⟨r, -, hr⟩ := hopNext_ends hp hseed hlo hgrid hs
  have hrest : hopSearch poly seed nGrid (2 ^ w - 2) (lfsrNext s poly) = some r := by
    rwa [hopNext, show 2 ^ w - 1 = 2 ^ w - 2 + 1 by omega, hopSearch, if_neg (Nat.not_le.mpr hcand)] at hr
  rw [hr, hopNext, hopSearch_mono (by omega) hrest]

/-- A clock that makes no hop leaves the hops to come (R202). -/
theorem hopSequence_of_gt (hlo : 1 ≤ nGrid) (hgrid : nGrid ≤ 2 ^ w - 1) {s : Nat} (hs : s ∈ Finset.Ico 1 (2 ^ w))
    (hcand : nGrid < hopCandidate seed (lfsrNext s poly)) (n : Nat) :
    hopSequence w poly seed nGrid n s = hopSequence w poly seed nGrid n (lfsrNext s poly) := by
  cases n with
  | zero => rfl
  | succ n => rw [hopSequence, hopSequence, hopNext_of_gt hp hseed hlo hgrid hs hcand]

/-- The hops from a state are those of its next `m` clocks, and then those from where these clocks lead (R202). -/
theorem hopSequence_clocks (hlo : 1 ≤ nGrid) (hgrid : nGrid ≤ 2 ^ w - 1) (m n : Nat) {s : Nat}
    (hs : s ∈ Finset.Ico 1 (2 ^ w)) :
    hopSequence w poly seed nGrid ((hopsOfClocks poly seed nGrid m s).length + n) s =
      hopsOfClocks poly seed nGrid m s ++ hopSequence w poly seed nGrid n ((lfsrClock poly)^[m] s) := by
  induction m generalizing s with
  | zero => simp [hopsOfClocks, candidates]
  | succ m ih =>
    have hrest := ih (iterate_lfsrClock_mem hp 1 hs)
    by_cases hcand : hopCandidate seed (lfsrNext s poly) ≤ nGrid
    · rw [hopsOfClocks_succ_of_le m hcand, List.length_cons, Nat.succ_add, hopSequence, hopNext_of_le hp hcand]
      exact congrArg (List.cons _) hrest
    · have hgt := Nat.lt_of_not_le hcand
      rw [hopsOfClocks_succ_of_gt m hgt, hopSequence_of_gt hp hseed hlo hgrid hs hgt]
      exact hrest

end

/-- Settles O58: the hops of one cycle are every position once, and after a cycle the register is where it began. -/
theorem hopSequenceHasFullPeriod : Obligations.HopSequenceHasFullPeriod := by
  intro w poly seed nGrid s hp hseed hlo hgrid hpos hlt
  have hs : s ∈ Finset.Ico 1 (2 ^ w) := Finset.mem_Ico.mpr ⟨hpos, hlt⟩
  have hperm := hopsOfClocks_perm hp hseed hgrid hs
  have hcycle : ∀ n, hopSequence w poly seed nGrid (nGrid + n) s =
      hopsOfClocks poly seed nGrid (2 ^ w - 1) s ++ hopSequence w poly seed nGrid n s := fun n => by
    have h := hopSequence_clocks hp hseed hlo hgrid (2 ^ w - 1) n hs
    rwa [hperm.length_eq, List.length_range', iterate_lfsrClock_period hp hs] at h
  refine ⟨hopNext_ends hp hseed hlo hgrid hs, ?_, fun n => ?_⟩
  · have hone : hopSequence w poly seed nGrid nGrid s = hopsOfClocks poly seed nGrid (2 ^ w - 1) s := by
      simpa [hopSequence] using hcycle 0
    rwa [hone]
  · rw [hcycle]
    exact List.drop_left' (by rw [hperm.length_eq, List.length_range'])

end Sys2Proof.Machine
end

section
/-! The commands of the `HOP` unit: `HOP.START` (R194), `HOP.STEP` (R196, R203 to R206), `HOP.RESET` (R208). -/

namespace Sys2Proof.Machine

/-! ## Arming and aborting -/

/-- Settles O52: the three checks pass. -/
theorem hopStartCompletes : Obligations.HopStartCompletes := by
  intro s centre hb hidle hvalid
  simp [exec, execHopStart, hb, hidle, hvalid, finish_eq]

/-- Settles O55: the one check passes. -/
theorem hopResetCompletes : Obligations.HopResetCompletes := by
  intro s hb
  simp [exec, execHopReset, hb, finish_eq, hopIdle]

/-! ## What a hop leaves -/

/-- `HOP.STEP` completes in flight when the retry loop ends (R196). -/
theorem hopStep_completes {s : State} {st hopv : Nat} (hb : s.begun = true) (hflight : s.hop.hopsRemaining ≠ 0)
    (hnext : hopNext s.hop.w s.hop.state s.hop.poly s.hop.seed s.hop.nGrid = some (st, hopv)) :
    exec .hopStep s = .next (done (stepped st hopv s)) := by
  simp only [exec, execHopStep, hb, if_neg hflight, hnext]
  rfl

/-- A `HOP.STEP` that ends with `Ok` was in flight, and leaves what a hop leaves (R196). -/
theorem hopStep_ok {s t : State} (h : exec .hopStep s = .next t) (hok : t.kind = .ok) :
    s.begun = true ∧ s.hop.hopsRemaining ≠ 0 ∧ ∃ st hopv, t = done (stepped st hopv s) := by
  obtain ⟨-, rfl⟩ | ⟨-, -, rfl⟩ | ⟨hb, hflight, st, hopv, -, rfl⟩ := execHopStep_next h
  · cases hok
  · cases hok
  · exact ⟨hb, hflight, st, hopv, rfl⟩

/-- The entries of a good `CFG`'s hop table have at least one position (R193). -/
theorem one_le_of_hopEntry (c : GoodCfg) {nGrid : Nat} {e : HopEntry} (h : hopEntry c.toCfg nGrid = some e) :
    1 ≤ nGrid := by
  have hwf := c.isWf
  have hgrid : e.nGrid = nGrid := by simpa using List.find?_some h
  simp only [cfgWf, Bool.and_eq_true] at hwf
  have he := List.all_eq_true.mp hwf.2 e (List.mem_of_find?_eq_some h)
  simp only [hopEntryWf, Bool.and_eq_true, decide_eq_true_eq] at he
  omega

/-- Under R31 (c) the retry loop ends, on a position of the grid and a nonzero `w`-bit state (R199 to R201). -/
theorem HopParamsOk.hopNext {s : State} {e : HopEntry} (hok : HopParamsOk s.CFG.toCfg s.hop e) :
    ∃ st hopv, Machine.hopNext s.hop.w s.hop.state s.hop.poly s.hop.seed s.hop.nGrid = some (st, hopv) ∧
      1 ≤ hopv ∧ hopv ≤ s.hop.nGrid ∧ 0 < st ∧ st < 2 ^ s.hop.w := by
  obtain ⟨-, -, -, -, -, hperiod⟩ := hopEntry_wf s.CFG hok.entry
  have hp : lfsrFullPeriod s.hop.w s.hop.poly = true := hok.width ▸ hperiod _ hok.polyIn
  obtain ⟨⟨st, hopv⟩, -, hnext⟩ := hopNext_ends hp hok.seedFits (one_le_of_hopEntry s.CFG hok.entry) hok.gridFits
    (Finset.mem_Ico.mpr ⟨hok.nonzero, hok.fits⟩)
  obtain ⟨hlo, hhi⟩ := hopNext_range hp hok.nonzero hok.fits hnext
  exact ⟨st, hopv, hnext, hlo, hhi, (hok.stepped hnext).nonzero, (hok.stepped hnext).fits⟩

/-- A hop carries no more bits than are left (R203, R207 (c)). -/
theorem FrameOk.stepBits_le {s : State} {eb : Nat} (hf : FrameOk s eb) (hflight : s.hop.hopsRemaining ≠ 0) :
    stepBits s ≤ s.hop.bitsRemaining := by
  unfold stepBits hopBits
  split
  · have hheader : hdrBlockBits s.CFG.toCfg ≤ (s.cfg.hdrCount - s.hop.hopIndex) * hdrBlockBits s.CFG.toCfg :=
      Nat.le_mul_of_pos_left _ (by have := hf.copied hflight; omega)
    rw [hf.left hflight, bitsLeft]
    omega
  · exact Nat.min_le_right ..

/-- No more bits are left than the frame has (R207 (b)). -/
theorem FrameOk.bitsRemaining_le {s : State} {eb : Nat} (hf : FrameOk s eb) (hflight : s.hop.hopsRemaining ≠ 0) :
    s.hop.bitsRemaining ≤ s.frame.bitLength := by
  have hheaders := Nat.mul_le_mul_right (hdrBlockBits s.CFG.toCfg) (Nat.sub_le s.cfg.hdrCount s.hop.hopIndex)
  rw [hf.left hflight, hf.length, bitsLeft]
  omega

/-- Every hop carries a bit: there are no more hops than bits (R175, R176). -/
theorem FrameOk.hopCount_le {s : State} {eb : Nat} (hf : FrameOk s eb) : s.frame.hopCount ≤ s.frame.bitLength := by
  have hheaders : s.cfg.hdrCount ≤ s.cfg.hdrCount * hdrBlockBits s.CFG.toCfg :=
    Nat.le_mul_of_pos_right _ (by simp only [hdrBlockBits, hdrPermLen]; omega)
  rw [hf.hops, hf.length, payloadBits, guardBits]
  omega

/-- Settles O53: the invariant ends the retry loop, and bounds what the result registers take. -/
theorem hopStepCompletes : Obligations.HopStepCompletes := by
  intro s hs hb hflight
  obtain ⟨e, he⟩ := hs.hopOk hb
  obtain ⟨eb, hf⟩ := hs.frameOk (hs.flightHas hflight)
  obtain ⟨st, hopv, hnext, hlo, hhi, hpos, hlt⟩ := he.hopNext
  have hroom : 8 * frameMaxBytes = 2040 := rfl
  have hfits := hf.fits
  have hbits := hf.stepBits_le hflight
  have hleft := hf.bitsRemaining_le hflight
  have hindex : s.hop.hopIndex ≤ s.frame.bitLength := by
    have := hf.counted hflight
    have := hf.hopCount_le
    omega
  have hlast : (s.hop.hopsRemaining - 1 = 0) = (s.hop.hopsRemaining = 1) := propext (by omega)
  refine ⟨st, hopv, stepBits s, done (stepped st hopv s), hnext, hlo, hhi, hpos, hlt, rfl, hbits,
    hopStep_completes hb hflight hnext, ?_, fun hgrid => toWord_toNat (by omega), toWord_toNat (by omega),
    toWord_toNat (by omega)⟩
  simp only [stepped, hlast]

/-! ## The last hop -/

/-- Begun and idle, `FHSS.ENCODE` turns a payload away for its size alone (R146). -/
theorem encodeCheck_of_idle {s : State} {len : Nat} {k : ResultKind} (hb : s.begun = true)
    (hidle : s.hop.hopsRemaining = 0) (h : encodeCheck len s = some k) : k = .packetTooLong := by
  have hbegun : ¬ s.begun = false := by simp [hb]
  rw [encodeCheck, if_neg hbegun, if_neg (not_not.mpr hidle)] at h
  split at h
  · exact (Option.some.inj h).symm
  · split at h
    · exact (Option.some.inj h).symm
    · cases h

/-- Settles O54: after the last hop the counters are at their ends, and the unit is begun and idle. -/
theorem lastHopEndsFrame : Obligations.LastHopEndsFrame := by
  intro s t hs h hok hzero
  obtain ⟨hb, hflight, st, hopv, rfl⟩ := hopStep_ok h hok
  obtain ⟨eb, hf⟩ := hs.frameOk (hs.flightHas hflight)
  have hlast : s.hop.hopsRemaining = 1 := by
    have : s.hop.hopsRemaining - 1 = 0 := hzero
    omega
  have hindex : s.hop.hopIndex + 1 = s.frame.hopCount := hlast ▸ hf.counted hflight
  have hvalid : (done (stepped st hopv s)).frame.valid = false := if_pos hzero
  refine ⟨hvalid, fun a => visibleByte_eq_none (.inr ⟨rfl, hvalid⟩), stepped_bitsRemaining_last hf hlast st hopv,
    hindex, fun len u henc => ?_⟩
  obtain ⟨k, hk, rfl⟩ | ⟨payload, -, -, rfl⟩ := execFhssEncode_next henc
  · exact .inr (encodeCheck_of_idle (s := done (stepped st hopv s)) hb hzero hk)
  · exact .inl rfl

/-! ## The frequency of a hop -/

theorem hasIfOffset_iff {hopIndex hdrCount : Nat} :
    hasIfOffset hopIndex hdrCount = true ↔ hopIndex < hdrCount ∧ (hdrCount - hopIndex) % 2 = 0 := by
  simp [hasIfOffset]

/-- The raw frequency is the centre and the offset, modulo `2^32` (R204, R90). -/
theorem rawFrequency_toNat (centre : Word) (off : Int) :
    ((rawFrequency centre off).toNat : Int) = (centre.toNat + off) % 2 ^ 32 := by
  rw [rawFrequency, BitVec.toNat_ofInt]
  exact Int.toNat_of_nonneg (Int.emod_nonneg _ (by decide))

/-- The offset of a hop in integers: with a position in the grid no subtraction is cut off at 0 (R204). -/
theorem freqOffset_eq (c : Cfg) (hopv : Nat) {nGrid : Nat} (hgrid : 1 ≤ nGrid) (grid : Grid)
    (hopIndex hdrCount : Nat) :
    freqOffset c hopv nGrid grid hopIndex hdrCount =
      ((((hopv : Int) - 1) - ((nGrid : Int) - 1) / 2) * (gridChannels c grid : Int)
          - (1 + (nGrid : Int) % 2) * ((gridChannels c grid : Int) / 2)) * (c.chanStepRaw.toNat : Int)
        + (if hopIndex < hdrCount ∧ (hdrCount - hopIndex) % 2 = 0 then (c.ifOffsetRaw.toNat : Int) else 0) := by
  simp only [freqOffset, hasIfOffset_iff]
  push_cast [hgrid]
  rfl

/-- Settles O59: `RES[1]` is the centre and the offset; the parity of the header hops left says which carry the IF
offset. -/
theorem frequencyOfHop : Obligations.FrequencyOfHop := by
  refine ⟨fun s st hopv hb hflight hnext hgrid => ⟨_, hopStep_completes hb hflight hnext, ?_⟩,
    fun hopIndex hdrCount hlo hhi => ?_⟩
  · rw [stepped_res, rawFrequency_toNat, stepOffset, freqOffset_eq _ _ hgrid, ← Int.add_assoc]
  · rw [hasIfOffset_iff]
    interval_cases hdrCount <;> omega

end Sys2Proof.Machine
end

section
/-! How a command can stop: reading a byte of `IN` the host never wrote (R37, R233), and no other way (R199). -/

namespace Sys2Proof.Machine

/-! ## What a command answers -/

/-- A command run on `s` answers a next state, or stops because some byte of `IN` has not been written (R37, R233). -/
def NextOrUnwritten (s : State) (o : Host.Outcome State Fault Refusal) : Prop :=
  (∃ t, o = .next t) ∨ (o = .fault .readOfUnwrittenInput ∧ ¬ inputWritten inBytes s)

/-- Every command that reaches its end, with `Ok` or with an error kind, answers a next state (R220). -/
theorem nextOrUnwritten_complete (k : ResultKind) (s u : State) : NextOrUnwritten s (complete k u) :=
  .inl ⟨_, complete_eq k u⟩

/-- `MemRead` within `IN` answers nothing only when the host has not written all of `IN` (R37). -/
theorem not_inputWritten_of_readBytes {n : Nat} {s : State} (hn : n ≤ inBytes)
    (hnone : Memory.readBytes s.inBuf 0 n = none) : ¬ inputWritten inBytes s := by
  obtain ⟨a, ha, hread⟩ := readBytes_eq_none_iff.mp hnone
  rw [Nat.zero_add] at hread
  intro hall
  have hbyte : (Memory.read s.inBuf a).isSome = true := hall a (ha.trans_le hn)
  rw [hread] at hbyte
  cases hbyte

theorem execConvEncode_nextOrUnwritten (nbits : Nat) (s : State) : NextOrUnwritten s (execConvEncode nbits s) := by
  unfold execConvEncode
  split
  · exact nextOrUnwritten_complete ..
  · split
    · exact nextOrUnwritten_complete ..
    · have hbytes : ceilDiv nbits 8 ≤ inBytes := by
        simp only [ceilDiv, inBytes] at *
        omega
      split
      · exact .inr ⟨rfl, not_inputWritten_of_readBytes hbytes ‹_›⟩
      · exact nextOrUnwritten_complete ..

theorem execFhssEncode_nextOrUnwritten (len : Nat) (s : State) : NextOrUnwritten s (execFhssEncode len s) := by
  unfold execFhssEncode
  split
  · exact nextOrUnwritten_complete ..
  · obtain ⟨-, -, hlen, -⟩ := encodeCheck_eq_none_iff.mp ‹_›
    split
    · exact .inr ⟨rfl, not_inputWritten_of_readBytes (hlen.trans (by decide)) ‹_›⟩
    · exact nextOrUnwritten_complete ..

/-- With R31 (c) the retry loop ends, so `HOP.STEP` completes, in flight or not (R196, R199). -/
theorem execHopStep_nextOrUnwritten {s : State} (hs : TransmissionOk s) : NextOrUnwritten s (execHopStep s) := by
  unfold execHopStep
  split
  · exact nextOrUnwritten_complete ..
  · split
    · exact nextOrUnwritten_complete ..
    · obtain ⟨e, he⟩ := hs.hopOk (by simpa using ‹¬ s.begun = false›)
      obtain ⟨st, hopv, hnext, -⟩ := he.hopNext
      rw [hnext]
      exact nextOrUnwritten_complete ..

/-- With R31 (c) to (g) the one stop of a command is its read of an unwritten byte of `IN` (R233). -/
theorem exec_nextOrUnwritten {s : State} (hs : TransmissionOk s) (i : Instr) : NextOrUnwritten s (exec i s) := by
  cases i with
  | convEncode nbits => exact execConvEncode_nextOrUnwritten nbits s
  | fhssEncode len => exact execFhssEncode_nextOrUnwritten len s
  | hopStep => exact execHopStep_nextOrUnwritten hs
  | convBegin rate => simp only [exec, execConvBegin]; split <;> exact nextOrUnwritten_complete ..
  | bchBegin n k poly => simp only [exec, execBchBegin]; split <;> exact nextOrUnwritten_complete ..
  | bchEncode d => simp only [exec, execBchEncode]; split <;> exact nextOrUnwritten_complete ..
  | fhssBegin bw cr hdrCount grid id =>
    simp only [exec, execFhssBegin]; split <;> exact nextOrUnwritten_complete ..
  | fhssConfig bw cr hdrCount grid id =>
    simp only [exec, execFhssConfig]
    split
    · split <;> exact nextOrUnwritten_complete ..
    · exact nextOrUnwritten_complete ..
  | hopStart centre => simp only [exec, execHopStart]; split_ifs <;> exact nextOrUnwritten_complete ..
  | hopReset => simp only [exec, execHopReset]; split <;> exact nextOrUnwritten_complete ..

/-! ## What a step answers -/

/-- A host read answers or has no move (R52). -/
theorem hostRead_ne_fault (loc : Loc) (s : State) (f : Fault) : hostRead loc s ≠ .fault f := by
  cases loc with
  | byte sp a => simp only [hostRead]; split <;> simp
  | res i => simp only [hostRead]; split <;> simp
  | status => simp [hostRead]

/-- A host write answers or has no move (R52). -/
theorem hostWrite_ne_fault (loc : Loc) (b : Byte) (s : State) (f : Fault) : hostWrite loc b s ≠ .fault f := by
  unfold hostWrite
  split
  · split <;> simp
  all_goals simp

/-- A step that faults runs a command that faults: an illegal word, a host access and a reset never do. -/
theorem step_fault {s : State} {f : Fault} (h : step s = .fault f) :
    ∃ i rest, exec i { s with pending := rest } = .fault f := by
  cases hp : s.pending with
  | nil => rw [step_nil hp] at h; cases h
  | cons e rest =>
    cases e with
    | command w =>
      cases hd : decode w with
      | ok i => exact ⟨i, rest, step_command hp hd ▸ h⟩
      | error x => rw [step_illegal hp hd] at h; cases h
    | read loc => rw [step_cons hp] at h; exact absurd h (hostRead_ne_fault loc _ f)
    | write loc b => rw [step_cons hp] at h; exact absurd h (hostWrite_ne_fault loc b _ f)
    | reset => rw [step_cons hp] at h; cases h

/-- Settles O16: R31 (c) ends the retry loop of `HOP.STEP`, and the two commands that read `IN` read within it. -/
theorem onlyUnwrittenInputFaults : Obligations.OnlyUnwrittenInputFaults := by
  refine ⟨fun s f hs h => ?_, fun s hs i => ?_⟩
  · obtain ⟨i, rest, hexec⟩ := step_fault h
    have hs' : TransmissionOk { s with pending := rest } := hs.congr rfl rfl rfl rfl rfl
    obtain ⟨t, hnext⟩ | ⟨hfault, hin⟩ := exec_nextOrUnwritten hs' i
    · cases hexec.symm.trans hnext
    · cases hexec.symm.trans hfault
      exact ⟨rfl, hin⟩
  · exact (exec_nextOrUnwritten hs i).imp_right And.left

end Sys2Proof.Machine
end

section
/-! The error kinds: what they leave unchanged (R225), and which one a command reports (R228). -/

namespace Sys2Proof.Machine

/-! ## Error kinds leave the state -/

/-- The flags of `STATUS` copy unit state: they see neither the result kind nor `pc` (R23). -/
theorem status_flags_failed (k : ResultKind) (s : State) :
    (failed k s).status.extractLsb' 8 24 = s.status.extractLsb' 8 24 := by
  refine BitVec.eq_of_getLsbD_eq fun j _ => ?_
  rw [BitVec.getLsbD_extractLsb', BitVec.getLsbD_extractLsb', status_getLsbD_flags, status_getLsbD_flags]
  rfl

/-- Settles O7: a command that does not end with `Ok` has no effect. -/
theorem errorKindChangesNothingElse : Obligations.ErrorKindChangesNothingElse := by
  intro i s t h hkind
  obtain ⟨k, -, rfl⟩ | ⟨u, -, rfl⟩ := exec_next h
  · exact ⟨rfl, status_flags_failed k s⟩
  · exact absurd rfl hkind

/-! ## The checks of `CONV` and `BCH` -/

theorem rateOfDenominator_eq_none {rate : Nat} (h2 : rate ≠ 2) (h3 : rate ≠ 3) : rateOfDenominator rate = none := by
  unfold rateOfDenominator
  split
  · exact absurd rfl h2
  · exact absurd rfl h3
  · rfl

/-- `CONV.BEGIN` checks the rate (R105). -/
theorem convBegin_invalidRate {rate : Nat} (s : State) (h2 : rate ≠ 2) (h3 : rate ≠ 3) :
    exec (.convBegin rate) s = refusedWith .invalidRate s := by
  simp only [exec, execConvBegin, rateOfDenominator_eq_none h2 h3]
  rfl

/-- `CONV.ENCODE` checks first that a rate has begun (R107). -/
theorem convEncode_notInitialised {s : State} (nbits : Nat) (hrate : s.conv.rate = none) :
    exec (.convEncode nbits) s = refusedWith .notInitialised s := by
  simp only [exec, execConvEncode, hrate]
  rfl

/-- `CONV.ENCODE` checks then that the input fits `IN` (R107). -/
theorem convEncode_invalidLength {s : State} {nbits : Nat} (hrate : s.conv.rate ≠ none) (hn : nbits > 8 * inBytes) :
    exec (.convEncode nbits) s = refusedWith .invalidLength s := by
  obtain ⟨r, hr⟩ := Option.ne_none_iff_exists'.mp hrate
  simp only [exec, execConvEncode, hr, if_pos hn]
  rfl

/-- A code that fails one of the six checks of R122 has no generator. -/
theorem bchGenerator_eq_none {n k poly : Nat}
    (h : poly < 4 ∨ n ≠ 2 ^ deg poly - 1 ∨ n > 31 ∨ k < 1 ∨ k ≥ n ∨ primitive (deg poly) poly n = false ∨
      findGenerator (deg poly) poly n k = none) : bchGenerator n k poly = none := by
  unfold bchGenerator
  split
  · have hok : bchParamsOk n k poly = true := ‹_›
    simp only [bchParamsOk, Bool.and_eq_true, decide_eq_true_eq, beq_iff_eq] at hok
    obtain ⟨⟨⟨⟨⟨hpoly, hn⟩, hmax⟩, hk⟩, hkn⟩, hprim⟩ := hok
    rcases h with h | h | h | h | h | h | h
    · omega
    · exact absurd hn h
    · exact absurd hmax (Nat.not_le.mpr h)
    · omega
    · omega
    · rw [hprim] at h; cases h
    · exact h
  · rfl

/-- `BCH.BEGIN` reports one kind for all six checks (R122). -/
theorem bchBegin_invalidBch {n k : Nat} {poly : Word} (s : State) (h : bchGenerator n k poly.toNat = none) :
    exec (.bchBegin n k poly) s = refusedWith .invalidBch s := by
  simp only [exec, execBchBegin, h]
  rfl

/-- `BCH.ENCODE` checks that a code has begun (R130). -/
theorem bchEncode_notInitialised {s : State} (d : Word) (hv : s.bch.valid = false) :
    exec (.bchEncode d) s = refusedWith .notInitialised s := by
  simp only [exec, execBchEncode, hv]
  rfl

/-! ## The checks of `ValidateConfig` (R142) -/

theorem codingRateOfCode_eq_none {cr : Nat} (h : 3 < cr) : codingRateOfCode cr = none := by
  obtain ⟨n, rfl⟩ := Nat.exists_eq_add_of_le' h
  rfl

theorem codingRateOfCode_eq_some {cr : Nat} (h : cr ≤ 3) : ∃ rate, codingRateOfCode cr = some rate := by
  interval_cases cr <;> exact ⟨_, rfl⟩

section
variable {c : Cfg} {bw cr hdrCount channels : Nat} {grid : Grid} {id : Nat}

theorem validateConfig_invalidCodingRate (hcr : 3 < cr) :
    validateConfig c bw cr hdrCount grid id = .error .invalidCodingRate := by
  simp only [validateConfig, codingRateOfCode_eq_none hcr]

theorem validateConfig_invalidBandwidth (hcr : cr ≤ 3) (hbw : chanCount c bw = none) :
    validateConfig c bw cr hdrCount grid id = .error .invalidBandwidth := by
  obtain ⟨rate, hrate⟩ := codingRateOfCode_eq_some hcr
  simp only [validateConfig, hrate, hbw]

theorem validateConfig_invalidHdrCount (hcr : cr ≤ 3) (hbw : chanCount c bw = some channels)
    (hhdr : hdrCount < hdrCountMin ∨ hdrCount > hdrCountMax) :
    validateConfig c bw cr hdrCount grid id = .error .invalidHdrCount := by
  obtain ⟨rate, hrate⟩ := codingRateOfCode_eq_some hcr
  simp only [validateConfig, hrate, hbw, if_pos hhdr]

theorem validateConfig_invalidGrid (hcr : cr ≤ 3) (hbw : chanCount c bw = some channels)
    (hlo : hdrCountMin ≤ hdrCount) (hhi : hdrCount ≤ hdrCountMax) (he : hopEntry c (gridSize c channels grid) = none) :
    validateConfig c bw cr hdrCount grid id = .error .invalidGrid := by
  obtain ⟨rate, hrate⟩ := codingRateOfCode_eq_some hcr
  have hhdr : ¬ (hdrCount < hdrCountMin ∨ hdrCount > hdrCountMax) := by omega
  simp only [validateConfig, hrate, hbw, if_neg hhdr, he]

theorem validateConfig_invalidDataShaping {e : HopEntry} (hcr : cr ≤ 3) (hbw : chanCount c bw = some channels)
    (hlo : hdrCountMin ≤ hdrCount) (hhi : hdrCount ≤ hdrCountMax) (he : hopEntry c (gridSize c channels grid) = some e)
    (hid : id > hopSeqIdMax ∨ id ≥ e.idLimit) :
    validateConfig c bw cr hdrCount grid id = .error .invalidDataShaping := by
  obtain ⟨rate, hrate⟩ := codingRateOfCode_eq_some hcr
  have hhdr : ¬ (hdrCount < hdrCountMin ∨ hdrCount > hdrCountMax) := by omega
  simp only [validateConfig, hrate, hbw, if_neg hhdr, he, if_pos hid]

end

/-- `FHSS.BEGIN` reports the kind of `ValidateConfig` (R141). -/
theorem fhssBegin_refused {s : State} {bw cr hdrCount id : Nat} {grid : Grid} {k : ResultKind}
    (h : validateConfig s.CFG.toCfg bw cr hdrCount grid id = .error k) :
    exec (.fhssBegin bw cr hdrCount grid id) s = refusedWith k s := by
  simp only [exec, execFhssBegin, h]
  rfl

/-- `FHSS.CONFIG` checks first that the unit has begun (R143). -/
theorem fhssConfig_wrongModem {s : State} (bw cr hdrCount : Nat) (grid : Grid) (id : Nat) (hb : s.begun = false) :
    exec (.fhssConfig bw cr hdrCount grid id) s = refusedWith .wrongModem s := by
  simp only [exec, execFhssConfig, hb]
  rfl

/-! ## The checks of `FHSS.ENCODE` and of `HOP` -/

/-- `FHSS.ENCODE` reports the kind of its first failing check (R146). -/
theorem fhssEncode_refused {s : State} {len : Nat} {k : ResultKind} (h : encodeCheck len s = some k) :
    exec (.fhssEncode len) s = refusedWith k s := by
  simp only [exec, execFhssEncode, h]
  rfl

/-- Begun and idle, `FHSS.ENCODE` turns away what is too long, as a payload or as a frame (R146). -/
theorem encodeCheck_packetTooLong {s : State} {len : Nat} (hb : s.begun = true) (hidle : s.hop.hopsRemaining = 0)
    (hlong : len > maxPayload ∨ frameBitLength s.CFG.toCfg s.cfg len > 8 * frameMaxBytes) :
    encodeCheck len s = some .packetTooLong := by
  cases hcheck : encodeCheck len s with
  | none =>
    obtain ⟨-, -, hlen, hfits⟩ := encodeCheck_eq_none_iff.mp hcheck
    omega
  | some k => rw [encodeCheck_of_idle hb hidle hcheck]

/-- Settles O23: per command, the checks before the failing one pass, and that one's kind is raised. -/
theorem firstFailingCheckDecides : Obligations.FirstFailingCheckDecides := by
  refine ⟨fun s w rest e hp hd => step_illegal hp hd, fun s rate => convBegin_invalidRate s,
    fun s nbits => ⟨convEncode_notInitialised nbits, convEncode_invalidLength⟩,
    fun s n k poly h => bchBegin_invalidBch s (bchGenerator_eq_none h), fun s d => bchEncode_notInitialised d,
    fun s bw cr hdrCount grid id => ?_, fun s len => ?_, fun s centre => ?_, fun s => ?_⟩
  · refine ⟨fun hcr => fhssBegin_refused (validateConfig_invalidCodingRate hcr),
      fun hcr hbw => fhssBegin_refused (validateConfig_invalidBandwidth hcr hbw),
      fun channels hcr hbw => ⟨fun hhdr => fhssBegin_refused (validateConfig_invalidHdrCount hcr hbw hhdr),
        fun hlo hhi he => fhssBegin_refused (validateConfig_invalidGrid hcr hbw hlo hhi he),
        fun e hlo hhi he hid => fhssBegin_refused (validateConfig_invalidDataShaping hcr hbw hlo hhi he hid)⟩,
      fhssConfig_wrongModem bw cr hdrCount grid id, fun hb k _ h => ?_⟩
    rw [← fhssBegin_eq_fhssConfig hb, h]
  · exact ⟨fun hb => fhssEncode_refused (by simp [encodeCheck, hb]),
      fun hb hflight => fhssEncode_refused (by simp [encodeCheck, hb, hflight]),
      fun hb hidle hlen => fhssEncode_refused (encodeCheck_packetTooLong hb hidle (.inl hlen)),
      fun hb hidle _ hlong => fhssEncode_refused (encodeCheck_packetTooLong hb hidle (.inr hlong))⟩
  · refine ⟨fun hb => ?_, fun hb hflight => ?_, fun hb hidle hvalid => ?_⟩
    · simp [exec, execHopStart, raise_eq, refusedWith, hb]
    · simp [exec, execHopStart, raise_eq, refusedWith, hb, hflight]
    · simp [exec, execHopStart, raise_eq, refusedWith, hb, hidle, hvalid]
  · refine ⟨fun hb => ?_, fun hb hidle => ?_, fun hb => ?_⟩
    · simp [exec, execHopStep, raise_eq, refusedWith, hb]
    · simp [exec, execHopStep, raise_eq, refusedWith, hb, hidle]
    · simp [exec, execHopReset, raise_eq, refusedWith, hb]

end Sys2Proof.Machine
end

section
/-! Reset (R250 to R252, R31, R233 (b)), and a transmission in flight that locks its frame (R260). -/

namespace Sys2Proof.Machine

/-! ## The reset event -/

/-- A step on a pending reset resets the block (R250). -/
theorem step_reset {s : State} {rest : List Event} (hp : s.pending = .reset :: rest) :
    step s = .next (hardReset { s with pending := rest }) := step_cons hp

/-- After reset `STATUS` reads `Ok` with every flag clear (R250, R23). -/
theorem hardReset_status (s : State) : (hardReset s).status = 0 :=
  calc (hardReset s).status
    _ = State.reset.status := rfl
    _ = 0 := by decide

/-- After reset no byte of a buffer holds a value (R37, R250). -/
theorem hardReset_byteAt (s : State) (sp : Space) (a : Nat) : (hardReset s).byteAt sp a = none := by
  cases sp <;> rfl

/-- Settles O10: the step is the reset event, whose registers are those of `State.resetWith`. -/
theorem resetEventResets : Obligations.ResetEventResets := by
  intro s rest hp
  have hbytes := hardReset_byteAt { s with pending := rest }
  refine ⟨_, step_reset hp, rfl, hardReset_status _, ?_⟩
  simp [State.resetWith, codingRateCode, Grid.code, hbytes]

/-! ## The invariants at reset -/

/-- An empty buffer is canonical and inside its size. -/
theorem Memory.fitsIn_nil (size : Nat) : Memory.fitsIn size [] := ⟨Memory.wf_nil, rfl⟩

/-- The reset state meets R31: its buffers are empty, and nothing is begun (R251). -/
theorem inv_resetWith (c : GoodCfg) : Inv (State.resetWith c) where
  buffers      := buffersOk_iff.mpr ⟨Memory.fitsIn_nil _, Memory.fitsIn_nil _, Memory.fitsIn_nil _⟩
  conv         := fun r hr => by cases hr
  bch          := fun hvalid => by cases hvalid
  transmission := transmissionOk_hardReset (State.resetWith c)

/-- Settles O11: the reset state meets the invariants, and `State.start` decides whether there is one. -/
theorem resetHoldsInvariants : Obligations.ResetHoldsInvariants :=
  ⟨inv_resetWith, inv_resetWith goodCfgRef, fun _ hwf hkeeps => dif_pos ⟨hwf, hkeeps⟩,
    fun _ hbad => dif_neg (not_and_or.mpr hbad)⟩

/-! ## What only a reset clears -/

/-- Whatever has begun in `s` has begun in `t`: the three facts of R252. -/
def KeepsBegun (s t : State) : Prop :=
  (s.begun = true → t.begun = true) ∧ (s.bch.valid = true → t.bch.valid = true) ∧
    (s.conv.rate ≠ none → t.conv.rate ≠ none)

/-- The five commands that write one of the three set it; the others leave all three. -/
theorem Effect.keepsBegun {i : Instr} {s u : State} (h : Effect i s u) : KeepsBegun s u := by
  cases h with
  | convBegin r hr => exact ⟨id, id, fun _ => Option.some_ne_none r⟩
  | convEncode r bytes hr hn hread => exact ⟨id, id, fun _ => Option.some_ne_none r⟩
  | bchBegin t g hg => exact ⟨id, fun _ => rfl, id⟩
  | fhssBegin v hv => exact ⟨fun _ => rfl, id, id⟩
  | fhssEncode payload hcheck hread => exact ⟨id, id, fun _ => by simp⟩
  | _ => exact ⟨id, id, id⟩

/-- Settles O21: a command's effect keeps what has begun, and an illegal word or a host access reaches none of it. -/
theorem onlyResetUnbegins : Obligations.OnlyResetUnbegins := by
  intro s t h hreset
  obtain ⟨e, rest, hp, hcase⟩ := step_cases h
  rcases hcase with ⟨w, i, -, -, hex⟩ | ⟨w, x, -, -, rfl⟩ | ⟨loc, -, hread⟩ | ⟨loc, b, -, hwr⟩ | ⟨rfl, -⟩
  · obtain ⟨k, -, rfl⟩ | ⟨u, hu, rfl⟩ := exec_next hex
    · exact ⟨id, id, id⟩
    · exact hu.keepsBegun
  · exact ⟨id, id, id⟩
  · obtain ⟨v, d, rfl⟩ := hostRead_next hread
    exact ⟨id, id, id⟩
  · obtain ⟨a, -, -, rfl⟩ := hostWrite_next hwr
    exact ⟨id, id, id⟩
  · exact absurd (by rw [hp]; rfl) hreset

/-! ## A transmission in flight -/

/-- The three commands that abort a transmission leave the counters at 0, the register at its initial state and the
frame invalid (R144, R208, R260). -/
theorem Effect.aborts {i : Instr} {s u : State} (h : Effect i s u)
    (hi : i.mnemonic ∈ ["FHSS.BEGIN", "FHSS.CONFIG", "HOP.RESET"]) :
    u.hop.hopsRemaining = 0 ∧ u.hop.bitsRemaining = 0 ∧ u.hop.hopIndex = 0 ∧ u.frame.valid = false ∧
      u.hop.state = u.hop.initState := by
  cases h with
  | fhssBegin v hv => exact ⟨rfl, rfl, rfl, rfl, rfl⟩
  | fhssConfig v hb hv => exact ⟨rfl, rfl, rfl, rfl, rfl⟩
  | hopReset hb => exact ⟨rfl, rfl, rfl, rfl, rfl⟩
  | _ => simp [Instr.mnemonic] at hi

/-- Settles O60: the second check of `FHSS.ENCODE` and of `HOP.START` refuses (R228), and each abort is an effect. -/
theorem flightLocksFrame : Obligations.FlightLocksFrame := by
  intro s hb hflight
  obtain ⟨-, -, -, -, -, -, hencode, hstart, -⟩ := firstFailingCheckDecides
  refine ⟨fun len => (hencode s len).2.1 hb hflight, fun centre => (hstart s centre).2.1 hb hflight,
    fun i t hi h hok => ?_, _, hopResetCompletes s hb, rfl⟩
  obtain ⟨k, hk, rfl⟩ | ⟨u, hu, rfl⟩ := exec_next h
  · exact absurd hok hk
  · exact hu.aborts hi

end Sys2Proof.Machine
end
